-- ==== Sys2Proof/Word.lean ====
section
/-! DEFINITION. The word types (spec/00_scope.md R7): a byte is 8 bits, a byte string is a list of bytes indexed from
offset 0, a register of the host window is 32 bits. -/

namespace Sys2Proof

/-- A byte (R7). -/
abbrev Byte := BitVec 8

/-- A byte string, indexed from offset 0 (R7). -/
abbrev Bytes := List Byte

/-- A 16-bit word: TKIP mixing words, Key Information (R8, R88). -/
abbrev Half := BitVec 16

/-- A 32-bit word: every register of the host window (R16). -/
abbrev Word := BitVec 32

end Sys2Proof
end

