-- ==== Sys2Proof/Syntax.lean ====
section
/-! DEFINITION. The instructions: the 17 commands of spec/30_encoding.md R68 and spec/opcode_table.json, one constructor
per row, in the table's order. -/

namespace Sys2Proof

/-- A command (R66 to R69). A count, a length or an index stands for the 16-bit IMM field as a natural number (R67);
`Instr.wellFormed` bounds it. A `Bool` is one FLAGS bit (R69). -/
inductive Instr where
  /-- 0x01, reset the SA store (R101). -/
  | initStore
  /-- 0x02, empty the key collection and reset the SA store (R102). -/
  | destroyStore
  /-- 0x03, replace the key collection with the valid ones of the first `n` staged records (R118). -/
  | setKeys (n : Nat)
  /-- 0x04, copy at most `max` keys to KEY_OUT (R119). -/
  | getKeys (max : Nat)
  /-- 0x05, empty the key collection (R120). -/
  | cleanKeys
  /-- 0x06, validate the staged record `k` (R117). -/
  | keyValidate (k : Nat)
  /-- 0x10, find the slot of the id in PARAM (R106). -/
  | saLookup
  /-- 0x11, create an SA for the id in PARAM (R107). -/
  | saAllocate
  /-- 0x12, free a slot (R109). -/
  | saRelease (slot : Nat)
  /-- 0x13, copy a slot's fields to RESULT (R110). -/
  | saRead (slot : Nat)
  /-- 0x20, passphrase and SSID to PSK (R132). -/
  | pskDerive
  /-- 0x21, PTK expansion; NBITS is in ARG0 (R133). -/
  | ptkDerive
  /-- 0x22, the EAPOL-Key MIC check on `len` bytes; VER is in ARG0 (R136). -/
  | micCheck (len : Nat)
  /-- 0x30, one WEP key over a frame of `len` bytes; HDR_LEN is in ARG0 (R169). -/
  | wepDecrypt (fcs : Bool) (len : Nat)
  /-- 0x31, TKIP over a frame of `len` bytes; HDR_LEN is in ARG0 (R170). -/
  | tkipDecrypt (fcs : Bool) (len : Nat)
  /-- 0x32, CCMP over a frame of `len` bytes; HDR_LEN is in ARG0 (R171). -/
  | ccmpDecrypt (fcs : Bool) (len : Nat)
  /-- 0x40, the packet processor on a frame of `len` bytes (R172). -/
  | processPacket (fcs rt hs dec : Bool) (len : Nat)
  deriving DecidableEq, Repr

end Sys2Proof
end

