-- ==== Sys2Proof/WellFormed.lean ====
section
/-! DEFINITION. Which commands a CMD word can hold: the operand that IMM carries fits its 16 bits
(spec/30_encoding.md R66, R67). -/

namespace Sys2Proof

/-- The operand that `IMM = CMD[31:16]` carries; 0 for an opcode whose IMM column is 0 (R67, R68). -/
def Instr.imm : Instr → Nat
  | .initStore => 0
  | .destroyStore => 0
  | .setKeys n => n
  | .getKeys max => max
  | .cleanKeys => 0
  | .keyValidate k => k
  | .saLookup => 0
  | .saAllocate => 0
  | .saRelease slot => slot
  | .saRead slot => slot
  | .pskDerive => 0
  | .ptkDerive => 0
  | .micCheck len => len
  | .wepDecrypt _ len => len
  | .tkipDecrypt _ len => len
  | .ccmpDecrypt _ len => len
  | .processPacket _ _ _ _ len => len

/-- A command is well formed when its IMM operand fits 16 bits, "always zero-extended, never sign-extended or scaled"
(R67). -/
def Instr.wellFormed (i : Instr) : Bool := decide (i.imm < 2 ^ 16)

end Sys2Proof
end

