-- ==== Sys2Proof/Decode.lean ====
section
/-! DEFINITION. The decoder and the encoder of the 32-bit command word (spec/30_encoding.md R66 to R72,
spec/opcode_table.json). -/

namespace Sys2Proof

/-- Why a word is no command (R70 steps 1 and 2). Both carry the OPC field, which STATUS.LAST_OPC records (R19, R199). -/
inductive DecodeError where
  /-- The OPC is in no row of R68: `ILLEGAL_COMMAND / BAD_OPCODE`. -/
  | badOpcode (opc : Byte)
  /-- The OPC has a row, but a reserved FLAGS bit is 1 or an IMM that must be 0 is not: `ILLEGAL_COMMAND / BAD_FIELD`. -/
  | badField (opc : Byte)
  deriving DecidableEq, Repr

/-- `OPC = v[7:0]` (R17, R66). -/
def opcField (w : Word) : Byte := w.extractLsb' 0 8

/-- `FLAGS = v[15:8]` (R17, R66). -/
def flagsField (w : Word) : Byte := w.extractLsb' 8 8

/-- `IMM = v[31:16]`, zero-extended (R17, R66, R67). -/
def immField (w : Word) : Nat := (w.extractLsb' 16 16).toNat

/-- FLAGS bit `k` is CMD bit `8 + k` (R69). -/
def flagBit (w : Word) (k : Nat) : Bool := (flagsField w).getLsbD k

/-- One row of spec/opcode_table.json: its fixed bits (`pattern` under `mask`, R71) and the command its fields make. -/
structure OpcodeRow where
  pattern : Word
  mask : Word
  build : Word → Instr

/-- The opcode table (R68), in the order of spec/opcode_table.json. -/
def opcodeRows : List OpcodeRow :=
  [ ⟨0x00000001, 0xFFFFFFFF, fun _ => .initStore⟩,
    ⟨0x00000002, 0xFFFFFFFF, fun _ => .destroyStore⟩,
    ⟨0x00000003, 0x0000FFFF, fun w => .setKeys (immField w)⟩,
    ⟨0x00000004, 0x0000FFFF, fun w => .getKeys (immField w)⟩,
    ⟨0x00000005, 0xFFFFFFFF, fun _ => .cleanKeys⟩,
    ⟨0x00000006, 0x0000FFFF, fun w => .keyValidate (immField w)⟩,
    ⟨0x00000010, 0xFFFFFFFF, fun _ => .saLookup⟩,
    ⟨0x00000011, 0xFFFFFFFF, fun _ => .saAllocate⟩,
    ⟨0x00000012, 0x0000FFFF, fun w => .saRelease (immField w)⟩,
    ⟨0x00000013, 0x0000FFFF, fun w => .saRead (immField w)⟩,
    ⟨0x00000020, 0xFFFFFFFF, fun _ => .pskDerive⟩,
    ⟨0x00000021, 0xFFFFFFFF, fun _ => .ptkDerive⟩,
    ⟨0x00000022, 0x0000FFFF, fun w => .micCheck (immField w)⟩,
    ⟨0x00000030, 0x0000FEFF, fun w => .wepDecrypt (flagBit w 0) (immField w)⟩,
    ⟨0x00000031, 0x0000FEFF, fun w => .tkipDecrypt (flagBit w 0) (immField w)⟩,
    ⟨0x00000032, 0x0000FEFF, fun w => .ccmpDecrypt (flagBit w 0) (immField w)⟩,
    ⟨0x00000040, 0x0000F0FF, fun w =>
      .processPacket (flagBit w 0) (flagBit w 1) (flagBit w 2) (flagBit w 3) (immField w)⟩ ]

/-- The row of an opcode; no two rows share an OPC (R71). -/
def rowOf (opc : Byte) : Option OpcodeRow := opcodeRows.find? fun r => opcField r.pattern == opc

/-- Decoding a CMD word: total, refusing by name (R70 steps 1 and 2, R71, R72). -/
def decodeWord (w : Word) : Except DecodeError Instr :=
  match rowOf (opcField w) with
  | none => .error (.badOpcode (opcField w))
  | some r => if w &&& r.mask = r.pattern then .ok (r.build w) else .error (.badField (opcField w))

/-- The instruction the decoder reads from the low `nbits` bits of `w` (every higher bit 0). A command is one 32-bit
word (R66), so the word's bits are numbered as spec/opcode_table.json numbers them. -/
def decodeTableWord (nbits w : Nat) : Option Instr :=
  (decodeWord (BitVec.ofNat 32 (w % 2 ^ nbits))).toOption

/-- The OPC of a command (R68). STATUS.LAST_OPC records it (R19). -/
def Instr.opcode : Instr → Byte
  | .initStore => 0x01
  | .destroyStore => 0x02
  | .setKeys _ => 0x03
  | .getKeys _ => 0x04
  | .cleanKeys => 0x05
  | .keyValidate _ => 0x06
  | .saLookup => 0x10
  | .saAllocate => 0x11
  | .saRelease _ => 0x12
  | .saRead _ => 0x13
  | .pskDerive => 0x20
  | .ptkDerive => 0x21
  | .micCheck _ => 0x22
  | .wepDecrypt _ _ => 0x30
  | .tkipDecrypt _ _ => 0x31
  | .ccmpDecrypt _ _ => 0x32
  | .processPacket _ _ _ _ _ => 0x40

/-- The FLAGS byte of a command (R69): every reserved bit 0. -/
def Instr.flags : Instr → Byte
  | .initStore => 0#8
  | .destroyStore => 0#8
  | .setKeys _ => 0#8
  | .getKeys _ => 0#8
  | .cleanKeys => 0#8
  | .keyValidate _ => 0#8
  | .saLookup => 0#8
  | .saAllocate => 0#8
  | .saRelease _ => 0#8
  | .saRead _ => 0#8
  | .pskDerive => 0#8
  | .ptkDerive => 0#8
  | .micCheck _ => 0#8
  | .wepDecrypt fcs _ => 0#7 ++ BitVec.ofBool fcs
  | .tkipDecrypt fcs _ => 0#7 ++ BitVec.ofBool fcs
  | .ccmpDecrypt fcs _ => 0#7 ++ BitVec.ofBool fcs
  | .processPacket fcs rt hs dec _ =>
      0#4 ++ BitVec.ofBool dec ++ BitVec.ofBool hs ++ BitVec.ofBool rt ++ BitVec.ofBool fcs

/-- The CMD word of a command: IMM, FLAGS, OPC from high to low (R66). -/
def encode (i : Instr) : Word := BitVec.ofNat 16 i.imm ++ i.flags ++ i.opcode

end Sys2Proof
end

