-- ==== Sys2Proof/Config.lean ====
section
/-! DEFINITION. What an implementation fixes (spec/00_scope.md R5) and the free values (spec/93_implementation_defined.md,
treatments "any value" and "parameter"). -/

namespace Sys2Proof

/-- The parameters of R5 that the spec lets a model take as arguments. They stand in the state, so that a statement about
every state is a statement about every admitted parameter (log 7). No step changes them. -/
structure Params where
  /-- `SA_CAP`, number of SA slots, 1..65535 admitted (R5, U11). -/
  saCap : Nat
  /-- `KEYS_MAX`, capacity of the key collection, 1..64 admitted (R5, U12). -/
  keysMax : Nat
  /-- `MIN_CT_LEN`, OPEN: any natural number (R5, U10, D39). -/
  minCtLen : Nat
  /-- `REPLAY_IMPL`: whether the CCMP replay option exists (R5, U13, log 12). -/
  replayImpl : Bool
  deriving DecidableEq, Repr

/-- The OPEN parameter `MIN_CT_LEN` of the machine after reset (R5, R25, D39): no value is known. -/
opaque Config.minCtLen : Nat

/-- The value this hardware takes for every parameter that is not OPEN (R5, third column). -/
def Params.hardware : Params where
  saCap := 256
  keysMax := 64
  minCtLen := Config.minCtLen
  replayImpl := true

/-- What a buffer byte at a host-window offset reads as when nothing has written it since draw number `d` (R43, R213,
U1, U3): an oracle draw, "fixed once drawn". First argument the draw, second the offset (log 3). -/
opaque Config.freeByte : Nat → Nat → Byte

/-- `FRAME_BUF_LEN` (R5, D40). -/
abbrev Config.frameBufLen : Nat := 4096

/-- `PREAMBLE_LEN` (R5, D17). -/
abbrev Config.preambleLen : Nat := 24

/-- `KEY_REC_LEN` (R5, R77). -/
abbrev Config.keyRecLen : Nat := 144

/-- `PTK_BITS` (R5, R130). -/
abbrev Config.ptkBits : Nat := 512

/-- `PSK_ITER` (R5, R125). -/
abbrev Config.pskIter : Nat := 4096

/-- The size of PARAM and of RESULT (R43, R52). -/
abbrev Config.paramLen : Nat := 256

/-- The VERSION field of the ID register, "command set version 1" (R24). -/
abbrev Config.version : Byte := 0x01#8

end Sys2Proof
end

