-- ==== Sys2Proof/Machine/State.lean ====
section
/-! DEFINITION. The state of the engine (spec/10_state.md R13 to R45) and its value after reset
(spec/70_reset_and_hazards.md R212), the reasons a step can stop, and the host's accesses. -/

namespace Sys2Proof.Machine

/-- `n` zero bytes (R7). -/
def zeros (n : Nat) : Bytes := List.replicate n 0#8

/-- An SA id: the pair (BSSID, station MAC), 6 bytes each (R12, R30, R92). Its order matters. -/
structure SaId where
  bssid : Bytes
  sta : Bytes
  deriving DecidableEq, Repr

/-- The handshake stage `STAGE` (R32). Its legal values are 0, 1, 2 and 4; the others never occur. -/
inductive Stage where
  /-- 0, no handshake. -/
  | none
  /-- 1, message 1 seen. -/
  | msg1
  /-- 2, message 2 verified. -/
  | msg2
  /-- 4, message 4 seen. -/
  | msg4
  deriving DecidableEq, Repr

/-- One slot of the SA table (R28). -/
structure SaSlot where
  /-- `USED` (R29). -/
  used : Bool
  /-- `BSSID`, 6 bytes (R30). -/
  bssid : Bytes
  /-- `STA`, 6 bytes (R30). -/
  sta : Bytes
  /-- `CK_VALID` (R31). -/
  ckValid : Bool
  /-- `CK_INDEX`, 8 bits (R31). -/
  ckIndex : Byte
  /-- `STAGE` (R32). -/
  stage : Stage
  /-- `VALID_KEY` (R33). -/
  validKey : Bool
  /-- `KEY_VER`, 3 bits (R34). -/
  keyVer : BitVec 3
  /-- `PN`, 48 bits (R37). -/
  pn : BitVec 48
  /-- `PN_VALID` (R37). -/
  pnValid : Bool
  /-- `ANONCE`, 32 bytes (R35). -/
  anonce : Bytes
  /-- `PTK`, 64 bytes (R36). -/
  ptk : Bytes
  deriving DecidableEq, Repr

/-- Every field of a slot at its reset value (R28, R93). -/
def SaSlot.zero : SaSlot where
  used := false
  bssid := zeros 6
  sta := zeros 6
  ckValid := false
  ckIndex := 0
  stage := .none
  validKey := false
  keyVer := 0
  pn := 0
  pnValid := false
  anonce := zeros 32
  ptk := zeros 64

/-- The SA store: the table and its two bookkeeping integers (R38, R39, R91). -/
structure SaStore where
  /-- `SA[0 .. SA_CAP-1]` (R28). -/
  slots : List SaSlot
  /-- `FFI`, 0..SA_CAP (R38). -/
  ffi : Nat
  /-- `LSI`, -1..SA_CAP-1 (R39). -/
  lsi : Int
  deriving DecidableEq, Repr

/-- The store after `StoreReset` (R100): every slot zero, FFI = 0, LSI = -1. -/
def SaStore.empty (cap : Nat) : SaStore where
  slots := List.replicate cap SaSlot.zero
  ffi := 0
  lsi := -1

/-- The TAG of a normalized key entry (R77, R113): a normalized record never has TAG 2 or 3. -/
inductive KeyKind where
  /-- TAG 1, a WEP key. -/
  | wep
  /-- TAG 4, a WPA passphrase. -/
  | wpaPwd
  /-- TAG 5, a WPA PSK. -/
  | wpaPsk
  /-- TAG 6, a WPA PMK. -/
  | wpaPmk
  deriving DecidableEq, Repr

/-- A normalized key entry: the fields of the 144-byte record of R77. Its reserved bytes are written 0 (R77, R115) and so
are not held. -/
structure KeyEntry where
  kind : KeyKind
  /-- `KEY_LEN`. -/
  keyLen : Byte
  /-- `PASS_LEN`. -/
  passLen : Byte
  /-- `SSID_LEN`. -/
  ssidLen : Byte
  /-- `KEY`, 32 bytes. -/
  key : Bytes
  /-- `PASS`, 64 bytes. -/
  pass : Bytes
  /-- `SSID`, 32 bytes. -/
  ssid : Bytes
  deriving DecidableEq, Repr

/-- The written bytes of the six buffers, by host-window offset (R43, R52). An unlisted byte holds no written value;
what it reads as is `State.unlisted` of Machine/Ops.lean (log 3). -/
abbrev Memory := List Host.Cell

/-- The canonical form: offsets strictly rising. An unlisted offset holds no value, so no entry can equal what it reads
as. -/
abbrev Memory.wf (m : Memory) : Prop := m.Pairwise fun c d => c.1 < d.1

/-- One access of the host, or the platform's reset input (R55, R56, R73, R211). -/
inductive HostAccess where
  /-- `RD8 off`. -/
  | rd8 (off : Nat)
  /-- `RD32 off`. -/
  | rd32 (off : Nat)
  /-- `WR8 off, v`. -/
  | wr8 (off : Nat) (v : Byte)
  /-- `WR32 off, v`. A write to offset 0x000 is a command (R17). -/
  | wr32 (off : Nat) (v : Word)
  /-- An access of `bits` bits, neither 8 nor 32 (R55). -/
  | otherWidth (bits off : Nat)
  /-- The platform's reset input (R211). -/
  | reset
  deriving DecidableEq, Repr

/-- The state of the engine, with the host's pending accesses. -/
structure State where
  /-- The parameters, fixed for the whole run (R5; log 7). -/
  params : Params
  /-- CMD, the last value written (R17). -/
  cmd : Word
  /-- ARG0 (R18). -/
  arg0 : Word
  /-- STATUS (R19). -/
  status : Word
  /-- RES0 (R20). -/
  res0 : Word
  /-- RES1 (R21). -/
  res1 : Word
  /-- OUT_LEN (R22). -/
  outLen : Word
  /-- CTRL (R23). -/
  ctrl : Word
  /-- The SA table with FFI and LSI (R28, R38, R39). -/
  store : SaStore
  /-- The live entries `KEY[0 .. KEYS_NR-1]`; KEYS_NR is the list's length (R41; log 6). -/
  keys : List KeyEntry
  /-- The bytes of the six buffers that a host or an engine write has written since reset (R43). -/
  mem : Memory
  /-- The model's own: the draw that unwritten bytes of every buffer but FRAME_OUT read (log 3, log 15). -/
  bufDraw : Nat
  /-- The model's own: the draw that unwritten bytes of FRAME_OUT read (log 4, log 15). -/
  outDraw : Nat
  /-- The model's own: the host's accesses still to come, the next one first (log 1). -/
  host : List HostAccess
  /-- The model's own: the value the last host read returned, an 8-bit value zero-extended (log 2). -/
  hostData : Option Word
  deriving DecidableEq, Repr

/-- Why a step stops with a fault. No constructor: "The engine raises no exceptions and takes no traps" (R197, log 14).
Nobody raises one, which is safe: no behaviour is cut off. -/
inductive Fault where
  deriving DecidableEq, Repr

/-- Why a step is refused. -/
inductive Refusal where
  /-- An instruction that has no meaning yet; raised by `exec`'s refused arms alone (there are none). Safe: the run stops. -/
  | notModelled (mnemonic : String)
  /-- A host access of a width other than 8 or 32 bits (R55, U4); raised by `hostAccess`. Safe: the spec gives it no meaning. -/
  | accessWidth (bits : Nat)
  /-- A 32-bit host access that is not 4-byte aligned (R54, R55, U4); raised by `hostAccess`. Safe: as above. -/
  | accessMisaligned (off : Nat)
  /-- An 8-bit host access at a register offset (R55, U4); raised by `hostAccess`. Safe: as above. -/
  | accessByteRegister (off : Nat)
  /-- A host access outside 0x0000..0xFFFF (R55, U4); raised by `hostAccess`. Safe: as above. -/
  | accessOutsideWindow (off : Nat)
  deriving DecidableEq, Repr

/-- The machine right after reset (R212, R214). The four fields that are the model's own, and the parameters, are the
subject of logs 1, 2, 7 and 15. -/
def State.reset : State where
  params := Params.hardware
  cmd := 0
  arg0 := 0
  status := 0
  res0 := 0
  res1 := 0
  outLen := 0
  ctrl := 0
  store := SaStore.empty Params.hardware.saCap
  keys := []
  mem := []
  bufDraw := 0
  outDraw := 0
  host := []
  hostData := none

end Sys2Proof.Machine
end

