-- ==== Sys2Proof/Machine/Bytes.lean ====
section
/-! DEFINITION. Byte-string operators and byte orders (spec/00_scope.md R7, R8; spec/20_memory.md R49). -/

namespace Sys2Proof.Machine

/-- `B[i]`. Every rule reads inside the string; past its end this answers 0 (log 18). -/
def byteAt (B : Bytes) (i : Nat) : Byte := B.getD i 0#8

/-- `B[o +: n]`, the `n` bytes from offset `o` (R7). -/
def slice (B : Bytes) (o n : Nat) : Bytes := (B.drop o).take n

/-- `B` with `v` written from offset `o` (R9, the form `B[o +: n] <- v`). -/
def overwrite (B : Bytes) (o : Nat) (v : Bytes) : Bytes := B.take o ++ v ++ B.drop (o + v.length)

/-- `⊕` on byte strings of equal length (R8). -/
def xorBytes (A B : Bytes) : Bytes := List.zipWith (· ^^^ ·) A B

/-- `BE16(B, o)` as 16 bits (R8). -/
def be16 (B : Bytes) (o : Nat) : Half := byteAt B o ++ byteAt B (o + 1)

/-- `LE32(B, o)`, four bytes, the least significant first (R49, R82). -/
def le32 (B : Bytes) (o : Nat) : Word :=
  byteAt B (o + 3) ++ byteAt B (o + 2) ++ byteAt B (o + 1) ++ byteAt B o

/-- `BE32` of four bytes from offset `o`, the most significant first. -/
def be32 (B : Bytes) (o : Nat) : Word :=
  byteAt B o ++ byteAt B (o + 1) ++ byteAt B (o + 2) ++ byteAt B (o + 3)

/-- `LE48(B; i0, ..., i5)`, the six named positions, the least significant first (R8). -/
def le48 (B : Bytes) (i0 i1 i2 i3 i4 i5 : Nat) : BitVec 48 :=
  byteAt B i5 ++ byteAt B i4 ++ byteAt B i3 ++ byteAt B i2 ++ byteAt B i1 ++ byteAt B i0

/-- A 16-bit number, most significant byte first. -/
def be16Bytes (v : Half) : Bytes := [v.extractLsb' 8 8, v.extractLsb' 0 8]

/-- `BE32(i)`, most significant byte first (R125). -/
def be32Bytes (v : Word) : Bytes :=
  [v.extractLsb' 24 8, v.extractLsb' 16 8, v.extractLsb' 8 8, v.extractLsb' 0 8]

/-- `LE32(v)`, least significant byte first (R150, R153). -/
def le32Bytes (v : Word) : Bytes :=
  [v.extractLsb' 0 8, v.extractLsb' 8 8, v.extractLsb' 16 8, v.extractLsb' 24 8]

/-- The six bytes of a 48-bit number, least significant first (R50, R78). -/
def le48Bytes (v : BitVec 48) : Bytes :=
  [v.extractLsb' 0 8, v.extractLsb' 8 8, v.extractLsb' 16 8, v.extractLsb' 24 8, v.extractLsb' 32 8,
    v.extractLsb' 40 8]

/-- `BE48(PN)`, most significant byte first (R162). -/
def be48Bytes (v : BitVec 48) : Bytes :=
  [v.extractLsb' 40 8, v.extractLsb' 32 8, v.extractLsb' 24 8, v.extractLsb' 16 8, v.extractLsb' 8 8,
    v.extractLsb' 0 8]

/-- `A <lex B`: byte by byte from offset 0 as unsigned bytes, the first differing byte decides (R8). -/
def lexLt : Bytes → Bytes → Bool
  | a :: A, b :: B => if a = b then lexLt A B else a.ult b
  | _, _ => false

/-- `min_lex(A, B)` (R8). -/
def minLex (A B : Bytes) : Bytes := if lexLt A B then A else B

/-- `max_lex(A, B)`, the other one (R8). -/
def maxLex (A B : Bytes) : Bytes := if lexLt A B then B else A

/-- One bit as a byte of a record: 0 or 1 (R78). -/
def bitByte (b : Bool) : Byte := if b then 1#8 else 0#8

end Sys2Proof.Machine
end

