-- ==== Sys2Proof/Machine/Flags.lean ====
section
/-! DEFINITION. The status fields: outcome and reason codes, the STATUS, RES1 and ID words, the Key Information bits and the
message classes (spec/10_state.md R19, R21, R24; spec/30_encoding.md R74, R75, R88, R90). The engine has no condition codes
(R27). -/

namespace Sys2Proof.Machine

/-- The outcomes a command can write (R74). NONE (0x00) is written by reset only and so is not here. -/
inductive OutcomeCode where
  | ok
  | handshakeStepOk
  | notData
  | tooShort
  | requiredDataMissing
  | noValidHandshake
  | noDataEncrypted
  | unsuccessful
  | storeFull
  | invalidKey
  | icvMismatch
  | micMismatch
  | illegalCommand
  deriving DecidableEq, Repr

/-- `STATUS.OUTCOME` (R74). -/
def outcomeByte : OutcomeCode → Byte
  | .ok => 0x01
  | .handshakeStepOk => 0x02
  | .notData => 0x03
  | .tooShort => 0x04
  | .requiredDataMissing => 0x05
  | .noValidHandshake => 0x06
  | .noDataEncrypted => 0x07
  | .unsuccessful => 0x08
  | .storeFull => 0x09
  | .invalidKey => 0x0A
  | .icvMismatch => 0x0B
  | .micMismatch => 0x0C
  | .illegalCommand => 0x0F

/-- The reasons (R75). -/
inductive ReasonCode where
  | none
  | icvMismatch
  | micMismatch
  | wrongDataSize
  | storeFull
  | invalidKey
  | noCachedKey
  | noKey
  | keyNotValid
  | replay
  | duplicateId
  | badOpcode
  | badField
  | badIndex
  | badDescriptor
  | notPairwise
  deriving DecidableEq, Repr

/-- `STATUS.REASON` (R75). -/
def reasonByte : ReasonCode → Byte
  | .none => 0x00
  | .icvMismatch => 0x01
  | .micMismatch => 0x02
  | .wrongDataSize => 0x03
  | .storeFull => 0x04
  | .invalidKey => 0x05
  | .noCachedKey => 0x06
  | .noKey => 0x07
  | .keyNotValid => 0x08
  | .replay => 0x09
  | .duplicateId => 0x0A
  | .badOpcode => 0x0B
  | .badField => 0x0C
  | .badIndex => 0x0D
  | .badDescriptor => 0x0E
  | .notPairwise => 0x0F

/-- The STATUS word at the end of a command (R19): LAST_OPC, bits 23:18 zero, BUSY = 0, DONE = 1, REASON, OUTCOME. -/
def statusWord (opc : Byte) (o : OutcomeCode) (r : ReasonCode) : Word :=
  opc ++ 0#6 ++ 0#1 ++ 1#1 ++ reasonByte r ++ outcomeByte o

/-- `STATUS.OUTCOME` (R19). -/
def statusOutcome (w : Word) : Byte := w.extractLsb' 0 8

/-- `STATUS.REASON` (R19). -/
def statusReason (w : Word) : Byte := w.extractLsb' 8 8

/-- `STATUS.DONE` (R19). -/
def statusDone (w : Word) : Bool := w.getLsbD 16

/-- `STATUS.BUSY` (R19). -/
def statusBusy (w : Word) : Bool := w.getLsbD 17

/-- `STATUS.LAST_OPC` (R19). -/
def statusLastOpc (w : Word) : Byte := w.extractLsb' 24 8

/-- The CIPHER field of RES1 (R21): the pipeline that produced a Decrypted outcome. -/
inductive Cipher where
  | none
  | wep
  | tkip
  | ccmp
  deriving DecidableEq, Repr

/-- The code of the CIPHER field (R21). -/
def cipherBits : Cipher → BitVec 3
  | .none => 0
  | .wep => 1
  | .tkip => 2
  | .ccmp => 3

/-- The fields of RES1 (R21). -/
structure Res1 where
  keyIndex : Byte
  keyValid : Bool
  cipher : Cipher
  hsMsg : BitVec 4
  deriving DecidableEq, Repr

/-- RES1 with no field written (R76, R146). -/
def Res1.zero : Res1 := ⟨0, false, .none, 0⟩

/-- The RES1 word (R21): bits 31:16 zero. -/
def res1Word (r : Res1) : Word := 0#16 ++ r.hsMsg ++ cipherBits r.cipher ++ BitVec.ofBool r.keyValid ++ r.keyIndex

/-- The ID register (R24): VERSION, KEYS_MAX, SA_CAP. -/
def idWord (p : Params) : Word := Config.version ++ BitVec.ofNat 8 p.keysMax ++ BitVec.ofNat 16 p.saCap

/-- The MINCT register (R25), the low 32 bits of MIN_CT_LEN (log 8). -/
def minctWord (p : Params) : Word := BitVec.ofNat 32 p.minCtLen

/-- The code of a stage (R32): 0, 1, 2 or 4. -/
def stageByte : Stage → Byte
  | .none => 0
  | .msg1 => 1
  | .msg2 => 2
  | .msg4 => 4

/-- The TAG of a normalized entry (R77, R113). -/
def kindByte : KeyKind → Byte
  | .wep => 1
  | .wpaPwd => 4
  | .wpaPsk => 5
  | .wpaPmk => 6

/-- `VER`, Key Information bits 2:0 (R88). -/
def kiVersion (ki : Half) : BitVec 3 := ki.extractLsb' 0 3

/-- `PAIRWISE`, bit 3 (R88). -/
def kiPairwise (ki : Half) : Bool := ki.getLsbD 3

/-- `INSTALL`, bit 6 (R88). -/
def kiInstall (ki : Half) : Bool := ki.getLsbD 6

/-- `ACK`, bit 7 (R88). -/
def kiAck (ki : Half) : Bool := ki.getLsbD 7

/-- `MIC`, bit 8 (R88). -/
def kiMic (ki : Half) : Bool := ki.getLsbD 8

/-- `SECURE`, bit 9 (R88). -/
def kiSecure (ki : Half) : Bool := ki.getLsbD 9

/-- The classes of a pairwise EAPOL-Key body (R90). -/
inductive MsgClass where
  | msg1
  | msg2
  | msg3
  | msg4
  | notShape
  deriving DecidableEq, Repr

/-- The classification table, its rows tested in order, the first match wins (R90). -/
def classify (install ack mic secure : Bool) (kdl : Nat) : MsgClass :=
  if !install && ack && !mic then .msg1
  else if !install && !ack && mic && !secure && kdl != 0 then .msg2
  else if !install && !ack && mic && !secure && kdl == 0 then .msg4
  else if !ack && mic && secure then .msg4
  else if ack && mic then .msg3
  else .notShape

end Sys2Proof.Machine
end

