-- ==== Sys2Proof/Machine/Ops.lean ====
section
/-! DEFINITION. The named operations over buffers and registers, the end of a command, and reset (spec/00_scope.md R9;
spec/20_memory.md R46 to R64; spec/30_encoding.md R70, R76; spec/70_reset_and_hazards.md R214). Every access to a
buffer byte goes through `State.readByte`, `State.memWrite` or `State.putFrameOut`. -/

namespace Sys2Proof.Machine

/-- The six buffers (R43, R52). -/
inductive Buffer where
  | frameIn
  | frameOut
  | keyStage
  | keyOut
  | param
  | result
  deriving DecidableEq, Repr

/-- The host-window offset of a buffer's first byte (R52). -/
def Buffer.base : Buffer → Nat
  | .frameIn => 0x1000
  | .frameOut => 0x2000
  | .keyStage => 0x3000
  | .keyOut => 0x6000
  | .param => 0x9000
  | .result => 0x9100

/-- The size of a buffer (R43, R52). -/
def Buffer.size (p : Params) : Buffer → Nat
  | .frameIn => Config.frameBufLen
  | .frameOut => Config.frameBufLen
  | .keyStage => Config.keyRecLen * p.keysMax
  | .keyOut => Config.keyRecLen * p.keysMax
  | .param => Config.paramLen
  | .result => Config.paramLen

/-- Whether the host may write a buffer (R43, R52). -/
def Buffer.hostWritable : Buffer → Bool
  | .frameIn => true
  | .frameOut => false
  | .keyStage => true
  | .keyOut => false
  | .param => true
  | .result => false

/-- The written value of a byte, if any. -/
def Memory.get? : Memory → Nat → Option Byte
  | [], _ => none
  | (a, b) :: m, x => if a = x then some b else Memory.get? m x

/-- The cells of a byte string written from offset `a` upward. -/
def cellsFrom : Nat → Bytes → Memory
  | _, [] => []
  | a, b :: bs => (a, b) :: cellsFrom (a + 1) bs

/-- The memory with the offsets from `lo` up to `max hi (lo + |bs|)` replaced: `bs` from `lo` upward, nothing written in
the rest. -/
def Memory.splice (m : Memory) (lo hi : Nat) (bs : Bytes) : Memory :=
  m.filter (fun c => c.1 < lo) ++ cellsFrom lo bs ++ m.filter (fun c => max hi (lo + bs.length) ≤ c.1)

/-- Whether an offset lies in FRAME_OUT (R52). -/
def inFrameOut (a : Nat) : Bool := decide (0x2000 ≤ a ∧ a < 0x3000)

/-- What an unlisted byte reads as: an arbitrary value, the same at every read of one draw (R43, R213, U1, U3; log 3). -/
def State.unlisted (s : State) (a : Nat) : Byte :=
  Config.freeByte (if inFrameOut a then s.outDraw else s.bufDraw) a

/-- The buffer byte at a host-window offset. -/
def State.readByte (s : State) (a : Nat) : Byte := (Memory.get? s.mem a).getD (s.unlisted a)

/-- `n` bytes from a host-window offset. -/
def State.readBytes (s : State) (a n : Nat) : Bytes := (List.range n).map fun i => s.readByte (a + i)

/-- `MemRead(space, o, n)` (R9, R53). -/
def State.memRead (s : State) (b : Buffer) (o n : Nat) : Bytes := s.readBytes (b.base + o) n

/-- `MemWrite(space, o, n, v)` with `n = |v|` (R9, R53). -/
def State.memWrite (s : State) (b : Buffer) (o : Nat) (v : Bytes) : State :=
  { s with mem := Memory.splice s.mem (b.base + o) (b.base + o) v }

/-- FRAME_OUT after a frame command that ran: the bytes of `out` from offset 0, and "any value" in every byte above them
(R64, R150, U3; log 4). `out` is empty after a failure. -/
def State.putFrameOut (s : State) (out : Bytes) : State :=
  { s with
    mem := Memory.splice s.mem (Buffer.base .frameOut) (Buffer.base .keyStage) (out.take Config.frameBufLen)
    outDraw := s.outDraw + 1 }

/-- The SA store replaced (R95). -/
def State.withStore (s : State) (st : SaStore) : State := { s with store := st }

/-- The key collection replaced (R42). -/
def State.withKeys (s : State) (ks : List KeyEntry) : State := { s with keys := ks }

/-- KEYS_NR (R41). -/
def State.keysNr (s : State) : Nat := s.keys.length

/-- `finish(OUTCOME, REASON)` (R9): the end of a command and the engine's only error mechanism, where another machine
would take an exception (R197). It writes all four result registers (R76). -/
def State.finish (s : State) (opc : Byte) (o : OutcomeCode) (r : ReasonCode) (res0 res1 outLen : Word) : State :=
  { s with status := statusWord opc o r, res0 := res0, res1 := res1, outLen := outLen }

/-- An illegal command: the result registers and nothing else (R70, R199). -/
def State.illegal (s : State) (opc : Byte) (r : ReasonCode) : State := s.finish opc .illegalCommand r 0 0 0

/-- The end of a frame command that ran: FRAME_OUT as `State.putFrameOut` says, OUT_LEN the number of its valid bytes
(R22, R64, R150). -/
def State.finishFrame (s : State) (opc : Byte) (o : OutcomeCode) (r : ReasonCode) (res0 : Word) (res1 : Res1)
    (out : Bytes) : State :=
  (s.putFrameOut out).finish opc o r res0 (res1Word res1) (BitVec.ofNat 32 out.length)

/-- `CTRL.REPLAY_EN`, where the option exists (R5, R23; log 12). -/
def State.replayEn (s : State) : Bool := s.params.replayImpl && s.ctrl.getLsbD 0

/-- The value RES0 holds for "no SA" (R106, R107, R193). -/
def noSlot : Word := 0xFFFFFFFF

/-- The reset sequence (R214), with every buffer byte unspecified again (R43, R212; log 5). The parameters are fixed for the
run, and the host's further accesses are not the engine's state. -/
def State.platformReset (s : State) : State :=
  { State.reset with
    params := s.params
    store := SaStore.empty s.params.saCap
    bufDraw := s.bufDraw + 1
    outDraw := s.outDraw + 1
    host := s.host
    hostData := s.hostData }

end Sys2Proof.Machine
end

