-- ==== Sys2Proof/Machine/Operands.lean ====
section
/-! DEFINITION. Where operands come from: the ARG0 fields, the PARAM and KEY_STAGE layouts (spec/30_encoding.md R79), and
the fields of a frame (R80 to R90). Every frame helper reads only its arguments. -/

namespace Sys2Proof.Machine

/-- `NBITS = ARG0[15:0]` of PTK_DERIVE (R18). -/
def State.nbits (s : State) : Nat := (s.arg0.extractLsb' 0 16).toNat

/-- PTK_DERIVE's reserved `ARG0[31:16]` is 0 (R18, R70). -/
def State.nbitsReservedZero (s : State) : Bool := s.arg0.extractLsb' 16 16 == 0

/-- `VER = ARG0[2:0]` of MIC_CHECK (R18). -/
def State.verOperand (s : State) : BitVec 3 := s.arg0.extractLsb' 0 3

/-- MIC_CHECK's reserved `ARG0[31:3]` is 0 (R18, R70). -/
def State.verReservedZero (s : State) : Bool := s.arg0.extractLsb' 3 29 == 0

/-- `HDR_LEN = ARG0[7:0]` of the standalone pipelines (R18). -/
def State.hdrLenOperand (s : State) : Nat := (s.arg0.extractLsb' 0 8).toNat

/-- The standalone pipelines' reserved `ARG0[31:8]` is 0 (R18, R70). -/
def State.hdrLenReservedZero (s : State) : Bool := s.arg0.extractLsb' 8 24 == 0

/-- `PARAM[o +: n]` (R53, R79). -/
def State.param (s : State) (o n : Nat) : Bytes := s.memRead .param o n

/-- The id operand of SA_LOOKUP and SA_ALLOCATE (R79): BSSID in PARAM[0..5], STA in PARAM[6..11]. -/
def State.paramId (s : State) : SaId := ⟨s.param 0 6, s.param 6 6⟩

/-- `PARAM[o]` as a length (R79). -/
def State.paramLength (s : State) (o : Nat) : Nat := (s.readByte (Buffer.base .param + o)).toNat

/-- `IN[o +: n]` (R53). -/
def State.frameIn (s : State) (o n : Nat) : Bytes := s.memRead .frameIn o n

/-- `STAGE_REC(k)`, the 144 bytes of staged record `k` (R53). -/
def State.stageRec (s : State) (k : Nat) : Bytes := s.memRead .keyStage (Config.keyRecLen * k) Config.keyRecLen

/-- The frame type `F[0][3:2]` (R80). -/
def frameType (F : Bytes) : BitVec 2 := (byteAt F 0).extractLsb' 2 2

/-- `DS = F[1][1:0]`: bit 0 To DS, bit 1 From DS (R81). -/
def frameDs (F : Bytes) : BitVec 2 := (byteAt F 1).extractLsb' 0 2

/-- The Protected bit `F[1][6]` (R80). -/
def frameProtected (F : Bytes) : Bool := (byteAt F 1).getLsbD 6

/-- `QOS`: a data frame with `F[0][7] = 1` (R81). -/
def frameQos (F : Bytes) : Bool := frameType F == 2 && (byteAt F 0).getLsbD 7

/-- `HdrLen(F)` (R81). -/
def hdrLen (F : Bytes) : Nat := 24 + (if frameDs F = 3 then 6 else 0) + (if frameQos F then 2 else 0)

/-- Address 1 (R81). -/
def addr1 (F : Bytes) : Bytes := slice F 4 6

/-- Address 2 (R81). -/
def addr2 (F : Bytes) : Bytes := slice F 10 6

/-- Address 3 (R81). -/
def addr3 (F : Bytes) : Bytes := slice F 16 6

/-- Address 4, present only when DS = 3 (R81). -/
def addr4 (F : Bytes) : Bytes := slice F 24 6

/-- Byte 0 of the QoS Control field, present only when QOS (R81). -/
def qosByte (F : Bytes) : Byte := if frameDs F = 3 then byteAt F 30 else byteAt F 24

/-- Address selection (R81, R178): the SA id, or nothing when it cannot be determined (DS = 3). -/
def frameId (F : Bytes) : Option SaId :=
  if frameDs F = 0 then some ⟨addr3 F, addr2 F⟩
  else if frameDs F = 1 then some ⟨addr1 F, addr2 F⟩
  else if frameDs F = 2 then some ⟨addr2 F, addr1 F⟩
  else none

/-- Extended IV, bit 5 of the KeyID octet of the cipher header at `h` (R82, R84). -/
def extIv (F : Bytes) (h : Nat) : Bool := (byteAt F (h + 3)).getLsbD 5

/-- `IV16 = mk16(TSC1, TSC0)` of the TKIP header at `h` (R82). -/
def tkipIv16 (W : Bytes) (h : Nat) : Half := byteAt W h ++ byteAt W (h + 2)

/-- `IV32` of the TKIP header at `h` (R82). -/
def tkipIv32 (W : Bytes) (h : Nat) : Word := le32 W (h + 4)

/-- The CCMP packet number of the header at `h` (R83). -/
def ccmpPn (W : Bytes) (h : Nat) : BitVec 48 := le48 W h (h + 1) (h + 4) (h + 5) (h + 6) (h + 7)

/-- The LLC/SNAP signature of an 802.1X payload (R85). -/
def eapolSignature : Bytes := [0xAA, 0xAA, 0x03, 0x00, 0x00, 0x00, 0x88, 0x8E]

/-- `BLEN = BE16(E, 2)` (R86). -/
def eapolBodyLen (E : Bytes) : Nat := (be16 E 2).toNat

/-- The packet type `E[1]` (R86). -/
def eapolType (E : Bytes) : Byte := byteAt E 1

/-- The EAPOL-Key body `K = E[4 +: BLEN]` (R86, R137). -/
def keyBody (E : Bytes) (blen : Nat) : Bytes := slice E 4 blen

/-- The descriptor type `K[0]` (R87). -/
def descriptorType (K : Bytes) : Byte := byteAt K 0

/-- `KI = BE16(K, 1)` (R87). -/
def keyInfo (K : Bytes) : Half := be16 K 1

/-- The Key Nonce `K[13 +: 32]` (R87). -/
def keyNonce (K : Bytes) : Bytes := slice K 13 32

/-- The Key MIC `K[77 +: 16]` (R87). -/
def keyMic (K : Bytes) : Bytes := slice K 77 16

/-- `KDL = BE16(K, 93)` (R87). -/
def keyDataLen (K : Bytes) : Nat := (be16 K 93).toNat

end Sys2Proof.Machine
end

