-- ==== Sys2Proof/Machine/HostWindow.lean ====
section
/-! DEFINITION. The host window: the register file, the buffers and the reserved offsets as the host reaches them
(spec/10_state.md R16 to R26; spec/20_memory.md R46, R47, R52 to R56). -/

namespace Sys2Proof.Machine

/-- What lies at a host-window offset (R52). -/
inductive Region where
  /-- 0x0000..0x0FFF: the ten registers and the reserved register offsets (R16, R26). -/
  | register
  /-- A byte of a buffer. -/
  | buffer (b : Buffer)
  /-- The reserved rest of the window: reads 0, ignores writes. -/
  | reserved
  /-- Beyond 0xFFFF. -/
  | outside
  deriving DecidableEq, Repr

/-- The buffers of the window, in the order of R52. -/
def allBuffers : List Buffer := [.frameIn, .frameOut, .keyStage, .keyOut, .param, .result]

/-- Whether offset `a` is a byte of buffer `b` (R52). -/
def Buffer.contains (p : Params) (b : Buffer) (a : Nat) : Bool := decide (b.base ≤ a ∧ a < b.base + b.size p)

/-- The host window map (R52). -/
def regionOf (p : Params) (a : Nat) : Region :=
  if 0x10000 ≤ a then .outside
  else if a < 0x1000 then .register
  else
    match allBuffers.find? fun b => b.contains p a with
    | some b => .buffer b
    | none => .reserved

/-- The value of a register read (R16 to R26); a reserved offset reads 0. No read has a side effect (R56). -/
def State.readRegister (s : State) (off : Nat) : Word :=
  if off = 0x000 then s.cmd
  else if off = 0x004 then s.arg0
  else if off = 0x00C then s.status
  else if off = 0x010 then s.res0
  else if off = 0x014 then s.res1
  else if off = 0x018 then s.outLen
  else if off = 0x01C then s.ctrl
  else if off = 0x020 then idWord s.params
  else if off = 0x024 then minctWord s.params
  else 0

/-- A register write other than CMD (R16, R18, R23, R26): ARG0 stores, CTRL keeps bit 0, every other offset ignores it. -/
def State.writeRegister (s : State) (off : Nat) (v : Word) : State :=
  if off = 0x004 then { s with arg0 := v }
  else if off = 0x01C then { s with ctrl := v &&& 1 }
  else s

/-- The byte a host read sees (R52). -/
def State.hostByte (s : State) (a : Nat) : Byte :=
  match regionOf s.params a with
  | .buffer _ => s.readByte a
  | .register => 0
  | .reserved => 0
  | .outside => 0

/-- The little-endian word a host read sees at an aligned offset outside the registers (R47). -/
def State.hostWord (s : State) (a : Nat) : Word :=
  s.hostByte (a + 3) ++ s.hostByte (a + 2) ++ s.hostByte (a + 1) ++ s.hostByte a

/-- A host write of `v` from offset `a` upward, outside the registers (R43, R52): stored in a buffer the host may write,
ignored elsewhere. -/
def State.hostStore (s : State) (a : Nat) (v : Bytes) : State :=
  match regionOf s.params a with
  | .buffer b => if b.hostWritable then s.memWrite b (a - b.base) v else s
  | .register => s
  | .reserved => s
  | .outside => s

/-- What a host access comes to, before any command runs. -/
inductive AccessEffect where
  /-- The access is over. -/
  | done (s : State)
  /-- A CMD write: the word is stored, and the command is to run (R17). -/
  | command (w : Word) (s : State)
  /-- The access is outside the model; no part of it was performed (R55, U4). -/
  | refused (r : Refusal)
  deriving DecidableEq, Repr

/-- A read that returned `v` (log 2). -/
def State.returned (s : State) (v : Word) : AccessEffect := .done { s with hostData := some v }

/-- Legal widths, alignments and places of a host access (R54, R55): nothing, or the refusal. -/
def accessRefusal (p : Params) : HostAccess → Option Refusal
  | .rd8 off | .wr8 off _ =>
    match regionOf p off with
    | .outside => some (.accessOutsideWindow off)
    | .register => some (.accessByteRegister off)
    | .buffer _ => none
    | .reserved => none
  | .rd32 off | .wr32 off _ =>
    if 0x10000 ≤ off then some (.accessOutsideWindow off)
    else if off % 4 ≠ 0 then some (.accessMisaligned off)
    else none
  | .otherWidth bits _ => some (.accessWidth bits)
  | .reset => none

/-- A legal host access (R17, R47, R52, R56, R211). -/
def legalAccess (s : State) : HostAccess → AccessEffect
  | .rd8 off => s.returned ((s.hostByte off).setWidth 32)
  | .rd32 off => s.returned (if off < 0x1000 then s.readRegister off else s.hostWord off)
  | .wr8 off v => .done (s.hostStore off [v])
  | .wr32 off v =>
    if off = 0x000 then .command v { s with cmd := v }
    else if off < 0x1000 then .done (s.writeRegister off v)
    else .done (s.hostStore off (le32Bytes v))
  | .otherWidth bits _ => .refused (.accessWidth bits)
  | .reset => .done s.platformReset

/-- One host access on a state whose queue no longer holds it. -/
def hostAccess (s : State) (a : HostAccess) : AccessEffect :=
  match accessRefusal s.params a with
  | some r => .refused r
  | none => legalAccess s a

/-- The next access of the host, if there is one, performed (R15, R58): with none the engine waits. -/
def nextAccess (s : State) : AccessEffect :=
  match s.host with
  | [] => .done s
  | a :: rest => hostAccess { s with host := rest } a

/-- The reason of a word that is no command, with its OPC (R70 steps 1 and 2). -/
def decodeReason : DecodeError → Byte × ReasonCode
  | .badOpcode opc => (opc, .badOpcode)
  | .badField opc => (opc, .badField)

/-- A CMD word that is no command: ILLEGAL_COMMAND (R70, R72, R199). -/
def State.undecoded (s : State) (e : DecodeError) : State := s.illegal (decodeReason e).1 (decodeReason e).2

/-- The state with the CMD write of `w` as the host's next access: what places an instruction where the next step takes
it (log 1). -/
def State.withCommand (s : State) (w : Word) : State := { s with host := .wr32 0x000 w :: s.host }

end Sys2Proof.Machine
end

