-- ==== Sys2Proof/Machine/Aes.lean ====
section
/-! DEFINITION. The AES S-box `SB` (spec/44_cipher_pipelines.md R155) and the AES-128 primitive of
spec/00_scope.md R11. The S-box is the spec's; the rest of the cipher's body, and of the key unwrap, is taken from
FIPS-197 and RFC 3394, PRESUMED (log 9, log 10). -/

namespace Sys2Proof.Machine

/-- Rows 0x00 to 0x70 of `SB` (R155). -/
def sboxLow : Bytes :=
  [0x63, 0x7c, 0x77, 0x7b, 0xf2, 0x6b, 0x6f, 0xc5, 0x30, 0x01, 0x67, 0x2b, 0xfe, 0xd7, 0xab, 0x76] ++
  [0xca, 0x82, 0xc9, 0x7d, 0xfa, 0x59, 0x47, 0xf0, 0xad, 0xd4, 0xa2, 0xaf, 0x9c, 0xa4, 0x72, 0xc0] ++
  [0xb7, 0xfd, 0x93, 0x26, 0x36, 0x3f, 0xf7, 0xcc, 0x34, 0xa5, 0xe5, 0xf1, 0x71, 0xd8, 0x31, 0x15] ++
  [0x04, 0xc7, 0x23, 0xc3, 0x18, 0x96, 0x05, 0x9a, 0x07, 0x12, 0x80, 0xe2, 0xeb, 0x27, 0xb2, 0x75] ++
  [0x09, 0x83, 0x2c, 0x1a, 0x1b, 0x6e, 0x5a, 0xa0, 0x52, 0x3b, 0xd6, 0xb3, 0x29, 0xe3, 0x2f, 0x84] ++
  [0x53, 0xd1, 0x00, 0xed, 0x20, 0xfc, 0xb1, 0x5b, 0x6a, 0xcb, 0xbe, 0x39, 0x4a, 0x4c, 0x58, 0xcf] ++
  [0xd0, 0xef, 0xaa, 0xfb, 0x43, 0x4d, 0x33, 0x85, 0x45, 0xf9, 0x02, 0x7f, 0x50, 0x3c, 0x9f, 0xa8] ++
  [0x51, 0xa3, 0x40, 0x8f, 0x92, 0x9d, 0x38, 0xf5, 0xbc, 0xb6, 0xda, 0x21, 0x10, 0xff, 0xf3, 0xd2]

/-- Rows 0x80 to 0xF0 of `SB` (R155). -/
def sboxHigh : Bytes :=
  [0xcd, 0x0c, 0x13, 0xec, 0x5f, 0x97, 0x44, 0x17, 0xc4, 0xa7, 0x7e, 0x3d, 0x64, 0x5d, 0x19, 0x73] ++
  [0x60, 0x81, 0x4f, 0xdc, 0x22, 0x2a, 0x90, 0x88, 0x46, 0xee, 0xb8, 0x14, 0xde, 0x5e, 0x0b, 0xdb] ++
  [0xe0, 0x32, 0x3a, 0x0a, 0x49, 0x06, 0x24, 0x5c, 0xc2, 0xd3, 0xac, 0x62, 0x91, 0x95, 0xe4, 0x79] ++
  [0xe7, 0xc8, 0x37, 0x6d, 0x8d, 0xd5, 0x4e, 0xa9, 0x6c, 0x56, 0xf4, 0xea, 0x65, 0x7a, 0xae, 0x08] ++
  [0xba, 0x78, 0x25, 0x2e, 0x1c, 0xa6, 0xb4, 0xc6, 0xe8, 0xdd, 0x74, 0x1f, 0x4b, 0xbd, 0x8b, 0x8a] ++
  [0x70, 0x3e, 0xb5, 0x66, 0x48, 0x03, 0xf6, 0x0e, 0x61, 0x35, 0x57, 0xb9, 0x86, 0xc1, 0x1d, 0x9e] ++
  [0xe1, 0xf8, 0x98, 0x11, 0x69, 0xd9, 0x8e, 0x94, 0x9b, 0x1e, 0x87, 0xe9, 0xce, 0x55, 0x28, 0xdf] ++
  [0x8c, 0xa1, 0x89, 0x0d, 0xbf, 0xe6, 0x42, 0x68, 0x41, 0x99, 0x2d, 0x0f, 0xb0, 0x54, 0xbb, 0x16]

/-- The constant table `SB` (R155). -/
def sbox : Bytes := sboxLow ++ sboxHigh

/-- `SB[x]` (R155). -/
def subByte (x : Byte) : Byte := byteAt sbox x.toNat

/-- `xtime`: multiplication by 2 in GF(2^8) modulo x^8+x^4+x^3+x+1 (R156). -/
def xtime (x : Byte) : Byte := if x.getLsbD 7 then (x <<< 1) ^^^ 0x1b#8 else x <<< 1

/-- A cipher block: four columns, each with its first byte most significant (FIPS-197). -/
structure AesBlock where
  c0 : Word
  c1 : Word
  c2 : Word
  c3 : Word
  deriving DecidableEq, Repr

/-- Byte `r` of a column, 0 the first (FIPS-197). -/
def colByte (w : Word) (r : Nat) : Byte := w.extractLsb' (24 - 8 * r) 8

/-- A column from its four bytes, the first one most significant. -/
def column (b0 b1 b2 b3 : Byte) : Word := b0 ++ b1 ++ b2 ++ b3

/-- The block of 16 bytes (FIPS-197). -/
def AesBlock.ofBytes (B : Bytes) : AesBlock := ⟨be32 B 0, be32 B 4, be32 B 8, be32 B 12⟩

/-- The 16 bytes of a block (FIPS-197). -/
def AesBlock.toBytes (x : AesBlock) : Bytes :=
  be32Bytes x.c0 ++ be32Bytes x.c1 ++ be32Bytes x.c2 ++ be32Bytes x.c3

/-- AddRoundKey, column by column (FIPS-197). -/
def AesBlock.xor (x k : AesBlock) : AesBlock := ⟨x.c0 ^^^ k.c0, x.c1 ^^^ k.c1, x.c2 ^^^ k.c2, x.c3 ^^^ k.c3⟩

/-- SubBytes then ShiftRows for the column whose bytes come from the columns `a b c d` (FIPS-197). -/
def subShiftColumn (a b c d : Word) : Word :=
  column (subByte (colByte a 0)) (subByte (colByte b 1)) (subByte (colByte c 2)) (subByte (colByte d 3))

/-- SubBytes and ShiftRows (FIPS-197). -/
def AesBlock.subShift (x : AesBlock) : AesBlock where
  c0 := subShiftColumn x.c0 x.c1 x.c2 x.c3
  c1 := subShiftColumn x.c1 x.c2 x.c3 x.c0
  c2 := subShiftColumn x.c2 x.c3 x.c0 x.c1
  c3 := subShiftColumn x.c3 x.c0 x.c1 x.c2

/-- One row of MixColumns: 2·a ⊕ 3·b ⊕ c ⊕ d (FIPS-197). -/
def mixByte (a b c d : Byte) : Byte := xtime a ^^^ (xtime b ^^^ b) ^^^ c ^^^ d

/-- MixColumns on one column (FIPS-197). -/
def mixColumn (w : Word) : Word :=
  let b0 := colByte w 0
  let b1 := colByte w 1
  let b2 := colByte w 2
  let b3 := colByte w 3
  column (mixByte b0 b1 b2 b3) (mixByte b1 b2 b3 b0) (mixByte b2 b3 b0 b1) (mixByte b3 b0 b1 b2)

/-- MixColumns (FIPS-197). -/
def AesBlock.mix (x : AesBlock) : AesBlock := ⟨mixColumn x.c0, mixColumn x.c1, mixColumn x.c2, mixColumn x.c3⟩

/-- The next round key (FIPS-197, key expansion for 128 bits). -/
def nextRoundKey (rcon : Byte) (k : AesBlock) : AesBlock :=
  let t := column (subByte (colByte k.c3 1) ^^^ rcon) (subByte (colByte k.c3 2)) (subByte (colByte k.c3 3))
    (subByte (colByte k.c3 0))
  let d0 := k.c0 ^^^ t
  let d1 := k.c1 ^^^ d0
  let d2 := k.c2 ^^^ d1
  ⟨d0, d1, d2, k.c3 ^^^ d2⟩

/-- `n` full rounds and then the last one, without MixColumns; `k` is the key of the round before (FIPS-197). -/
def aesRounds : Nat → Byte → AesBlock → AesBlock → AesBlock
  | 0, rcon, k, x => x.subShift.xor (nextRoundKey rcon k)
  | n + 1, rcon, k, x =>
    let k' := nextRoundKey rcon k
    aesRounds n (xtime rcon) k' (x.subShift.mix.xor k')

/-- `AES128(k, blk)`: 16-byte key, 16-byte block, 16 bytes (R11, FIPS-197). -/
def aes128 (k blk : Bytes) : Bytes :=
  let key := AesBlock.ofBytes k
  (aesRounds 9 0x01 key ((AesBlock.ofBytes blk).xor key)).toBytes

/-- The round keys 0 to `n` after `k`, the last one first (FIPS-197). -/
def roundKeys : Nat → Byte → AesBlock → List AesBlock → List AesBlock
  | 0, _, k, acc => k :: acc
  | n + 1, rcon, k, acc => roundKeys n (xtime rcon) (nextRoundKey rcon k) (k :: acc)

/-- The inverse S-box, by search in `SB` (FIPS-197). -/
def invSubByte (y : Byte) : Byte := BitVec.ofNat 8 (sbox.findIdx (· == y))

/-- InvShiftRows then InvSubBytes for one column (FIPS-197). -/
def invSubShiftColumn (a b c d : Word) : Word :=
  column (invSubByte (colByte a 0)) (invSubByte (colByte b 1)) (invSubByte (colByte c 2)) (invSubByte (colByte d 3))

/-- InvShiftRows and InvSubBytes (FIPS-197). -/
def AesBlock.invSubShift (x : AesBlock) : AesBlock where
  c0 := invSubShiftColumn x.c0 x.c3 x.c2 x.c1
  c1 := invSubShiftColumn x.c1 x.c0 x.c3 x.c2
  c2 := invSubShiftColumn x.c2 x.c1 x.c0 x.c3
  c3 := invSubShiftColumn x.c3 x.c2 x.c1 x.c0

/-- One row of InvMixColumns: 14·a ⊕ 11·b ⊕ 13·c ⊕ 9·d (FIPS-197). -/
def invMixByte (a b c d : Byte) : Byte :=
  xtime (xtime (xtime (a ^^^ b ^^^ c ^^^ d))) ^^^ xtime (xtime (a ^^^ c)) ^^^ xtime (a ^^^ b) ^^^ b ^^^ c ^^^ d

/-- InvMixColumns on one column (FIPS-197). -/
def invMixColumn (w : Word) : Word :=
  let b0 := colByte w 0
  let b1 := colByte w 1
  let b2 := colByte w 2
  let b3 := colByte w 3
  column (invMixByte b0 b1 b2 b3) (invMixByte b1 b2 b3 b0) (invMixByte b2 b3 b0 b1) (invMixByte b3 b0 b1 b2)

/-- InvMixColumns (FIPS-197). -/
def AesBlock.invMix (x : AesBlock) : AesBlock :=
  ⟨invMixColumn x.c0, invMixColumn x.c1, invMixColumn x.c2, invMixColumn x.c3⟩

/-- The inverse rounds over the round keys, the last one first (FIPS-197). -/
def aesInvRounds : List AesBlock → AesBlock → AesBlock
  | [], x => x
  | [k], x => x.invSubShift.xor k
  | k :: k' :: ks, x => aesInvRounds (k' :: ks) (x.invSubShift.xor k).invMix

/-- AES-128 decryption of one block, which the key unwrap uses (FIPS-197). -/
def aes128Inv (k blk : Bytes) : Bytes :=
  match roundKeys 10 0x01 (AesBlock.ofBytes k) [] with
  | [] => blk
  | k10 :: ks => (aesInvRounds ks ((AesBlock.ofBytes blk).xor k10)).toBytes

/-- The steps of the key unwrap for the step numbers `t` down to 1: the register A and the blocks R (RFC 3394 2.2.2). -/
def unwrapSteps (kek : Bytes) (n : Nat) : Nat → Bytes → List Bytes → Bytes × List Bytes
  | 0, a, r => (a, r)
  | t + 1, a, r =>
    let i := t % n
    let b := aes128Inv kek
      (xorBytes a (zeros 4 ++ be32Bytes (BitVec.ofNat 32 (t + 1))) ++ r.getD i [])
    unwrapSteps kek n t (b.take 8) (r.set i (b.drop 8))

/-- `AES_UNWRAP(kek, w)` (R11, RFC 3394): the key data, or nothing when the integrity value does not match. No rule of
the spec uses it (R11, N43; log 10). -/
def aesUnwrap (kek w : Bytes) : Option Bytes :=
  let n := w.length / 8 - 1
  let (a, r) := unwrapSteps kek n (6 * n) (w.take 8) ((List.range n).map fun i => slice w (8 * i + 8) 8)
  if a = List.replicate 8 0xA6#8 then some r.flatten else none

end Sys2Proof.Machine
end

