-- ==== Sys2Proof/Machine/Crc32.lean ====
section
/-! DEFINITION. The CRC-32 of the ICV and FCS (spec/44_cipher_pipelines.md R151). -/

namespace Sys2Proof.Machine

/-- The reflected IEEE 802.3 polynomial (R151). -/
def crcPoly : Word := 0xEDB88320

/-- One of the eight bit steps of R151: `c <- (c[0] = 1) ? (c >> 1) ⊕ 0xEDB88320 : (c >> 1)`. -/
def crcBit (c : Word) : Word := if c.getLsbD 0 then (c >>> 1) ^^^ crcPoly else c >>> 1

/-- One byte of R151: `c <- c ⊕ b`, then eight bit steps. -/
def crcByte (c : Word) (b : Byte) : Word :=
  crcBit (crcBit (crcBit (crcBit (crcBit (crcBit (crcBit (crcBit (c ^^^ b.setWidth 32))))))))

/-- The running register after the bytes of `d`, from the register `c`. -/
def crcRun (c : Word) (d : Bytes) : Word := d.foldl crcByte c

/-- `CRC32(d)` (R151): initial value and final step all ones. -/
def crc32 (d : Bytes) : Word := crcRun 0xFFFFFFFF d ^^^ 0xFFFFFFFF

end Sys2Proof.Machine
end

