-- ==== Sys2Proof/Machine/Rc4.lean ====
section
/-! DEFINITION. RC4 (spec/44_cipher_pipelines.md R152). All index arithmetic is modulo 256, so an index is a byte. -/

namespace Sys2Proof.Machine

/-- `swap S[i], S[j]` (R152). -/
def rc4Swap (S : Bytes) (i j : Byte) : Bytes :=
  (S.set i.toNat (byteAt S j.toNat)).set j.toNat (byteAt S i.toNat)

/-- Key scheduling (R152), for the `n` values of `i` from `i` on: the permutation it leaves. -/
def rc4Schedule (K : Bytes) : Nat → Nat → Bytes → Byte → Bytes
  | 0, _, S, _ => S
  | n + 1, i, S, j =>
    let j' := j + byteAt S i + byteAt K (i % K.length)
    rc4Schedule K n (i + 1) (rc4Swap S (BitVec.ofNat 8 i) j') j'

/-- `n` keystream bytes from the permutation `S` and the two indices (R152). -/
def rc4Stream : Nat → Bytes → Byte → Byte → Bytes
  | 0, _, _, _ => []
  | n + 1, S, i, j =>
    let i' := i + 1
    let j' := j + byteAt S i'.toNat
    let S' := rc4Swap S i' j'
    byteAt S' (byteAt S' i'.toNat + byteAt S' j'.toNat).toNat :: rc4Stream n S' i' j'

/-- The identity permutation `S[i] <- i` for `i` in 0..255 (R152). -/
def rc4Identity : Bytes := (List.range 256).map (BitVec.ofNat 8)

/-- The first `n` keystream bytes of the key `K` (R152). -/
def rc4Keystream (K : Bytes) (n : Nat) : Bytes := rc4Stream n (rc4Schedule K 256 0 rc4Identity 0) 0 0

/-- `RC4(K, d)` for a key of 1 to 256 bytes (R152). -/
def rc4 (K d : Bytes) : Bytes := xorBytes d (rc4Keystream K d.length)

end Sys2Proof.Machine
end

