-- ==== Sys2Proof/Machine/CipherPipelines.lean ====
section
/-! DEFINITION. The WEP, TKIP and CCMP pipelines and the commands WEP_DECRYPT, TKIP_DECRYPT and CCMP_DECRYPT
(spec/44_cipher_pipelines.md R149 to R171). A pipeline reads only its arguments and writes no state (R149). `W` is the
working frame, `h` the header length. -/

namespace Sys2Proof.Machine

/-- Why a pipeline fails (R149). -/
inductive PipeFail where
  | wrongDataSize
  | icvMismatch
  | micMismatch
  deriving DecidableEq, Repr

/-- The REASON of a pipeline failure (R168, R192). -/
def pipeReason : PipeFail → ReasonCode
  | .wrongDataSize => .wrongDataSize
  | .icvMismatch => .icvMismatch
  | .micMismatch => .micMismatch

/-- The OUTCOME of a pipeline failure in a standalone command (R168). -/
def pipeOutcome : PipeFail → OutcomeCode
  | .wrongDataSize => .tooShort
  | .icvMismatch => .icvMismatch
  | .micMismatch => .micMismatch

/-- The Protected bit of byte 1 cleared: `O[1] & 0xBF` (R150). -/
def clearProtected (O : Bytes) : Bytes := O.set 1 (byteAt O 1 &&& 0xBF#8)

/-- The plaintext frame before its FCS: header and payload, Protected cleared (R150). -/
def plainFrame (W : Bytes) (h : Nat) (P : Bytes) : Bytes := clearProtected (slice W 0 h ++ P)

/-- The frame `OutputFrame(W, h, P, FCS)` writes to FRAME_OUT (R150). -/
def outputFrame (W : Bytes) (h : Nat) (P : Bytes) (fcs : Bool) : Bytes :=
  plainFrame W h P ++ (if fcs then le32Bytes (crc32 (plainFrame W h P)) else [])

/-- `WepCore(seed, C)` (R153): the data, when the ICV matches. -/
def wepCore (seed C : Bytes) : Except PipeFail Bytes :=
  let Q := rc4 seed C
  let D := slice Q 0 (C.length - 4)
  if le32Bytes (crc32 D) = slice Q (C.length - 4) 4 then .ok D else .error .icvMismatch

/-- `WepTry(W, h, WKEY)` (R154). -/
def wepTry (W : Bytes) (h : Nat) (wkey : Bytes) : Except PipeFail Bytes :=
  if W.length < h + 8 then .error .wrongDataSize else wepCore (slice W h 3 ++ wkey) (W.drop (h + 4))

/-- `TSB[x]`, the TKIP S-box: high byte 2·SB[x], low byte 3·SB[x] (R156). -/
def tsb (x : Byte) : Half := xtime (subByte x) ++ (xtime (subByte x) ^^^ subByte x)

/-- `lo8(v)` (R8, R157). -/
def lo8 (v : Half) : Byte := v.extractLsb' 0 8

/-- `hi8(v)` (R8, R157). -/
def hi8 (v : Half) : Byte := v.extractLsb' 8 8

/-- `mk16(h, l)` (R8, R157). -/
def mk16 (h l : Byte) : Half := h ++ l

/-- `swap16(v)` (R8, R157). -/
def swap16 (v : Half) : Half := mk16 (lo8 v) (hi8 v)

/-- `rotr1(v)` (R8, R157). -/
def rotr1 (v : Half) : Half := v.rotateRight 1

/-- `S(v) = TSB[lo8(v)] ⊕ swap16(TSB[hi8(v)])` (R157). -/
def tkipS (v : Half) : Half := tsb (lo8 v) ^^^ swap16 (tsb (hi8 v))

/-- The little-endian 16-bit word of `B` at offset `o` (R49). -/
def le16Half (B : Bytes) (o : Nat) : Half := mk16 (byteAt B (o + 1)) (byteAt B o)

/-- `TK16(n)` (R157). -/
def tk16 (tk : Bytes) (n : Nat) : Half := le16Half tk (2 * n)

/-- The TTAK: five 16-bit words (R158). -/
structure Ttak where
  p0 : Half
  p1 : Half
  p2 : Half
  p3 : Half
  p4 : Half
  deriving DecidableEq, Repr

/-- One of the eight iterations of Phase1 (R158); each word uses the words already updated. -/
def phase1Step (tk : Bytes) (p : Ttak) (i : Nat) : Ttak :=
  let j := 2 * (i % 2)
  let p0 := p.p0 + tkipS (p.p4 ^^^ le16Half tk j)
  let p1 := p.p1 + tkipS (p0 ^^^ le16Half tk (4 + j))
  let p2 := p.p2 + tkipS (p1 ^^^ le16Half tk (8 + j))
  let p3 := p.p3 + tkipS (p2 ^^^ le16Half tk (12 + j))
  let p4 := p.p4 + tkipS (p3 ^^^ le16Half tk j) + BitVec.ofNat 16 i
  ⟨p0, p1, p2, p3, p4⟩

/-- `Phase1(TK, TA, IV32)` (R158). -/
def phase1 (tk ta : Bytes) (iv32 : Word) : Ttak :=
  (List.range 8).foldl (phase1Step tk)
    ⟨iv32.extractLsb' 0 16, iv32.extractLsb' 16 16, le16Half ta 0, le16Half ta 2, le16Half ta 4⟩

/-- The two bytes of a PPK word in the seed, low byte first (R159). -/
def ppkBytes (v : Half) : Bytes := [lo8 v, hi8 v]

/-- `Phase2(TK, TTAK, IV16)`: the 16-byte RC4 seed (R159). The words are named after the update that made them. -/
def phase2 (tk : Bytes) (p : Ttak) (iv16 : Half) : Bytes :=
  let a0 := p.p0 + tkipS ((p.p4 + iv16) ^^^ tk16 tk 0)
  let a1 := p.p1 + tkipS (a0 ^^^ tk16 tk 1)
  let a2 := p.p2 + tkipS (a1 ^^^ tk16 tk 2)
  let a3 := p.p3 + tkipS (a2 ^^^ tk16 tk 3)
  let a4 := p.p4 + tkipS (a3 ^^^ tk16 tk 4)
  let a5 := p.p4 + iv16 + tkipS (a4 ^^^ tk16 tk 5)
  let b0 := a0 + rotr1 (a5 ^^^ tk16 tk 6)
  let b1 := a1 + rotr1 (b0 ^^^ tk16 tk 7)
  let b2 := a2 + rotr1 b1
  let b3 := a3 + rotr1 b2
  let b4 := a4 + rotr1 b3
  let b5 := a5 + rotr1 b4
  [hi8 iv16, (hi8 iv16 ||| 0x20#8) &&& 0x7F#8, lo8 iv16, lo8 ((b5 ^^^ tk16 tk 0) >>> 1)] ++
    ppkBytes b0 ++ ppkBytes b1 ++ ppkBytes b2 ++ ppkBytes b3 ++ ppkBytes b4 ++ ppkBytes b5

/-- The RC4 seed of a TKIP frame: TA is A2 whatever the header length (R160, R170). -/
def tkipSeed (W : Bytes) (h : Nat) (tk : Bytes) : Bytes :=
  phase2 tk (phase1 tk (addr2 W) (tkipIv32 W h)) (tkipIv16 W h)

/-- `TkipTry(W, h, TK)`: the 8-byte Michael MIC is discarded, not verified (R160). -/
def tkipTry (W : Bytes) (h : Nat) (tk : Bytes) : Except PipeFail Bytes :=
  if W.length < h + 20 then .error .wrongDataSize
  else
    match wepCore (tkipSeed W h tk) (W.drop (h + 8)) with
    | .ok D => .ok (slice D 0 (D.length - 8))
    | .error e => .error e

/-- The part of the AAD after Sequence Control, with the AAD's length: A4 when DS = 3, then the folded QoS field when
QOS, zero-padded to 8 bytes (R161). -/
def aadTail (W : Bytes) : Bytes × Byte :=
  if frameDs W = 3 then
    if frameQos W then (addr4 W ++ [byteAt W 30 &&& 0x0F#8, 0x00#8], 30) else (addr4 W ++ zeros 2, 28)
  else if frameQos W then ([byteAt W 24 &&& 0x0F#8, 0x00#8] ++ zeros 6, 24)
  else (zeros 8, 22)

/-- `CcmpAad(W)`: the length prefix and the AAD, zero-padded to 32 bytes (R161). -/
def ccmpAad (W : Bytes) : Bytes :=
  [0x00#8, (aadTail W).2, byteAt W 0 &&& 0x8F#8, byteAt W 1 &&& 0xC7#8] ++ slice W 4 18 ++
    [byteAt W 22 &&& 0x0F#8, 0x00#8] ++ (aadTail W).1

/-- `CcmpNonce(W, PN) = PRIO ‖ A2 ‖ BE48(PN)`, 13 bytes (R162). -/
def ccmpNonce (W : Bytes) (pn : BitVec 48) : Bytes :=
  (if frameQos W then qosByte W &&& 0x0F#8 else 0x00#8) :: addr2 W ++ be48Bytes pn

/-- The keystream block `AES128(TK, 0x01 ‖ N ‖ BE16(i))` (R163). -/
def ccmKeystream (tk nonce : Bytes) (i : Nat) : Bytes :=
  aes128 tk (0x01#8 :: nonce ++ be16Bytes (BitVec.ofNat 16 i))

/-- One CBC-MAC step: `X <- AES128(TK, X ⊕ (D ‖ zeros))` (R163). -/
def ccmMacStep (tk x d : Bytes) : Bytes := aes128 tk (xorBytes x (d ++ zeros (16 - d.length)))

/-- The CBC-MAC over B0 and the two AAD blocks, for a payload of `m` bytes (R163). -/
def ccmMacStart (tk nonce aad : Bytes) (m : Nat) : Bytes :=
  let x0 := aes128 tk (0x59#8 :: nonce ++ be16Bytes (BitVec.ofNat 16 m))
  let x1 := aes128 tk (xorBytes x0 (slice aad 0 16))
  aes128 tk (xorBytes x1 (slice aad 16 16))

/-- `n` blocks of the payload loop from block number `i` on: the plaintext and the final X (R163). -/
def ccmBlocks (tk nonce : Bytes) : Nat → Nat → Bytes → Bytes → Bytes × Bytes
  | 0, _, _, x => ([], x)
  | n + 1, i, C, x =>
    let d := xorBytes (C.take 16) (ccmKeystream tk nonce i)
    let rest := ccmBlocks tk nonce n (i + 1) (C.drop 16) (ccmMacStep tk x d)
    (d ++ rest.1, rest.2)

/-- The 8-byte MIC: the first bytes of `X ⊕ S0` (R163). -/
def ccmTag (tk nonce x : Bytes) : Bytes := xorBytes (slice x 0 8) (slice (ccmKeystream tk nonce 0) 0 8)

/-- `CcmDecrypt(TK, N, A, C, M)` (R163): the plaintext, when the recomputed MIC is `M`. -/
def ccmDecrypt (tk nonce aad C M : Bytes) : Except PipeFail Bytes :=
  let r := ccmBlocks tk nonce ((C.length + 15) / 16) 1 C (ccmMacStart tk nonce aad C.length)
  if ccmTag tk nonce r.2 = M then .ok r.1 else .error .micMismatch

/-- `CcmpTry(W, h, TK)` (R164), less the packet number, which is `ccmpPn W h`. -/
def ccmpTry (W : Bytes) (h : Nat) (tk : Bytes) : Except PipeFail Bytes :=
  if W.length < h + 16 then .error .wrongDataSize
  else
    ccmDecrypt tk (ccmpNonce W (ccmpPn W h)) (ccmpAad W) (slice W (h + 8) (W.length - h - 16))
      (slice W (W.length - 8) 8)

/-- The end of a standalone pipeline command (R168): RES0 = |P| and RES1.CIPHER on success, the pipeline's own kind on
failure. -/
def State.finishPipeline (s : State) (opc : Byte) (cipher : Cipher) (fcs : Bool) (W : Bytes) (h : Nat) :
    Except PipeFail Bytes → State
  | .ok P =>
    s.finishFrame opc .ok .none (BitVec.ofNat 32 P.length) { Res1.zero with cipher := cipher } (outputFrame W h P fcs)
  | .error e => s.finishFrame opc (pipeOutcome e) (pipeReason e) 0 Res1.zero []

/-- The bytes of a frame's FCS: 4 with FCS = 1 (R168). -/
def fcsLen (fcs : Bool) : Nat := if fcs then 4 else 0

/-- The common frame rule of the standalone pipelines (R70, R168), in its order: reserved ARG0 bits, frame length, HDR_LEN,
the command's own operand check, the length check, and the check CCMP makes on the frame itself (R171). -/
def State.pipelineCommand (s : State) (opc : Byte) (cipher : Cipher) (fcs : Bool) (len : Nat) (operandOk : Bool)
    (frameOk : Bytes → Nat → Bool) (run : Bytes → Nat → Except PipeFail Bytes) : State :=
  let h := s.hdrLenOperand
  let W := s.frameIn 0 (len - fcsLen fcs)
  if !s.hdrLenReservedZero || decide (Config.frameBufLen < len) || decide (h < 24) || !operandOk then
    s.illegal opc .badField
  else if len < fcsLen fcs + h then s.finishFrame opc .tooShort .wrongDataSize 0 Res1.zero []
  else if !frameOk W h then s.illegal opc .badField
  else s.finishPipeline opc cipher fcs W h (run W h)

/-- A legal KLEN (R169). -/
def klenLegal (klen : Nat) : Bool := decide (1 ≤ klen ∧ klen ≤ 32)

/-- WEP_DECRYPT (R169): KLEN and the key are in PARAM. -/
def execWepDecrypt (fcs : Bool) (len : Nat) (s : State) : Host.Outcome State Fault Refusal :=
  .next (s.pipelineCommand (Instr.opcode (.wepDecrypt fcs len)) .wep fcs len (klenLegal (s.paramLength 0))
    (fun _ _ => true) (fun W h => wepTry W h (s.param 1 (s.paramLength 0))))

/-- TKIP_DECRYPT (R170): TK is in PARAM. -/
def execTkipDecrypt (fcs : Bool) (len : Nat) (s : State) : Host.Outcome State Fault Refusal :=
  .next (s.pipelineCommand (Instr.opcode (.tkipDecrypt fcs len)) .tkip fcs len true
    (fun _ _ => true) (fun W h => tkipTry W h (s.param 0 16)))

/-- CCMP_DECRYPT (R171): TK is in PARAM; HDR_LEN must reach the header's end. -/
def execCcmpDecrypt (fcs : Bool) (len : Nat) (s : State) : Host.Outcome State Fault Refusal :=
  .next (s.pipelineCommand (Instr.opcode (.ccmpDecrypt fcs len)) .ccmp fcs len true
    (fun W h => decide (hdrLen W ≤ h)) (fun W h => ccmpTry W h (s.param 0 16)))

end Sys2Proof.Machine
end

