-- ==== Sys2Proof/Machine/Hashes.lean ====
section
/-! DEFINITION. The hash and MAC primitives of spec/00_scope.md R11: total functions of their arguments, "fixed by
reference to their public standards" (R4). Their bodies are taken from those standards (RFC 1321, FIPS 180, RFC 2104),
PRESUMED because they stand outside the spec's own text (log 9). The published vectors of spec/95_test_vectors.md
section 1.2.1 are checked in Tests/Slice0.lean. -/

namespace Sys2Proof.Machine

/-- A message followed by 0x80, zeros and room for the 8-byte bit length: 64-byte blocks (RFC 1321, FIPS 180). -/
def hashPad (d lenBytes : Bytes) : Bytes := d ++ 0x80#8 :: zeros ((119 - d.length % 64) % 64) ++ lenBytes

/-- The bit length of a message. -/
def bitLength (d : Bytes) : BitVec 64 := BitVec.ofNat 64 (8 * d.length)

/-- The sixteen 32-bit words of a 64-byte block, each read by `word`. -/
def blockWords (word : Bytes → Nat → Word) (B : Bytes) : List Word := (List.range 16).map fun i => word B (4 * i)

/-- The chaining value of SHA-1 (FIPS 180). -/
structure Sha1State where
  a : Word
  b : Word
  c : Word
  d : Word
  e : Word
  deriving DecidableEq, Repr

/-- The initial chaining value (FIPS 180). -/
def sha1Init : Sha1State := ⟨0x67452301, 0xEFCDAB89, 0x98BADCFE, 0x10325476, 0xC3D2E1F0⟩

/-- The round function `f_t` (FIPS 180). -/
def sha1F (t : Nat) (b c d : Word) : Word :=
  if t < 20 then (b &&& c) ||| (~~~b &&& d)
  else if t < 40 then b ^^^ c ^^^ d
  else if t < 60 then (b &&& c) ||| (b &&& d) ||| (c &&& d)
  else b ^^^ c ^^^ d

/-- The round constant `K_t` (FIPS 180). -/
def sha1K (t : Nat) : Word :=
  if t < 20 then 0x5A827999 else if t < 40 then 0x6ED9EBA1 else if t < 60 then 0x8F1BBCDC else 0xCA62C1D6

/-- `n` rounds from round `t` on, with the window of the next sixteen schedule words (FIPS 180). -/
def sha1Rounds : Nat → Nat → List Word → Sha1State → Sha1State
  | 0, _, _, s => s
  | n + 1, t, w, s =>
    let w0 := w.getD 0 0
    let next := (w0 ^^^ w.getD 2 0 ^^^ w.getD 8 0 ^^^ w.getD 13 0).rotateLeft 1
    let x := s.a.rotateLeft 5 + sha1F t s.b s.c s.d + s.e + sha1K t + w0
    sha1Rounds n (t + 1) (w.tail ++ [next]) ⟨x, s.a, s.b.rotateLeft 30, s.c, s.d⟩

/-- One block into the chaining value (FIPS 180). -/
def sha1Block (h : Sha1State) (B : Bytes) : Sha1State :=
  let s := sha1Rounds 80 0 (blockWords be32 B) h
  ⟨h.a + s.a, h.b + s.b, h.c + s.c, h.d + s.d, h.e + s.e⟩

/-- The 64-bit length, most significant byte first (FIPS 180). -/
def sha1LenBytes (d : Bytes) : Bytes :=
  be32Bytes ((bitLength d).extractLsb' 32 32) ++ be32Bytes ((bitLength d).extractLsb' 0 32)

/-- The chaining value after the first `n` blocks of `m`. -/
def sha1Blocks (m : Bytes) (n : Nat) : Sha1State :=
  (List.range n).foldl (fun h i => sha1Block h (slice m (64 * i) 64)) sha1Init

/-- The 20 bytes of a chaining value. -/
def sha1Digest (h : Sha1State) : Bytes :=
  be32Bytes h.a ++ be32Bytes h.b ++ be32Bytes h.c ++ be32Bytes h.d ++ be32Bytes h.e

/-- `SHA1(d)` (R11, FIPS 180). -/
def sha1 (d : Bytes) : Bytes :=
  let m := hashPad d (sha1LenBytes d)
  sha1Digest (sha1Blocks m (m.length / 64))

/-- The chaining value of MD5 (RFC 1321). -/
structure Md5State where
  a : Word
  b : Word
  c : Word
  d : Word
  deriving DecidableEq, Repr

/-- The initial chaining value (RFC 1321). -/
def md5Init : Md5State := ⟨0x67452301, 0xEFCDAB89, 0x98BADCFE, 0x10325476⟩

/-- The 64 constants `T[1..64]` (RFC 1321). -/
def md5T : List Word :=
  [0xd76aa478, 0xe8c7b756, 0x242070db, 0xc1bdceee, 0xf57c0faf, 0x4787c62a, 0xa8304613, 0xfd469501,
   0x698098d8, 0x8b44f7af, 0xffff5bb1, 0x895cd7be, 0x6b901122, 0xfd987193, 0xa679438e, 0x49b40821] ++
  [0xf61e2562, 0xc040b340, 0x265e5a51, 0xe9b6c7aa, 0xd62f105d, 0x02441453, 0xd8a1e681, 0xe7d3fbc8,
   0x21e1cde6, 0xc33707d6, 0xf4d50d87, 0x455a14ed, 0xa9e3e905, 0xfcefa3f8, 0x676f02d9, 0x8d2a4c8a] ++
  [0xfffa3942, 0x8771f681, 0x6d9d6122, 0xfde5380c, 0xa4beea44, 0x4bdecfa9, 0xf6bb4b60, 0xbebfbc70,
   0x289b7ec6, 0xeaa127fa, 0xd4ef3085, 0x04881d05, 0xd9d4d039, 0xe6db99e5, 0x1fa27cf8, 0xc4ac5665] ++
  [0xf4292244, 0x432aff97, 0xab9423a7, 0xfc93a039, 0x655b59c3, 0x8f0ccc92, 0xffeff47d, 0x85845dd1,
   0x6fa87e4f, 0xfe2ce6e0, 0xa3014314, 0x4e0811a1, 0xf7537e82, 0xbd3af235, 0x2ad7d2bb, 0xeb86d391]

/-- The rotation of round `t`, 0..63 (RFC 1321). -/
def md5Shift (t : Nat) : Nat :=
  match t / 16 with
  | 0 => [7, 12, 17, 22].getD (t % 4) 0
  | 1 => [5, 9, 14, 20].getD (t % 4) 0
  | 2 => [4, 11, 16, 23].getD (t % 4) 0
  | _ => [6, 10, 15, 21].getD (t % 4) 0

/-- The message word of round `t` (RFC 1321). -/
def md5Index (t : Nat) : Nat :=
  match t / 16 with
  | 0 => t
  | 1 => (5 * t + 1) % 16
  | 2 => (3 * t + 5) % 16
  | _ => 7 * t % 16

/-- The auxiliary functions F, G, H, I (RFC 1321). -/
def md5F (t : Nat) (b c d : Word) : Word :=
  match t / 16 with
  | 0 => (b &&& c) ||| (~~~b &&& d)
  | 1 => (b &&& d) ||| (c &&& ~~~d)
  | 2 => b ^^^ c ^^^ d
  | _ => c ^^^ (b ||| ~~~d)

/-- `n` rounds from round `t` on (RFC 1321). -/
def md5Rounds (X : List Word) : Nat → Nat → Md5State → Md5State
  | 0, _, s => s
  | n + 1, t, s =>
    let f := s.a + md5F t s.b s.c s.d + X.getD (md5Index t) 0 + md5T.getD t 0
    md5Rounds X n (t + 1) ⟨s.d, s.b + f.rotateLeft (md5Shift t), s.b, s.c⟩

/-- One block into the chaining value (RFC 1321). -/
def md5Block (h : Md5State) (B : Bytes) : Md5State :=
  let s := md5Rounds (blockWords le32 B) 64 0 h
  ⟨h.a + s.a, h.b + s.b, h.c + s.c, h.d + s.d⟩

/-- The 64-bit length, least significant byte first (RFC 1321). -/
def md5LenBytes (d : Bytes) : Bytes :=
  le32Bytes ((bitLength d).extractLsb' 0 32) ++ le32Bytes ((bitLength d).extractLsb' 32 32)

/-- The chaining value after the first `n` blocks of `m`. -/
def md5Blocks (m : Bytes) (n : Nat) : Md5State :=
  (List.range n).foldl (fun h i => md5Block h (slice m (64 * i) 64)) md5Init

/-- The 16 bytes of a chaining value. -/
def md5Digest (h : Md5State) : Bytes := le32Bytes h.a ++ le32Bytes h.b ++ le32Bytes h.c ++ le32Bytes h.d

/-- `MD5(d)` (R11, RFC 1321). -/
def md5 (d : Bytes) : Bytes :=
  let m := hashPad d (md5LenBytes d)
  md5Digest (md5Blocks m (m.length / 64))

/-- The 64-byte block key of HMAC: a longer key is hashed first (RFC 2104). -/
def hmacKey (hash : Bytes → Bytes) (k : Bytes) : Bytes :=
  let k0 := if 64 < k.length then hash k else k
  k0 ++ zeros (64 - k0.length)

/-- HMAC over `hash`, block size 64 (R11, RFC 2104). -/
def hmac (hash : Bytes → Bytes) (k d : Bytes) : Bytes :=
  hash ((hmacKey hash k).map (· ^^^ 0x5c#8) ++ hash ((hmacKey hash k).map (· ^^^ 0x36#8) ++ d))

/-- `HMAC_MD5(k, d)`, 16 bytes (R11). -/
def hmacMd5 (k d : Bytes) : Bytes := hmac md5 k d

/-- `HMAC_SHA1(k, d)`, 20 bytes (R11). -/
def hmacSha1 (k d : Bytes) : Bytes := hmac sha1 k d

end Sys2Proof.Machine
end

