-- ==== Sys2Proof/Machine/KeyDerivation.lean ====
section
/-! DEFINITION. Passphrase to PSK, the 802.11i PRF, and the commands PSK_DERIVE and PTK_DERIVE
(spec/42_key_derivation.md R124 to R133). -/

namespace Sys2Proof.Machine

/-- The repeated step of a PBKDF2 block: `n` times `U <- HMAC_SHA1(P, U); T <- T ⊕ U` (R125). -/
def pbkdf2Loop (P : Bytes) : Nat → Bytes → Bytes → Bytes
  | 0, _, T => T
  | n + 1, U, T =>
    let U' := hmacSha1 P U
    pbkdf2Loop P n U' (xorBytes T U')

/-- `PBKDF2_SHA1_BLOCK(P, S, i)`, 20 bytes, 4096 HMAC applications in all (R125). -/
def pbkdf2Block (P S : Bytes) (i : Nat) : Bytes :=
  let U := hmacSha1 P (S ++ be32Bytes (BitVec.ofNat 32 i))
  pbkdf2Loop P (Config.pskIter - 1) U U

/-- `PasswordToPsk(P, S)`, 32 bytes (R126). -/
def passwordToPsk (P S : Bytes) : Bytes := slice (pbkdf2Block P S 1 ++ pbkdf2Block P S 2) 0 32

/-- Iteration `i` of the PRF: `HMAC_SHA1(K, A ‖ 00 ‖ B ‖ byte(i))` (R127). -/
def prfBlock (K A B : Bytes) (i : Nat) : Bytes := hmacSha1 K (A ++ 0x00#8 :: B ++ [BitVec.ofNat 8 i])

/-- `PRF(K, A, B, NBITS)`: `ceil(NBITS / 160)` iterations, cut to `NBITS / 8` bytes (R127). -/
def prf (K A B : Bytes) (nbits : Nat) : Bytes :=
  slice ((List.range ((nbits + 159) / 160)).flatMap (prfBlock K A B)) 0 (nbits / 8)

/-- The label "Pairwise key expansion" (R128). -/
def pairwiseLabel : Bytes :=
  [0x50, 0x61, 0x69, 0x72, 0x77, 0x69, 0x73, 0x65, 0x20, 0x6b, 0x65, 0x79, 0x20, 0x65, 0x78, 0x70, 0x61, 0x6e,
   0x73, 0x69, 0x6f, 0x6e]

/-- The addresses and nonces of the PRF buffer, in their lexicographic order (R128). -/
def ptkContext (aa spa an sn : Bytes) : Bytes := minLex aa spa ++ maxLex aa spa ++ minLex an sn ++ maxLex an sn

/-- `DerivePtk(PMK, AA, SPA, ANONCE, SNONCE, NBITS)` (R128). -/
def derivePtk (pmk aa spa an sn : Bytes) (nbits : Nat) : Bytes :=
  prf pmk pairwiseLabel (ptkContext aa spa an sn) nbits

/-- `PASS_LEN` and `SSID_LEN` in the ranges that key validation accepts (R114, R132). -/
def passLengthsLegal (passLen ssidLen : Nat) : Bool := decide (8 ≤ passLen ∧ passLen ≤ 63 ∧ ssidLen ≤ 32)

/-- PSK_DERIVE (R132). -/
def execPskDerive (s : State) : Host.Outcome State Fault Refusal :=
  if passLengthsLegal (s.paramLength 0) (s.paramLength 1) then
    .next ((s.memWrite .result 0 (passwordToPsk (s.param 2 (s.paramLength 0)) (s.param 66 (s.paramLength 1)))).finish
      (Instr.opcode .pskDerive) .ok .none 32 0 0)
  else .next (s.illegal (Instr.opcode .pskDerive) .badField)

/-- A legal NBITS: a multiple of 8 in 8..512 (R79, R133). -/
def nbitsLegal (nbits : Nat) : Bool := decide (nbits ≠ 0 ∧ nbits ≤ 512 ∧ nbits % 8 = 0)

/-- The PTK that PTK_DERIVE computes from PARAM (R79, R133). -/
def State.paramPtk (s : State) (nbits : Nat) : Bytes :=
  derivePtk (s.param 76 32) (s.param 0 6) (s.param 6 6) (s.param 12 32) (s.param 44 32) nbits

/-- PTK_DERIVE (R133), after its reserved ARG0 bits (R70). -/
def execPtkDerive (s : State) : Host.Outcome State Fault Refusal :=
  if s.nbitsReservedZero && nbitsLegal s.nbits then
    .next ((s.memWrite .result 0 (s.paramPtk s.nbits)).finish
      (Instr.opcode .ptkDerive) .ok .none (BitVec.ofNat 32 (s.nbits / 8)) 0 0)
  else .next (s.illegal (Instr.opcode .ptkDerive) .badField)

end Sys2Proof.Machine
end

