-- ==== Sys2Proof/Machine/SaStore.lean ====
section
/-! DEFINITION. The SA store's helpers and its commands (spec/40_sa_store.md R91 to R111). -/

namespace Sys2Proof.Machine

/-- `SA[k]`. Every rule names a slot of the table; past its end this answers a zero slot (log 18). -/
def SaStore.slot (st : SaStore) (k : Nat) : SaSlot := st.slots.getD k SaSlot.zero

/-- `SA[k]` replaced. -/
def SaStore.setSlot (st : SaStore) (k : Nat) (sl : SaSlot) : SaStore := { st with slots := st.slots.set k sl }

/-- The id a slot holds (R30). -/
def SaSlot.id (sl : SaSlot) : SaId := ⟨sl.bssid, sl.sta⟩

/-- Whether slot `k` is used and holds `id` (R92, R103). -/
def SaStore.holds (st : SaStore) (id : SaId) (k : Nat) : Bool := (st.slot k).used && decide ((st.slot k).id = id)

/-- The scan of `Lookup` over the slots `n-1` down to 0 (R103). -/
def SaStore.lookupBelow (st : SaStore) (id : SaId) : Nat → Option Nat
  | 0 => none
  | n + 1 => if st.holds id n then some n else st.lookupBelow id n

/-- `Lookup(id)` (R103): the scan from LSI down to 0, empty when LSI = -1. -/
def SaStore.lookup (st : SaStore) (id : SaId) : Option Nat := st.lookupBelow id (st.lsi + 1).toNat

/-- The forward scan of `Allocate` from slot `k`, over at most `n` slots: the first slot that is not used (R104). -/
def SaStore.scanUsed (st : SaStore) : Nat → Nat → Nat
  | 0, k => k
  | n + 1, k => if (st.slot k).used then st.scanUsed n (k + 1) else k

/-- The slot an allocation writes: zeroed, used, with its id (R93, R104). -/
def freshSlot (id : SaId) : SaSlot := { SaSlot.zero with used := true, bssid := id.bssid, sta := id.sta }

/-- The slot `Allocate` takes, `cap` when there is none (R104): FFI itself when it is free, else the first free slot
after it. With `FFI ≥ SA_CAP` nothing is scanned. -/
def SaStore.candidate (st : SaStore) (cap : Nat) : Nat := st.scanUsed (cap - st.ffi) st.ffi

/-- `Allocate(id)` (R104): the slot and the store after, or nothing when full. -/
def SaStore.allocate (st : SaStore) (cap : Nat) (id : SaId) : Option (Nat × SaStore) :=
  let k := st.candidate cap
  if cap ≤ k then none
  else some (k, { slots := st.slots.set k (freshSlot id), ffi := k + 1, lsi := if st.lsi < k then k else st.lsi })

/-- `Release(s)` (R105): USED, FFI and LSI only. -/
def SaStore.release (st : SaStore) (k : Nat) : SaStore where
  slots := st.slots.set k { st.slot k with used := false }
  ffi := if k < st.ffi then k else st.ffi
  lsi := if (k : Int) = st.lsi then st.lsi - 1 else st.lsi

/-- `LookupOrAllocate(id)` (R108): the slot and the store after, or nothing when full. -/
def SaStore.lookupOrAllocate (st : SaStore) (cap : Nat) (id : SaId) : Option (Nat × SaStore) :=
  match st.lookup id with
  | some k => some (k, st)
  | none => st.allocate cap id

/-- `StoreReset()` (R100). -/
def State.storeReset (s : State) : State := s.withStore (SaStore.empty s.params.saCap)

/-- The SA record of 121 bytes (R78, R110). -/
def SaSlot.toRecord (sl : SaSlot) : Bytes :=
  [bitByte sl.used, stageByte sl.stage, bitByte sl.validKey, sl.keyVer.setWidth 8, bitByte sl.ckValid, sl.ckIndex] ++
    sl.bssid ++ sl.sta ++ le48Bytes sl.pn ++ sl.anonce ++ sl.ptk ++ [bitByte sl.pnValid]

/-- The number of a slot in RES0 (R106, R107, R193). -/
def slotWord (k : Nat) : Word := BitVec.ofNat 32 k

/-- INIT_STORE (R101). -/
def execInitStore (s : State) : Host.Outcome State Fault Refusal :=
  .next (s.storeReset.finish (Instr.opcode .initStore) .ok .none 0 0 0)

/-- DESTROY_STORE (R102). -/
def execDestroyStore (s : State) : Host.Outcome State Fault Refusal :=
  .next ((s.withKeys []).storeReset.finish (Instr.opcode .destroyStore) .ok .none 0 0 0)

/-- SA_LOOKUP (R106): a miss is not an error. -/
def execSaLookup (s : State) : Host.Outcome State Fault Refusal :=
  match s.store.lookup s.paramId with
  | some k => .next (s.finish (Instr.opcode .saLookup) .ok .none (slotWord k) 0 0)
  | none => .next (s.finish (Instr.opcode .saLookup) .ok .none noSlot 0 0)

/-- SA_ALLOCATE (R107). -/
def execSaAllocate (s : State) : Host.Outcome State Fault Refusal :=
  match s.store.lookup s.paramId with
  | some _ => .next (s.finish (Instr.opcode .saAllocate) .unsuccessful .duplicateId noSlot 0 0)
  | none =>
    match s.store.allocate s.params.saCap s.paramId with
    | none => .next (s.finish (Instr.opcode .saAllocate) .storeFull .storeFull noSlot 0 0)
    | some (k, st) => .next ((s.withStore st).finish (Instr.opcode .saAllocate) .ok .none (slotWord k) 0 0)

/-- SA_RELEASE (R98, R109). -/
def execSaRelease (slot : Nat) (s : State) : Host.Outcome State Fault Refusal :=
  if s.params.saCap ≤ slot then .next (s.illegal (Instr.opcode (.saRelease slot)) .badIndex)
  else .next ((s.withStore (s.store.release slot)).finish (Instr.opcode (.saRelease slot)) .ok .none 0 0 0)

/-- SA_READ (R98, R110): RES0 is the byte count, 121. -/
def execSaRead (slot : Nat) (s : State) : Host.Outcome State Fault Refusal :=
  if s.params.saCap ≤ slot then .next (s.illegal (Instr.opcode (.saRead slot)) .badIndex)
  else .next ((s.memWrite .result 0 (s.store.slot slot).toRecord).finish (Instr.opcode (.saRead slot)) .ok .none 121 0 0)

end Sys2Proof.Machine
end

