-- ==== Sys2Proof/Machine/KeyCollection.lean ====
section
/-! DEFINITION. Key validation, the key collection and its commands (spec/41_key_collection.md R112 to R123). -/

namespace Sys2Proof.Machine

/-- The type and WEP length a TAG stands for, given the record's KEY_LEN: WEP40 and WEP104 become WEP with length 5 and 13
(R114, R115); nothing for any other tag. -/
def tagKind (tag keyLen : Byte) : Option (KeyKind × Byte) :=
  if tag = 1 then some (.wep, keyLen)
  else if tag = 2 then some (.wep, 5)
  else if tag = 3 then some (.wep, 13)
  else if tag = 4 then some (.wpaPwd, keyLen)
  else if tag = 5 then some (.wpaPsk, keyLen)
  else if tag = 6 then some (.wpaPmk, keyLen)
  else none

/-- The length conditions of R114 on a normalized entry. -/
def KeyEntry.lengthsLegal (e : KeyEntry) : Bool :=
  match e.kind with
  | .wep => decide (1 ≤ e.keyLen.toNat ∧ e.keyLen.toNat ≤ 32)
  | .wpaPwd => passLengthsLegal e.passLen.toNat e.ssidLen.toNat
  | .wpaPsk => true
  | .wpaPmk => true

/-- `Validate(rec)` (R114, R115): the normalized record, or nothing when invalid. The reserved bytes are dropped, to be
written 0 (R77). -/
def validate (rec : Bytes) : Option KeyEntry :=
  match tagKind (byteAt rec 0) (byteAt rec 1) with
  | none => none
  | some (kind, keyLen) =>
    let e : KeyEntry :=
      { kind := kind, keyLen := keyLen, passLen := byteAt rec 2, ssidLen := byteAt rec 3
        key := slice rec 8 32, pass := slice rec 40 64, ssid := slice rec 104 32 }
    if e.lengthsLegal then some e else none

/-- The 144-byte record of an entry, its reserved bytes 0 (R77). -/
def KeyEntry.toRecord (e : KeyEntry) : Bytes :=
  [kindByte e.kind, e.keyLen, e.passLen, e.ssidLen] ++ zeros 4 ++ e.key ++ e.pass ++ e.ssid ++ zeros 8

/-- What SET_KEYS stores for a normalized record: a passphrase's KEY field becomes its PSK (R116). -/
def KeyEntry.accept (e : KeyEntry) : KeyEntry :=
  { e with
    key :=
      match e.kind with
      | .wpaPwd => passwordToPsk (slice e.pass 0 e.passLen.toNat) (slice e.ssid 0 e.ssidLen.toNat)
      | .wep => e.key
      | .wpaPsk => e.key
      | .wpaPmk => e.key }

/-- `IsWep(k)` (R113). -/
def isWep (keys : List KeyEntry) (k : Nat) : Bool := (keys[k]?).any fun e => e.kind == .wep

/-- `IsWpa(k)` (R113): WPA_PWD, WPA_PSK and WPA_PMK. -/
def isWpa (keys : List KeyEntry) (k : Nat) : Bool := (keys[k]?).any fun e => e.kind != .wep

/-- `PmkOf(k) = KEY[k].KEY[0 +: 32]` (R113). -/
def pmkOf (keys : List KeyEntry) (k : Nat) : Bytes := ((keys[k]?).map fun e => slice e.key 0 32).getD []

/-- The WEP key bytes `KEY[k].KEY[0 +: KEY[k].KEY_LEN]` (R113). -/
def wepKeyOf (keys : List KeyEntry) (k : Nat) : Bytes := ((keys[k]?).map fun e => slice e.key 0 e.keyLen.toNat).getD []

/-- The candidates of one type class for a slot: its cached key first when it has that type, then the collection in order,
with no deduplication (R123). -/
def candidates (fits : Nat → Bool) (keysNr : Nat) (sl : SaSlot) : List Nat :=
  (if sl.ckValid && fits sl.ckIndex.toNat then [sl.ckIndex.toNat] else []) ++ (List.range keysNr).filter fits

/-- `WepCandidates(s)` (R123). -/
def wepCandidates (keys : List KeyEntry) (sl : SaSlot) : List Nat := candidates (isWep keys) keys.length sl

/-- `WpaCandidates(s)` (R123). -/
def wpaCandidates (keys : List KeyEntry) (sl : SaSlot) : List Nat := candidates (isWpa keys) keys.length sl

/-- KEY_VALIDATE (R117): no PSK derivation. -/
def execKeyValidate (k : Nat) (s : State) : Host.Outcome State Fault Refusal :=
  if s.params.keysMax ≤ k then .next (s.illegal (Instr.opcode (.keyValidate k)) .badIndex)
  else
    match validate (s.stageRec k) with
    | none => .next (s.finish (Instr.opcode (.keyValidate k)) .invalidKey .invalidKey 0 0 0)
    | some e => .next ((s.memWrite .result 0 e.toRecord).finish (Instr.opcode (.keyValidate k)) .ok .none 1 0 0)

/-- The entries SET_KEYS keeps: the valid records among the first `n`, in order (R118). -/
def State.admittedKeys (s : State) (n : Nat) : List KeyEntry :=
  (List.range n).filterMap fun i => (validate (s.stageRec i)).map KeyEntry.accept

/-- SET_KEYS (R118): it also resets the store. -/
def execSetKeys (n : Nat) (s : State) : Host.Outcome State Fault Refusal :=
  if s.params.keysMax < n then
    .next (s.finish (Instr.opcode (.setKeys n)) .unsuccessful .wrongDataSize 0 0 0)
  else
    .next ((s.withKeys (s.admittedKeys n)).storeReset.finish (Instr.opcode (.setKeys n)) .ok .none
      (BitVec.ofNat 32 (s.admittedKeys n).length) 0 0)

/-- GET_KEYS (R119). -/
def execGetKeys (max : Nat) (s : State) : Host.Outcome State Fault Refusal :=
  .next ((s.memWrite .keyOut 0 ((s.keys.take max).flatMap KeyEntry.toRecord)).finish (Instr.opcode (.getKeys max))
    .ok .none (BitVec.ofNat 32 (min max s.keysNr)) 0 0)

/-- CLEAN_KEYS (R120): RES0 is the number of keys removed. -/
def execCleanKeys (s : State) : Host.Outcome State Fault Refusal :=
  .next ((s.withKeys []).storeReset.finish (Instr.opcode .cleanKeys) .ok .none (BitVec.ofNat 32 s.keysNr) 0 0)

end Sys2Proof.Machine
end

