-- ==== Sys2Proof/Machine/Handshake.lean ====
section
/-! DEFINITION. The EAPOL-Key MIC check, its command MIC_CHECK, and the handshake state machine
(spec/43_handshake.md R134 to R148). The handshake works on one slot and answers what becomes of it. -/

namespace Sys2Proof.Machine

/-- `MicCompute(KCK, D, VER)`, 16 bytes: HMAC-MD5 for the legacy version 1, else HMAC-SHA1 cut to 16 (R134). -/
def micCompute (kck d : Bytes) (ver : BitVec 3) : Bytes :=
  if ver = 1 then hmacMd5 kck d else slice (hmacSha1 kck d) 0 16

/-- `MicCheck(D, CLAIMED, KCK, VER)`: all 16 bytes (R134). -/
def micMatches (d claimed kck : Bytes) (ver : BitVec 3) : Bool := decide (micCompute kck d ver = claimed)

/-- `MicData(E, BLEN)`: the EAPOL frame with its MIC field zeroed (R135). -/
def micData (E : Bytes) (blen : Nat) : Bytes := slice E 0 81 ++ zeros 16 ++ slice E 97 (blen - 93)

/-- MIC_CHECK (R136), after its reserved ARG0 bits (R70). -/
def execMicCheck (len : Nat) (s : State) : Host.Outcome State Fault Refusal :=
  if !s.verReservedZero || decide (Config.frameBufLen < len) then
    .next (s.illegal (Instr.opcode (.micCheck len)) .badField)
  else if micMatches (s.frameIn 0 len) (s.param 16 16) (s.param 0 16) s.verOperand then
    .next (s.finish (Instr.opcode (.micCheck len)) .ok .none 1 0 0)
  else .next (s.finish (Instr.opcode (.micCheck len)) .micMismatch .micMismatch 0 0 0)

/-- What a frame does to its SA slot, and what it reports (R146, R193): the slot after, OUTCOME, REASON, RES1, and the
output frame, empty but for a Decrypted outcome. -/
structure FrameResult where
  slot : SaSlot
  outcome : OutcomeCode
  reason : ReasonCode
  res1 : Res1
  out : Bytes
  deriving DecidableEq, Repr

/-- A frame that leaves its slot unchanged and reports no RES1 field (R193). -/
def FrameResult.plain (sl : SaSlot) (o : OutcomeCode) (r : ReasonCode) : FrameResult := ⟨sl, o, r, Res1.zero, []⟩

/-- A handshake step that was taken: HANDSHAKE_STEP_OK with the message number (R146). -/
def FrameResult.step (sl : SaSlot) (msg : BitVec 4) : FrameResult :=
  ⟨sl, .handshakeStepOk, .none, { Res1.zero with hsMsg := msg }, []⟩

/-- Message 1: ANONCE, KEY_VER and STAGE, and no other field (R140). -/
def hsMessage1 (sl : SaSlot) (K : Bytes) : FrameResult :=
  .step { sl with anonce := keyNonce K, keyVer := kiVersion (keyInfo K), stage := .msg1 } 1

/-- The PTK a candidate key gives in message 2 (R131, R142). -/
def candidatePtk (keys : List KeyEntry) (sl : SaSlot) (sn : Bytes) (k : Nat) : Bytes :=
  derivePtk (pmkOf keys k) sl.bssid sl.sta sl.anonce sn Config.ptkBits

/-- The candidate loop of message 2: the first key whose MIC matches, with its PTK (R142). -/
def msg2Search (keys : List KeyEntry) (sl : SaSlot) (sn d claimed : Bytes) (ver : BitVec 3) :
    List Nat → Option (Nat × Bytes)
  | [] => none
  | k :: ks =>
    let P := candidatePtk keys sl sn k
    if micMatches d claimed (slice P 0 16) ver then some (k, P) else msg2Search keys sl sn d claimed ver ks

/-- The slot after a message 2 that key `k` verifies (R142): VALID_KEY is not changed. -/
def msg2Slot (sl : SaSlot) (k : Nat) (P : Bytes) : SaSlot :=
  { sl with ptk := P, ckValid := true, ckIndex := BitVec.ofNat 8 k, stage := .msg2, pnValid := false }

/-- Message 2 (R141 to R143). The MIC uses the version of this frame (D25). -/
def hsMessage2 (keys : List KeyEntry) (sl : SaSlot) (E : Bytes) (blen : Nat) : FrameResult :=
  let K := keyBody E blen
  let L := wpaCandidates keys sl
  if L.isEmpty then .plain sl .noValidHandshake .noKey
  else
    match msg2Search keys sl (keyNonce K) (micData E blen) (keyMic K) (kiVersion (keyInfo K)) L with
    | some (k, P) => ⟨msg2Slot sl k P, .handshakeStepOk, .none, ⟨BitVec.ofNat 8 k, true, .none, 2⟩, []⟩
    | none => .plain sl .noValidHandshake .micMismatch

/-- Message 4: STAGE and VALID_KEY; its MIC is not verified (R144). -/
def hsMessage4 (sl : SaSlot) : FrameResult := .step { sl with stage := .msg4, validKey := true } 4

/-- The class of a body that passed the checks of R138 (R139). -/
def bodyClass (K : Bytes) : MsgClass :=
  classify (kiInstall (keyInfo K)) (kiAck (keyInfo K)) (kiMic (keyInfo K)) (kiSecure (keyInfo K)) (keyDataLen K)

/-- The message of a pairwise body (R139 to R145). -/
def hsMessage (keys : List KeyEntry) (sl : SaSlot) (E : Bytes) (blen : Nat) : FrameResult :=
  match bodyClass (keyBody E blen) with
  | .msg1 => hsMessage1 sl (keyBody E blen)
  | .msg2 => hsMessage2 keys sl E blen
  | .msg3 => .step sl 3
  | .msg4 => hsMessage4 sl
  | .notShape => .plain sl .unsuccessful .none

/-- The descriptor types the engine accepts: 2 (RSN) and 254 (WPA) (R89). -/
def descriptorAccepted (K : Bytes) : Bool := descriptorType K == 2 || descriptorType K == 254

/-- `Handshake(s, E, BLEN)` (R137): the body checks of R138 in their order, then the message. -/
def handshake (keys : List KeyEntry) (sl : SaSlot) (E : Bytes) (blen : Nat) : FrameResult :=
  if blen < 95 then .plain sl .noValidHandshake .badDescriptor
  else if !descriptorAccepted (keyBody E blen) then .plain sl .noValidHandshake .badDescriptor
  else if !kiPairwise (keyInfo (keyBody E blen)) then .plain sl .noValidHandshake .notPairwise
  else hsMessage keys sl E blen

end Sys2Proof.Machine
end

