-- ==== Sys2Proof/Machine/PacketProcessor.lean ====
section
/-! DEFINITION. PROCESS_PACKET (spec/45_packet_processor.md R172 to R196): classification, the SA, the handshake or a
decrypt pipeline. -/

namespace Sys2Proof.Machine

/-- Step 1: the frame view, or nothing when it is empty (R175). `len` is L. -/
def State.frameView (s : State) (fcs rt : Bool) (len : Nat) : Option Bytes :=
  let base := if rt then Config.preambleLen else 0
  let stop := len - fcsLen fcs
  if stop ≤ base then none else some (s.frameIn base (stop - base))

/-- Steps 2 to 4: the SA id of a data frame, or the outcome that ends the command (R176 to R178). -/
def classifyFrame (minCtLen : Nat) (F : Bytes) : Except (OutcomeCode × ReasonCode) SaId :=
  if frameType F ≠ 2 then .error (.notData, .none)
  else if F.length < 2 then .error (.tooShort, .wrongDataSize)
  else if F.length < hdrLen F ∨ F.length < hdrLen F + minCtLen then .error (.tooShort, .wrongDataSize)
  else
    match frameId F with
    | none => .error (.requiredDataMissing, .none)
    | some id => .ok id

/-- Whether the cleartext payload at `h` has the EAPOL-Key shape: signature, type 3, and a body that fits (R182). -/
def eapolKeyShape (F : Bytes) (h : Nat) : Bool :=
  decide (h + 8 ≤ F.length) && decide (slice F h 8 = eapolSignature) &&
    decide (h + 12 ≤ F.length) && eapolType (F.drop (h + 8)) == 3 &&
    decide (eapolBodyLen (F.drop (h + 8)) ≤ F.length - (h + 12))

/-- The cleartext path (R181 to R183). -/
def cleartextPath (keys : List KeyEntry) (hs : Bool) (F : Bytes) (h : Nat) (sl : SaSlot) : FrameResult :=
  if !hs then .plain sl .noDataEncrypted .none
  else if !eapolKeyShape F h then .plain sl .noDataEncrypted .none
  else handshake keys sl (F.drop (h + 8)) (eapolBodyLen (F.drop (h + 8)))

/-- The WEP loop over the candidates (R187): the first key that verifies with its payload, else the last reason; `last` is
the reason so far. -/
def wepLoop (keys : List KeyEntry) (W : Bytes) (h : Nat) : PipeFail → List Nat → Except PipeFail (Nat × Bytes)
  | last, [] => .error last
  | _, k :: ks =>
    match wepTry W h (wepKeyOf keys k) with
    | .ok P => .ok (k, P)
    | .error e => wepLoop keys W h e ks

/-- The WEP path (R186, R187): the key that worked is cached. -/
def wepPath (keys : List KeyEntry) (fcs : Bool) (W : Bytes) (h : Nat) (sl : SaSlot) : FrameResult :=
  let L := wepCandidates keys sl
  if L.isEmpty then .plain sl .unsuccessful .noKey
  else
    match wepLoop keys W h .icvMismatch L with
    | .ok (k, P) =>
      ⟨{ sl with ckValid := true, ckIndex := BitVec.ofNat 8 k }, .ok, .none, ⟨BitVec.ofNat 8 k, true, .wep, 0⟩,
        outputFrame W h P fcs⟩
    | .error e => .plain sl .unsuccessful (pipeReason e)

/-- `TK = PTK[32 +: 16]` (R36, R188). -/
def SaSlot.tk (sl : SaSlot) : Bytes := slice sl.ptk 32 16

/-- An RSNA success (R191): the slot after is `sl'`, which differs from the slot in its replay state only. -/
def rsnaOk (sl sl' : SaSlot) (cipher : Cipher) (out : Bytes) : FrameResult :=
  ⟨sl', .ok, .none, ⟨sl.ckIndex, true, cipher, 0⟩, out⟩

/-- The slot after an accepted packet number (R165). -/
def acceptPn (replayEn : Bool) (pn : BitVec 48) (sl : SaSlot) : SaSlot :=
  if replayEn then { sl with pn := pn, pnValid := true } else sl

/-- Whether the replay check rejects a packet number (R165): equal numbers are rejected. -/
def replayRejects (replayEn : Bool) (pn : BitVec 48) (sl : SaSlot) : Bool := replayEn && sl.pnValid && pn.ule sl.pn

/-- The RSNA path (R188 to R191). -/
def rsnaPath (replayEn fcs : Bool) (W : Bytes) (h : Nat) (sl : SaSlot) : FrameResult :=
  if !sl.ckValid then .plain sl .unsuccessful .noCachedKey
  else if !sl.validKey then .plain sl .unsuccessful .keyNotValid
  else if sl.keyVer = 1 then
    match tkipTry W h sl.tk with
    | .error e => .plain sl .unsuccessful (pipeReason e)
    | .ok P => rsnaOk sl sl .tkip (outputFrame W h P fcs)
  else
    match ccmpTry W h sl.tk with
    | .error e => .plain sl .unsuccessful (pipeReason e)
    | .ok P =>
      if replayRejects replayEn (ccmpPn W h) sl then .plain sl .unsuccessful .replay
      else rsnaOk sl (acceptPn replayEn (ccmpPn W h) sl) .ccmp (outputFrame W h P fcs)

/-- The protected path (R184, R185). -/
def protectedPath (keys : List KeyEntry) (replayEn fcs dec : Bool) (F : Bytes) (h : Nat) (sl : SaSlot) : FrameResult :=
  if !dec then .plain sl .unsuccessful .none
  else if F.length < h + 4 then .plain sl .unsuccessful .wrongDataSize
  else if extIv F h then rsnaPath replayEn fcs F h sl
  else wepPath keys fcs F h sl

/-- Steps 6 and 7: what a classified frame does to its slot (R180). -/
def dispatchFrame (keys : List KeyEntry) (replayEn fcs hs dec : Bool) (F : Bytes) (sl : SaSlot) : FrameResult :=
  if frameProtected F then protectedPath keys replayEn fcs dec F (hdrLen F) sl
  else cleartextPath keys hs F (hdrLen F) sl

/-- Steps 5 to 8 for a frame whose id is known: find or create the SA, dispatch, and report (R179, R180, R193). -/
def State.processData (s : State) (opc : Byte) (fcs hs dec : Bool) (F : Bytes) (id : SaId) : State :=
  match s.store.lookupOrAllocate s.params.saCap id with
  | none => s.finishFrame opc .unsuccessful .storeFull noSlot Res1.zero []
  | some (k, st) =>
    let r := dispatchFrame s.keys s.replayEn fcs hs dec F (st.slot k)
    (s.withStore (st.setSlot k r.slot)).finishFrame opc r.outcome r.reason (slotWord k) r.res1 r.out

/-- PROCESS_PACKET (R172, R174 to R193). -/
def execProcessPacket (fcs rt hs dec : Bool) (len : Nat) (s : State) : Host.Outcome State Fault Refusal :=
  let opc := Instr.opcode (.processPacket fcs rt hs dec len)
  if Config.frameBufLen < len then .next (s.illegal opc .badField)
  else
    match s.frameView fcs rt len with
    | none => .next (s.finishFrame opc .unsuccessful .wrongDataSize noSlot Res1.zero [])
    | some F =>
      match classifyFrame s.params.minCtLen F with
      | .error e => .next (s.finishFrame opc e.1 e.2 noSlot Res1.zero [])
      | .ok id => .next (s.processData opc fcs hs dec F id)

end Sys2Proof.Machine
end

