-- ==== Sys2Proof/Machine/Dispatch.lean ====
section
/-! DEFINITION. One arm per command of spec/opcode_table.json (R68). -/

namespace Sys2Proof.Machine

def exec (i : Instr) (s : State) : Host.Outcome State Fault Refusal :=
  match i with
  | .initStore => Sys2Proof.Machine.execInitStore s
  | .destroyStore => Sys2Proof.Machine.execDestroyStore s
  | .setKeys n => Sys2Proof.Machine.execSetKeys n s
  | .getKeys max => Sys2Proof.Machine.execGetKeys max s
  | .cleanKeys => Sys2Proof.Machine.execCleanKeys s
  | .keyValidate k => Sys2Proof.Machine.execKeyValidate k s
  | .saLookup => Sys2Proof.Machine.execSaLookup s
  | .saAllocate => Sys2Proof.Machine.execSaAllocate s
  | .saRelease slot => Sys2Proof.Machine.execSaRelease slot s
  | .saRead slot => Sys2Proof.Machine.execSaRead slot s
  | .pskDerive => Sys2Proof.Machine.execPskDerive s
  | .ptkDerive => Sys2Proof.Machine.execPtkDerive s
  | .micCheck len => Sys2Proof.Machine.execMicCheck len s
  | .wepDecrypt fcs len => Sys2Proof.Machine.execWepDecrypt fcs len s
  | .tkipDecrypt fcs len => Sys2Proof.Machine.execTkipDecrypt fcs len s
  | .ccmpDecrypt fcs len => Sys2Proof.Machine.execCcmpDecrypt fcs len s
  | .processPacket fcs rt hs dec len => Sys2Proof.Machine.execProcessPacket fcs rt hs dec len s

end Sys2Proof.Machine
end

