-- ==== Sys2Proof/Machine/Step.lean ====
section
/-! DEFINITION. One step: the host's next access, and the command it starts, as one atomic step
(spec/10_state.md R15, R17; spec/20_memory.md R57, R58). -/

namespace Sys2Proof.Machine

/-- The command of a CMD write, or the illegal command the word is (R17, R70). -/
def runCommand (w : Word) (s : State) : Host.Outcome State Fault Refusal :=
  match decodeWord w with
  | .ok i => exec i s
  | .error e => .next (s.undecoded e)

/-- One step of the machine: one host access (R58). With no access pending it waits, unchanged (R15, log 13). -/
def step (s : State) : Host.Outcome State Fault Refusal :=
  match nextAccess s with
  | .done t => .next t
  | .command w t => runCommand w t
  | .refused r => .refused r

/-- `s` with the instruction whose bits are the low `nbits` bits of `w` where the next step takes it: the host's next
access is the CMD write of that word (log 1). -/
def State.withFetchWord (s : State) (nbits w : Nat) : State := s.withCommand (BitVec.ofNat 32 (w % 2 ^ nbits))

end Sys2Proof.Machine
end

