-- ==== Sys2Proof/Safety.lean ====
section
/-! DEFINITION. What counts as a good state and a good step, in the terms statements use: the invariants of
spec/10_state.md R40 and spec/41_key_collection.md R121 with the widths and ranges the spec gives the state, the frame
predicates of a command, and the encryptors that the pipelines invert (spec/44_cipher_pipelines.md R166). -/

namespace Sys2Proof.Machine

/-- The admitted parameters (R5, U11, U12). -/
def paramsLegal (p : Params) : Prop := 1 ≤ p.saCap ∧ p.saCap ≤ 65535 ∧ 1 ≤ p.keysMax ∧ p.keysMax ≤ 64

/-- The widths of a slot's byte strings (R28). -/
def SaSlot.widths (sl : SaSlot) : Prop :=
  sl.bssid.length = 6 ∧ sl.sta.length = 6 ∧ sl.anonce.length = 32 ∧ sl.ptk.length = 64

/-- I1: every used slot is at most LSI (R40). -/
def SaStore.usedBelowLsi (st : SaStore) : Prop := ∀ k, (st.slot k).used = true → (k : Int) ≤ st.lsi

/-- I2: no two used slots have the same id (R40). -/
def SaStore.idsDistinct (st : SaStore) : Prop :=
  ∀ j k, (st.slot j).used = true → (st.slot k).used = true → (st.slot j).id = (st.slot k).id → j = k

/-- I3: every slot below FFI is used (R40). -/
def SaStore.usedBelowFfi (st : SaStore) : Prop := ∀ k, k < st.ffi → (st.slot k).used = true

/-- The table has SA_CAP slots, FFI lies in 0..SA_CAP and LSI in -1..SA_CAP-1 (R6, R28, R38, R39). -/
def SaStore.inRange (st : SaStore) (cap : Nat) : Prop :=
  st.slots.length = cap ∧ st.ffi ≤ cap ∧ -1 ≤ st.lsi ∧ st.lsi < cap

/-- The SA store is sound: I1, I2, I3 and the ranges and widths the spec gives it. -/
structure SaStore.Sound (st : SaStore) (cap : Nat) : Prop where
  inRange : st.inRange cap
  widths : ∀ k, (st.slot k).widths
  usedBelowLsi : st.usedBelowLsi
  idsDistinct : st.idsDistinct
  usedBelowFfi : st.usedBelowFfi

/-- The widths and length ranges of a normalized entry (R77, R114). -/
def KeyEntry.sound (e : KeyEntry) : Prop :=
  e.key.length = 32 ∧ e.pass.length = 64 ∧ e.ssid.length = 32 ∧ e.lengthsLegal = true

/-- At most KEYS_MAX live entries, each of them normalized and valid (R41). -/
def keysSound (p : Params) (keys : List KeyEntry) : Prop := keys.length ≤ p.keysMax ∧ ∀ e ∈ keys, e.sound

/-- R121: whenever CK_VALID = 1, CK_INDEX < KEYS_NR. -/
def cachedKeysLive (st : SaStore) (keys : List KeyEntry) : Prop :=
  ∀ k, (st.slot k).ckValid = true → (st.slot k).ckIndex.toNat < keys.length

/-- CK_INDEX is 0 when CK_VALID = 0 (R78). -/
def uncachedZero (st : SaStore) : Prop := ∀ k, (st.slot k).ckValid = false → (st.slot k).ckIndex = 0

/-- The buffers' memory is canonical and holds bytes of the six buffers only (R52). -/
def memSound (p : Params) (m : Memory) : Prop := m.wf ∧ ∀ c ∈ m, ∃ b : Buffer, b.contains p c.1 = true

/-- The bits the spec fixes at 0: CTRL[31:1] (R23), STATUS.BUSY and STATUS[23:18] (R19), RES1[31:16] (R21). -/
def registersSound (s : State) : Prop :=
  s.ctrl.extractLsb' 1 31 = 0 ∧ statusBusy s.status = false ∧ s.status.extractLsb' 18 6 = 0 ∧
    s.res1.extractLsb' 16 16 = 0

/-- The invariant of the whole machine. -/
structure State.Inv (s : State) : Prop where
  params : paramsLegal s.params
  store : s.store.Sound s.params.saCap
  keys : keysSound s.params s.keys
  cached : cachedKeysLive s.store s.keys
  uncached : uncachedZero s.store
  mem : memSound s.params s.mem
  registers : registersSound s

/-- The four result registers hold what `finish(OUTCOME, REASON)` reports (R9, R76). -/
structure State.Reports (t : State) (opc : Byte) (o : OutcomeCode) (r : ReasonCode) (res0 res1 outLen : Word) :
    Prop where
  status : t.status = statusWord opc o r
  res0 : t.res0 = res0
  res1 : t.res1 = res1
  outLen : t.outLen = outLen

/-- The state a command never writes: CMD, ARG0, CTRL, the parameters, the host's queue and its last read value (R17, R18,
R23). -/
structure State.SameControl (s t : State) : Prop where
  cmd : t.cmd = s.cmd
  arg0 : t.arg0 = s.arg0
  ctrl : t.ctrl = s.ctrl
  params : t.params = s.params
  host : t.host = s.host
  hostData : t.hostData = s.hostData

/-- Every buffer byte reads as before. -/
def State.SameBuffers (s t : State) : Prop := ∀ a, t.readByte a = s.readByte a

/-- Every buffer byte outside `[lo, lo + n)` reads as before. -/
def State.SameBuffersBut (s t : State) (lo n : Nat) : Prop := ∀ a, a < lo ∨ lo + n ≤ a → t.readByte a = s.readByte a

/-- Every buffer byte outside FRAME_OUT reads as before (R64, the rows of the frame commands). -/
def State.SameBuffersButFrameOut (s t : State) : Prop := State.SameBuffersBut s t (Buffer.base .frameOut) Config.frameBufLen

/-- Nothing but the result registers differs (R70, R199). -/
structure State.SameButResults (s t : State) : Prop where
  control : s.SameControl t
  store : t.store = s.store
  keys : t.keys = s.keys
  buffers : s.SameBuffers t

/-- Offset `a` is a byte of a buffer, by the window map of R52: FRAME_IN, FRAME_OUT, KEY_STAGE, KEY_OUT, PARAM or RESULT. -/
def bufferOffset (p : Params) (a : Nat) : Prop :=
  (0x1000 ≤ a ∧ a < 0x2000) ∨ (0x2000 ≤ a ∧ a < 0x3000) ∨ (0x3000 ≤ a ∧ a < 0x3000 + 144 * p.keysMax) ∨
    (0x6000 ≤ a ∧ a < 0x6000 + 144 * p.keysMax) ∨ (0x9000 ≤ a ∧ a < 0x9100) ∨ (0x9100 ≤ a ∧ a < 0x9200)

/-- Offset `a` is a byte of a buffer the host may write, by the window map of R52: FRAME_IN, KEY_STAGE or PARAM. -/
def writableOffset (p : Params) (a : Nat) : Prop :=
  (0x1000 ≤ a ∧ a < 0x2000) ∨ (0x3000 ≤ a ∧ a < 0x3000 + 144 * p.keysMax) ∨ (0x9000 ≤ a ∧ a < 0x9100)

/-- The host accesses R55 calls legal: 32-bit aligned accesses of the window, 8-bit accesses of it outside the registers.
The platform's reset (R211) is always legal. -/
def HostAccess.legal : HostAccess → Prop
  | .rd8 off => 0x1000 ≤ off ∧ off < 0x10000
  | .rd32 off => off < 0x10000 ∧ off % 4 = 0
  | .wr8 off _ => 0x1000 ≤ off ∧ off < 0x10000
  | .wr32 off _ => off < 0x10000 ∧ off % 4 = 0
  | .otherWidth _ _ => False
  | .reset => True

/-- The (OUTCOME, REASON) pairs a PROCESS_PACKET can report (R173, R198). -/
def processPairs : List (OutcomeCode × ReasonCode) :=
  [(.ok, .none), (.handshakeStepOk, .none), (.notData, .none), (.tooShort, .wrongDataSize),
    (.requiredDataMissing, .none),
    (.noValidHandshake, .badDescriptor), (.noValidHandshake, .notPairwise), (.noValidHandshake, .noKey),
    (.noValidHandshake, .micMismatch), (.noDataEncrypted, .none),
    (.unsuccessful, .wrongDataSize), (.unsuccessful, .storeFull), (.unsuccessful, .none), (.unsuccessful, .icvMismatch),
    (.unsuccessful, .micMismatch), (.unsuccessful, .replay),
    (.unsuccessful, .noKey), (.unsuccessful, .noCachedKey), (.unsuccessful, .keyNotValid), (.illegalCommand, .badField)]

/-- The (OUTCOME, REASON) pairs a decoded command can report, by the table of R198 and the command's own rule. -/
def outcomePairs : Instr → List (OutcomeCode × ReasonCode)
  | .initStore => [(.ok, .none)]
  | .destroyStore => [(.ok, .none)]
  | .setKeys _ => [(.ok, .none), (.unsuccessful, .wrongDataSize)]
  | .getKeys _ => [(.ok, .none)]
  | .cleanKeys => [(.ok, .none)]
  | .keyValidate _ => [(.ok, .none), (.invalidKey, .invalidKey), (.illegalCommand, .badIndex)]
  | .saLookup => [(.ok, .none)]
  | .saAllocate => [(.ok, .none), (.unsuccessful, .duplicateId), (.storeFull, .storeFull)]
  | .saRelease _ => [(.ok, .none), (.illegalCommand, .badIndex)]
  | .saRead _ => [(.ok, .none), (.illegalCommand, .badIndex)]
  | .pskDerive => [(.ok, .none), (.illegalCommand, .badField)]
  | .ptkDerive => [(.ok, .none), (.illegalCommand, .badField)]
  | .micCheck _ => [(.ok, .none), (.micMismatch, .micMismatch), (.illegalCommand, .badField)]
  | .wepDecrypt _ _ =>
    [(.ok, .none), (.tooShort, .wrongDataSize), (.icvMismatch, .icvMismatch), (.illegalCommand, .badField)]
  | .tkipDecrypt _ _ =>
    [(.ok, .none), (.tooShort, .wrongDataSize), (.icvMismatch, .icvMismatch), (.illegalCommand, .badField)]
  | .ccmpDecrypt _ _ =>
    [(.ok, .none), (.tooShort, .wrongDataSize), (.micMismatch, .micMismatch), (.illegalCommand, .badField)]
  | .processPacket _ _ _ _ _ => processPairs

/-- The buffer bytes a command may write: first offset and count (R64). A frame command's row is all of FRAME_OUT, whose
bytes from OUT_LEN up hold any value afterwards. -/
def bufferRow (i : Instr) (s : State) : Nat × Nat :=
  match i with
  | .initStore => (0, 0)
  | .destroyStore => (0, 0)
  | .setKeys _ => (0, 0)
  | .getKeys max => (Buffer.base .keyOut, 144 * min max s.keysNr)
  | .cleanKeys => (0, 0)
  | .keyValidate _ => (Buffer.base .result, 144)
  | .saLookup => (0, 0)
  | .saAllocate => (0, 0)
  | .saRelease _ => (0, 0)
  | .saRead _ => (Buffer.base .result, 121)
  | .pskDerive => (Buffer.base .result, 32)
  | .ptkDerive => (Buffer.base .result, s.nbits / 8)
  | .micCheck _ => (0, 0)
  | .wepDecrypt _ _ => (Buffer.base .frameOut, Config.frameBufLen)
  | .tkipDecrypt _ _ => (Buffer.base .frameOut, Config.frameBufLen)
  | .ccmpDecrypt _ _ => (Buffer.base .frameOut, Config.frameBufLen)
  | .processPacket _ _ _ _ _ => (Buffer.base .frameOut, Config.frameBufLen)

/-- The frame view `F` of PROCESS_PACKET with operands `fcs`, `rt` and `len` (R174, R175): neither too long nor empty. -/
structure State.Views (s : State) (fcs rt : Bool) (len : Nat) (F : Bytes) : Prop where
  bound : len ≤ Config.frameBufLen
  nonempty : (if rt then Config.preambleLen else 0) < len - fcsLen fcs
  view : F = s.frameIn (if rt then Config.preambleLen else 0)
    (len - fcsLen fcs - (if rt then Config.preambleLen else 0))

/-- A data frame that passes classification, with its SA id (R176 to R178). -/
structure State.DataFrame (s : State) (fcs rt : Bool) (len : Nat) (F : Bytes) (id : SaId) : Prop where
  views : s.Views fcs rt len F
  data : frameType F = 2
  twoBytes : 2 ≤ F.length
  long : hdrLen F + s.params.minCtLen ≤ F.length
  ident : frameId F = some id

/-- Slot `k`, with contents `sl`, is the SA that `id` reaches (R108): its used slot, or else the first free slot from FFI
on, zeroed and given the id. -/
def SaStore.saFor (st : SaStore) (cap : Nat) (id : SaId) (k : Nat) (sl : SaSlot) : Prop :=
  (k < cap ∧ (st.slot k).used = true ∧ (st.slot k).id = id ∧ sl = st.slot k) ∨
    ((∀ j, (st.slot j).used = true → (st.slot j).id ≠ id) ∧ st.ffi ≤ k ∧ k < cap ∧
      (∀ j, st.ffi ≤ j → j < k → (st.slot j).used = true) ∧ (st.slot k).used = false ∧ sl = freshSlot id)

/-- The store after a command that wrote slot `k` only: its contents are `sl`, and FFI and LSI move only if the slot was
allocated, that is, was free before (R104, R172). -/
structure SaStore.Wrote (st st' : SaStore) (k : Nat) (sl : SaSlot) : Prop where
  length : st'.slots.length = st.slots.length
  slot : st'.slot k = sl
  others : ∀ j, j ≠ k → st'.slot j = st.slot j
  ffi : st'.ffi = if (st.slot k).used then st.ffi else k + 1
  lsi : st'.lsi = if (st.slot k).used then st.lsi else max st.lsi k

/-- PROCESS_PACKET with operands `fcs`, `rt` and `len` reaches slot `k`, with contents `sl`, for the frame `F`, from a state
that meets the invariant (R174 to R179). -/
structure State.Reaches (s : State) (fcs rt : Bool) (len : Nat) (F : Bytes) (k : Nat) (sl : SaSlot) : Prop where
  inv : s.Inv
  frame : ∃ id, s.DataFrame fcs rt len F id ∧ s.store.saFor s.params.saCap id k sl

/-- What a frame command leaves alone: the control state, the key collection and every buffer but FRAME_OUT (R196). -/
structure State.FrameOnly (s t : State) : Prop where
  control : s.SameControl t
  keys : t.keys = s.keys
  buffers : s.SameBuffersButFrameOut t

/-- The frame carries an EAPOL-Key body `K` behind its LLC/SNAP signature, in the EAPOL frame `E` (R85, R86, R182). -/
structure EapolKey (F E K : Bytes) : Prop where
  signature : slice F (hdrLen F) 8 = eapolSignature
  eapol : E = F.drop (hdrLen F + 8)
  header : 4 ≤ E.length
  type : byteAt E 1 = 3
  fits : 4 + (be16 E 2).toNat ≤ E.length
  body : K = slice E 4 (be16 E 2).toNat

/-- The body passes the handshake's checks: long enough, an accepted descriptor, pairwise (R138). -/
structure PairwiseBody (K : Bytes) : Prop where
  long : 95 ≤ K.length
  descriptor : byteAt K 0 = 2 ∨ byteAt K 0 = 254
  pairwise : kiPairwise (keyInfo K) = true

/-- FRAME_OUT[0 +: OUT_LEN] holds `out` (R22, R150). -/
def State.FrameOutHolds (t : State) (out : Bytes) : Prop := t.memRead .frameOut 0 out.length = out

/-- WEP encryption of `D` behind a header: IV, KeyID octet, and RC4 over the data and its ICV (R166). -/
def wepEncrypt (hdr iv wkey D : Bytes) (keyId : Byte) : Bytes :=
  hdr ++ iv ++ keyId :: rc4 (iv ++ wkey) (D ++ le32Bytes (crc32 D))

/-- TKIP encryption of `D` and 8 bytes `mic` behind a header and an 8-byte TKIP header `ch` (R166). -/
def tkipEncrypt (hdr ch tk D mic : Bytes) : Bytes :=
  hdr ++ ch ++
    rc4 (tkipSeed (hdr ++ ch) hdr.length tk) ((D ++ mic) ++ le32Bytes (crc32 (D ++ mic)))

/-- The payload blocks of CCM encryption: the ciphertext and the final X; the MAC runs over the plaintext (RFC 3610, the
inverse of R163). -/
def ccmEncryptBlocks (tk nonce : Bytes) : Nat → Nat → Bytes → Bytes → Bytes × Bytes
  | 0, _, _, x => ([], x)
  | n + 1, i, D, x =>
    let rest := ccmEncryptBlocks tk nonce n (i + 1) (D.drop 16) (ccmMacStep tk x (D.take 16))
    (xorBytes (D.take 16) (ccmKeystream tk nonce i) ++ rest.1, rest.2)

/-- CCM encryption of `D`: ciphertext and 8-byte MIC (R166). -/
def ccmEncrypt (tk nonce aad D : Bytes) : Bytes :=
  let r := ccmEncryptBlocks tk nonce ((D.length + 15) / 16) 1 D (ccmMacStart tk nonce aad D.length)
  r.1 ++ ccmTag tk nonce r.2

/-- CCMP encryption of `D` behind a header and an 8-byte CCMP header `ch`, with the nonce and the AAD of that header
(R166). -/
def ccmpEncrypt (hdr ch tk D : Bytes) : Bytes :=
  hdr ++ ch ++
    ccmEncrypt tk (ccmpNonce (hdr ++ ch) (ccmpPn (hdr ++ ch) hdr.length)) (ccmpAad (hdr ++ ch)) D

end Sys2Proof.Machine
end

