-- ==== Sys2Proof/Certificates/Slice0/Obligations.lean ====
section
/-! DEFINITION. The statements for the provers. Each docstring is the statement in words, with the rules it formalises; the
proofs are not here. -/

open Sys2Proof
open Sys2Proof.Machine

/-- For every command whose IMM operand fits 16 bits, the decoder reads from its encoded CMD word exactly that
command, with every operand and every flag. (Rests on R66, R67, R68, R69, R71.) -/
def Obligations.DecodeEncodeRoundTrip : Prop :=
  ∀ i : Instr, i.wellFormed = true → decodeWord (encode i) = .ok i

/-- Every 32-bit word that the decoder accepts decodes to a well-formed command, and encoding that command gives the
word back: no accepted word has a bit that the command does not carry. (Rests on R66, R67, R69, R70, R71.) -/
def Obligations.EncodeDecodeRoundTrip : Prop :=
  ∀ (w : Word) (i : Instr), decodeWord w = .ok i → i.wellFormed = true ∧ encode i = w

/-- Words written out from the bit positions of the command format and the opcode map decode to their commands: one of
each family, with the example words of R73, R109 and R102. (Rests on R66, R68, R69, R73.) -/
def Obligations.SpecWordsDecode : Prop :=
  decodeWord 0x00000001 = .ok .initStore ∧
  decodeWord 0x00000002 = .ok .destroyStore ∧
  decodeWord 0x00030003 = .ok (.setKeys 3) ∧
  decodeWord 0x00010012 = .ok (.saRelease 1) ∧
  decodeWord 0x00000021 = .ok .ptkDerive ∧
  decodeWord 0x00630022 = .ok (.micCheck 99) ∧
  decodeWord 0x003C0130 = .ok (.wepDecrypt true 60) ∧
  decodeWord 0x00480031 = .ok (.tkipDecrypt false 72) ∧
  decodeWord 0xFFFF0132 = .ok (.ccmpDecrypt true 65535) ∧
  decodeWord 0x00830C40 = .ok (.processPacket false false true true 131) ∧
  decodeWord 0x00830340 = .ok (.processPacket true true false false 131)

/-- For every word whose OPC is 0x00, 0x07..0x0F, 0x14..0x1F, 0x23..0x2F, 0x33..0x3F or 0x41..0xFF, in every state,
the command finishes with ILLEGAL_COMMAND / BAD_OPCODE, RES0 = RES1 = OUT_LEN = 0, LAST_OPC the OPC, and nothing but
the result registers changes. (Rests on R70, R72.) -/
def Obligations.ReservedOpcodesAreIllegal : Prop :=
  ∀ (w : Word) (s : State),
    let n := (opcField w).toNat
    (n = 0x00 ∨ (0x07 ≤ n ∧ n ≤ 0x0F) ∨ (0x14 ≤ n ∧ n ≤ 0x1F) ∨ (0x23 ≤ n ∧ n ≤ 0x2F) ∨ (0x33 ≤ n ∧ n ≤ 0x3F) ∨
      0x41 ≤ n) →
    ∃ t, runCommand w s = .next t ∧ t.Reports (opcField w) .illegalCommand .badOpcode 0 0 0 ∧ s.SameButResults t

/-- In every state: a word whose OPC takes no IMM and no FLAGS but has one of them nonzero, whose OPC takes an IMM and
no FLAGS but has FLAGS nonzero, a standalone pipeline word with FLAGS[7:1] nonzero, and a PROCESS_PACKET word with
FLAGS[7:4] nonzero finish with ILLEGAL_COMMAND / BAD_FIELD; so do PTK_DERIVE with ARG0[31:16] nonzero, MIC_CHECK with
ARG0[31:3] nonzero and the three pipeline commands with ARG0[31:8] nonzero. The result words are 0 and nothing but the
result registers changes. (Rests on R18, R69, R70, R72.) -/
def Obligations.ReservedFieldsAreIllegal : Prop :=
  (∀ (w : Word) (s : State),
    ((opcField w ∈ [0x01#8, 0x02#8, 0x05#8, 0x10#8, 0x11#8, 0x20#8, 0x21#8] ∧ w.extractLsb' 8 24 ≠ 0) ∨
      (opcField w ∈ [0x03#8, 0x04#8, 0x06#8, 0x12#8, 0x13#8, 0x22#8] ∧ flagsField w ≠ 0) ∨
      (opcField w ∈ [0x30#8, 0x31#8, 0x32#8] ∧ flagsField w &&& 0xFE#8 ≠ 0) ∨
      (opcField w = 0x40#8 ∧ flagsField w &&& 0xF0#8 ≠ 0)) →
    ∃ t, runCommand w s = .next t ∧ t.Reports (opcField w) .illegalCommand .badField 0 0 0 ∧ s.SameButResults t) ∧
  (∀ (i : Instr) (s : State),
    ((i = .ptkDerive ∧ s.arg0.extractLsb' 16 16 ≠ 0) ∨
      (∃ len, i = .micCheck len ∧ s.arg0.extractLsb' 3 29 ≠ 0) ∨
      (∃ fcs len, (i = .wepDecrypt fcs len ∨ i = .tkipDecrypt fcs len ∨ i = .ccmpDecrypt fcs len) ∧
        s.arg0.extractLsb' 8 24 ≠ 0)) →
    ∃ t, exec i s = .next t ∧ t.Reports i.opcode .illegalCommand .badField 0 0 0 ∧ s.SameButResults t)

/-- When the host's next access is a 32-bit write of w to offset 0x000, step is runCommand of w on the state in which
CMD holds w and the access is gone from the queue, for every word w; where w decodes to the command i that is exec of
i on that state; and the step always answers a next state in which CMD holds w. What runCommand does with a word that
decodes to nothing, ReservedOpcodesAreIllegal and ReservedFieldsAreIllegal say. The host queue is the model's (log 1).
(Rests on R15, R17, R57, R70, R72.) -/
def Obligations.StepRunsDecodedCommand : Prop :=
  ∀ (s : State) (w : Word) (rest : List HostAccess), s.host = .wr32 0x000 w :: rest →
    step s = runCommand w { s with host := rest, cmd := w } ∧
      (∀ i, decodeWord w = .ok i → step s = exec i { s with host := rest, cmd := w }) ∧
      ∃ t, step s = .next t ∧ t.cmd = w ∧ t.host = rest

/-- In every state, a 32-bit host read of 0x000, 0x004, 0x00C, 0x010, 0x014, 0x018 and 0x01C returns CMD, ARG0,
STATUS, RES0, RES1, OUT_LEN and CTRL; 0x020 returns VERSION 1, KEYS_MAX and SA_CAP; 0x024 returns MIN_CT_LEN where it
fits 32 bits; 0x008 and the aligned offsets 0x028..0xFFC return 0. Nothing changes but the value the host holds (log
2). (Rests on R16, R24, R25, R26.) -/
def Obligations.RegisterReads : Prop :=
  ∀ (s : State) (rest : List HostAccess),
    let reads (off : Nat) (v : Word) : Prop :=
      step { s with host := .rd32 off :: rest } = .next { s with host := rest, hostData := some v }
    reads 0x000 s.cmd ∧ reads 0x004 s.arg0 ∧ reads 0x00C s.status ∧ reads 0x010 s.res0 ∧ reads 0x014 s.res1 ∧
      reads 0x018 s.outLen ∧ reads 0x01C s.ctrl ∧
      reads 0x020 (0x01#8 ++ BitVec.ofNat 8 s.params.keysMax ++ BitVec.ofNat 16 s.params.saCap) ∧
      (s.params.minCtLen < 2 ^ 32 → reads 0x024 (BitVec.ofNat 32 s.params.minCtLen)) ∧
      ∀ off, off % 4 = 0 → (off = 0x008 ∨ (0x028 ≤ off ∧ off < 0x1000)) → reads off 0

/-- In every state, a 32-bit host write to 0x004 stores the value in ARG0; a write to 0x01C leaves CTRL with bit 0 of
the value and zeros above; a write to STATUS, RES0, RES1, OUT_LEN, ID, MINCT or a reserved register offset is ignored.
Nothing else changes: in particular a CTRL write does not reset the SA state. R23 describes CTRL where the replay
option exists (REPLAY_IMPL = 1); that bit 0 stores in the same way with REPLAY_IMPL = 0 is the model's choice (log
12). (Rests on R16, R18, R23, R26.) -/
def Obligations.RegisterWrites : Prop :=
  ∀ (s : State) (rest : List HostAccess) (v : Word),
    let writes (off : Nat) (t : State) : Prop := step { s with host := .wr32 off v :: rest } = .next { t with host := rest }
    writes 0x004 { s with arg0 := v } ∧
      writes 0x01C { s with ctrl := (v.extractLsb' 0 1).setWidth 32 } ∧
      ∀ off, off % 4 = 0 → off ∈ [0x008, 0x00C, 0x010, 0x014, 0x018, 0x020, 0x024] ∨ (0x028 ≤ off ∧ off < 0x1000) →
        writes off s

/-- With admitted parameters, at every offset a of the six buffers (FRAME_IN, FRAME_OUT, KEY_STAGE, KEY_OUT, PARAM,
RESULT): an 8-bit host read returns the buffer byte a, zero-extended in the value the host holds (log 2), and, with a
aligned, a 32-bit read returns the word whose bits 8k+7..8k are the buffer byte a+k; no read changes anything else. A
32-bit host write of v at an aligned offset a of FRAME_IN, KEY_STAGE or PARAM stores bits 8k+7..8k of v in byte a+k
for k = 0..3 and no other byte; a 32-bit read of a then returns v, and an 8-bit read of a+k returns bits 8k+7..8k.
(Rests on R43, R47, R52.) -/
def Obligations.HostWordsAreLittleEndian : Prop :=
  ∀ (s : State) (rest : List HostAccess) (a : Nat), paramsLegal s.params →
    (bufferOffset s.params a →
      step { s with host := .rd8 a :: rest } =
          .next { s with host := rest, hostData := some ((s.readByte a).setWidth 32) } ∧
        (a % 4 = 0 → step { s with host := .rd32 a :: rest } =
          .next { s with
            host := rest
            hostData := some (s.readByte (a + 3) ++ s.readByte (a + 2) ++ s.readByte (a + 1) ++ s.readByte a) })) ∧
    (writableOffset s.params a → a % 4 = 0 → ∀ v : Word,
      ∃ t, step { s with host := .wr32 a v :: rest } = .next t ∧
        (∀ k, k < 4 → t.readByte (a + k) = v.extractLsb' (8 * k) 8) ∧
        (∀ x, x < a ∨ a + 4 ≤ x → t.readByte x = s.readByte x) ∧
        step { t with host := .rd32 a :: rest } = .next { t with host := rest, hostData := some v } ∧
        ∀ k, k < 4 → step { t with host := .rd8 (a + k) :: rest } =
          .next { t with host := rest, hostData := some ((v.extractLsb' (8 * k) 8).setWidth 32) })

/-- For every offset of the window from 0x1000 up: where no host-writable buffer holds it (FRAME_OUT, KEY_OUT, RESULT
and the reserved offsets), an 8-bit write and an aligned 32-bit write change nothing; where no buffer at all holds it,
an 8-bit read and an aligned 32-bit read return 0 and change nothing else. That an 8-bit access reaches these offsets
is log 11. (Rests on R43, R52.) -/
def Obligations.ReadOnlyAndReservedOffsets : Prop :=
  ∀ (s : State) (rest : List HostAccess) (a : Nat), 0x1000 ≤ a → a < 0x10000 →
    ((∀ b : Buffer, b.hostWritable = true → b.contains s.params a = false) →
      (∀ v : Byte, step { s with host := .wr8 a v :: rest } = .next { s with host := rest }) ∧
      (a % 4 = 0 → ∀ v : Word, step { s with host := .wr32 a v :: rest } = .next { s with host := rest })) ∧
    ((∀ b : Buffer, b.contains s.params a = false) →
      step { s with host := .rd8 a :: rest } = .next { s with host := rest, hostData := some 0 } ∧
      (a % 4 = 0 → step { s with host := .rd32 a :: rest } = .next { s with host := rest, hostData := some 0 }))

/-- In every state, when the host's next access is legal (32-bit, aligned, within the window; or 8-bit, within the
window and outside 0x0000..0x0FFF (the reserved offsets there count with the registers, and an 8-bit access elsewhere
in the window is legal: log 11); or the platform's reset) the step answers a next state, whatever command it may
start; when it is not legal the step is refused. (Rests on R54, R55.) -/
def Obligations.RefusedAccessesExactly : Prop :=
  ∀ (s : State) (a : HostAccess) (rest : List HostAccess), s.host = a :: rest →
    (a.legal → ∃ t, step s = .next t) ∧ (¬ a.legal → ∃ r, step s = .refused r)

/-- In every state, a legal 8-bit or 32-bit host read changes nothing but the value the host holds (log 2), and
repeated it returns the same value. An 8-bit write of v at an offset a from 0x1000 up, and an aligned 32-bit write of
v at an offset a other than CMD, leave CMD, the result registers, the SA store, the key collection, the parameters and
every buffer byte outside a, or a..a+3, unchanged; ARG0 changes only by a 32-bit write at 0x004, which stores v, and
CTRL only by one at 0x01C, which stores bit 0 of v (with REPLAY_IMPL = 0 too: log 12); the same write again changes
nothing. With admitted parameters, where a lies in FRAME_IN, KEY_STAGE or PARAM byte a becomes v, or bytes a..a+3 the
bytes of v, the lowest first; where it does not, no buffer byte changes. That an 8-bit write to a reserved offset is
legal is log 11. (Rests on R18, R23, R43, R47, R52, R54, R55, R56.) -/
def Obligations.HostAccessesDoNothingElse : Prop :=
  let keeps (s t : State) (rest : List HostAccess) : Prop :=
    t.cmd = s.cmd ∧ t.status = s.status ∧ t.res0 = s.res0 ∧ t.res1 = s.res1 ∧ t.outLen = s.outLen ∧ t.store = s.store ∧
      t.keys = s.keys ∧ t.params = s.params ∧ t.hostData = s.hostData ∧ t.host = rest
  (∀ (s : State) (a : HostAccess) (rest : List HostAccess), a.legal → (∃ off, a = .rd8 off ∨ a = .rd32 off) →
    ∃ v, step { s with host := a :: rest } = .next { s with host := rest, hostData := some v } ∧
      step { s with host := a :: rest, hostData := some v } = .next { s with host := rest, hostData := some v }) ∧
  (∀ (s : State) (rest : List HostAccess) (a : Nat) (v : Byte), 0x1000 ≤ a → a < 0x10000 →
    ∃ t, step { s with host := .wr8 a v :: rest } = .next t ∧ keeps s t rest ∧ t.arg0 = s.arg0 ∧ t.ctrl = s.ctrl ∧
      (∀ x, x ≠ a → t.readByte x = s.readByte x) ∧
      (paramsLegal s.params →
        (writableOffset s.params a → t.readByte a = v) ∧
          (¬ writableOffset s.params a → t.readByte a = s.readByte a)) ∧
      step { t with host := .wr8 a v :: rest } = .next t) ∧
  (∀ (s : State) (rest : List HostAccess) (a : Nat) (v : Word), 0x000 < a → a < 0x10000 → a % 4 = 0 →
    ∃ t, step { s with host := .wr32 a v :: rest } = .next t ∧ keeps s t rest ∧
      t.arg0 = (if a = 0x004 then v else s.arg0) ∧
      t.ctrl = (if a = 0x01C then (v.extractLsb' 0 1).setWidth 32 else s.ctrl) ∧
      (∀ x, x < a ∨ a + 4 ≤ x → t.readByte x = s.readByte x) ∧
      (paramsLegal s.params →
        (writableOffset s.params a → ∀ k, k < 4 → t.readByte (a + k) = v.extractLsb' (8 * k) 8) ∧
          (¬ writableOffset s.params a → ∀ x, t.readByte x = s.readByte x)) ∧
      step { t with host := .wr32 a v :: rest } = .next t)

/-- After reset CMD, ARG0, STATUS, RES0, RES1, OUT_LEN and CTRL are 0, all 256 slots of the SA table are zero in every
field, FFI = 0, LSI = -1 and KEYS_NR = 0, and no buffer byte holds a written value. 256 is the SA_CAP this hardware
takes (R5, log 7). (Rests on R5, R212.) -/
def Obligations.ResetValues : Prop :=
  State.reset.cmd = 0 ∧ State.reset.arg0 = 0 ∧ State.reset.status = 0 ∧ State.reset.res0 = 0 ∧ State.reset.res1 = 0 ∧
    State.reset.outLen = 0 ∧ State.reset.ctrl = 0 ∧ State.reset.store.slots.length = 256 ∧
    (∀ k, State.reset.store.slot k =
      { used := false, bssid := zeros 6, sta := zeros 6, ckValid := false, ckIndex := 0, stage := .none,
        validKey := false, keyVer := 0, pn := 0, pnValid := false, anonce := zeros 32, ptk := zeros 64 }) ∧
    State.reset.store.ffi = 0 ∧ State.reset.store.lsi = -1 ∧ State.reset.keysNr = 0 ∧ State.reset.mem = []

/-- State.reset meets State.Inv: the parameters are admitted, I1, I2 and I3 hold, every field has its width and range,
every live key is valid, every cached key index is live, the buffer memory is canonical and lies in the six buffers,
and the reserved bits read 0. (Rests on R40, R212, R214.) -/
def Obligations.ResetMeetsTheInvariant : Prop :=
  State.reset.Inv

/-- From every state that meets State.Inv, if step answers a next state, that state meets State.Inv: admitted
parameters; I1 (every used slot is at most LSI), I2 (no two used slots share an id), I3 (every slot below FFI is used)
with the ranges and widths of the store; at most KEYS_MAX live keys, each valid; CK_INDEX below KEYS_NR where CK_VALID
= 1 and 0 where it is 0; the buffer memory canonical and within the six buffers; the reserved bits of CTRL, STATUS and
RES1 zero. (Rests on R40, R41, R52, R111, R121, R195, R201.) -/
def Obligations.StepKeepsTheInvariant : Prop :=
  ∀ s t : State, s.Inv → step s = .next t → t.Inv

/-- In every state, when the next input is the platform's reset, the next state has CMD, ARG0, STATUS, RES0, RES1,
OUT_LEN and CTRL 0, the store of StoreReset and an empty key collection, with the parameters kept and no written
buffer byte. That every buffer byte is unspecified again is the model's choice (log 5: R43 against R214). (Rests on
R211, R212, R214.) -/
def Obligations.PlatformResetFromAnyState : Prop :=
  ∀ (s : State) (rest : List HostAccess), s.host = .reset :: rest →
    ∃ t, step s = .next t ∧ t.cmd = 0 ∧ t.arg0 = 0 ∧ t.status = 0 ∧ t.res0 = 0 ∧ t.res1 = 0 ∧ t.outLen = 0 ∧ t.ctrl = 0 ∧
      t.store = SaStore.empty s.params.saCap ∧ t.keysNr = 0 ∧ t.mem = [] ∧ t.params = s.params ∧ t.host = rest

/-- For every 32-bit word and every state the command completes, and STATUS holds DONE = 1, BUSY = 0, bits 23:18 zero,
LAST_OPC = the OPC field of the word, an OUTCOME of R74 that commands write and a REASON of R75. (Rests on R19, R74,
R75, R76, R197.) -/
def Obligations.EveryCommandReports : Prop :=
  ∀ (w : Word) (s : State), ∃ t, runCommand w s = .next t ∧ statusDone t.status = true ∧ statusBusy t.status = false ∧
    t.status.extractLsb' 18 6 = 0 ∧ statusLastOpc t.status = opcField w ∧
    (∃ o, statusOutcome t.status = outcomeByte o) ∧ ∃ r, statusReason t.status = reasonByte r

/-- For every CMD word and every state, the next state has the same CMD, ARG0, CTRL and parameters (and the same host
queue and last read value, which are the model's). (Rests on R17, R18, R23, R24, R25.) -/
def Obligations.CommandsKeepControlState : Prop :=
  ∀ (w : Word) (s t : State), runCommand w s = .next t → s.SameControl t

/-- For every CMD word and every state, if the command reports OUTCOME = 0x0F then RES0 = RES1 = OUT_LEN = 0, LAST_OPC
is the OPC field of the word, and the SA table, FFI, LSI, the key collection, CTRL, ARG0 and every buffer byte are
unchanged. (Rests on R70, R199.) -/
def Obligations.IllegalCommandChangesNothing : Prop :=
  ∀ (w : Word) (s t : State), runCommand w s = .next t → statusOutcome t.status = 0x0F →
    t.res0 = 0 ∧ t.res1 = 0 ∧ t.outLen = 0 ∧ statusLastOpc t.status = opcField w ∧ s.SameButResults t

/-- For every command and every state, STATUS holds an OUTCOME / REASON pair that the table of R198 and the rule of
the command list for it; for PROCESS_PACKET these are the outcomes of R173 and no others. (Rests on R173, R198.) -/
def Obligations.OutcomePairsOfEveryCommand : Prop :=
  ∀ (i : Instr) (s t : State), exec i s = .next t → ∃ p ∈ outcomePairs i, t.status = statusWord i.opcode p.1 p.2

/-- For every command and every state: CLEAN_KEYS and DESTROY_STORE leave an empty collection; SET_KEYS n with n at
most KEYS_MAX leaves the valid ones of the first n staged records, admitted; every other command, and SET_KEYS beyond
the capacity, leaves every live entry as it was. (Formalises R42.) -/
def Obligations.KeysChangeOnlyAsAWhole : Prop :=
  ∀ (i : Instr) (s t : State), exec i s = .next t →
    t.keys =
      if i = .cleanKeys ∨ i = .destroyStore then []
      else
        match i with
        | .setKeys n => if n ≤ s.params.keysMax then s.admittedKeys n else s.keys
        | _ => s.keys

/-- For every command and every state: INIT_STORE, DESTROY_STORE, CLEAN_KEYS and SET_KEYS n with n at most KEYS_MAX
leave the store of StoreReset; SA_ALLOCATE, SA_RELEASE and PROCESS_PACKET may change it; every other command leaves
the SA table, FFI and LSI as they were. (Rests on R29, R99, R216.) -/
def Obligations.StoreChangesOnlyByItsCommands : Prop :=
  ∀ (i : Instr) (s t : State), exec i s = .next t →
    (i ∈ [.initStore, .destroyStore, .cleanKeys] ∨ (∃ n, i = .setKeys n ∧ n ≤ s.params.keysMax) →
      t.store = SaStore.empty s.params.saCap) ∧
    (i ∉ [.initStore, .destroyStore, .cleanKeys, .saAllocate] → (∀ n, i = .setKeys n → s.params.keysMax < n) →
      (∀ k, i ≠ .saRelease k) → (∀ fcs rt hs dec len, i ≠ .processPacket fcs rt hs dec len) → t.store = s.store)

/-- From every state that meets the invariant, every byte outside the row that R64 gives the command reads as before:
no byte for the store, key and check commands, the copied records of KEY_OUT for GET_KEYS, the first 144, 121, 32 or
NBITS/8 bytes of RESULT for KEY_VALIDATE, SA_READ, PSK_DERIVE and PTK_DERIVE, and FRAME_OUT for the frame commands
(all of it: its bytes from OUT_LEN up hold any value, log 4). (Rests on R61, R64, R196.) -/
def Obligations.CommandsWriteOnlyTheirBufferRow : Prop :=
  ∀ (i : Instr) (s t : State), s.Inv → exec i s = .next t →
    s.SameBuffersBut t (bufferRow i s).1 (bufferRow i s).2

/-- For every CMD word and every state, if the command leaves OUT_LEN nonzero then OUTCOME = OK, the command is
WEP_DECRYPT, TKIP_DECRYPT, CCMP_DECRYPT or PROCESS_PACKET, and OUT_LEN is below 4096. (Rests on R22, R76, R150.) -/
def Obligations.OutLenOnlyOnDecryption : Prop :=
  ∀ (w : Word) (s t : State), runCommand w s = .next t → t.outLen ≠ 0 →
    statusOutcome t.status = 0x01 ∧ opcField w ∈ [0x30#8, 0x31#8, 0x32#8, 0x40#8] ∧ t.outLen.toNat < 4096

/-- INIT_STORE is the word 0x00000001. In every state it completes with OK / NONE and RES0 = RES1 = OUT_LEN = 0; every
slot is zero, FFI = 0 and LSI = -1; the key collection, CTRL, ARG0 and every buffer byte are unchanged; and SA_LOOKUP
right after it gives RES0 = 0xFFFFFFFF. (Formalises R101.) -/
def Obligations.InitStoreResult : Prop :=
  encode .initStore = 0x00000001#32 ∧
  ∀ s : State, ∃ t, exec .initStore s = .next t ∧ t.Reports 0x01 .ok .none 0 0 0 ∧
    t.store = SaStore.empty s.params.saCap ∧ t.keys = s.keys ∧ s.SameControl t ∧ s.SameBuffers t ∧
    ∃ u, exec .saLookup t = .next u ∧ u.res0 = 0xFFFFFFFF

/-- DESTROY_STORE is the word 0x00000002. In every state it completes with OK / NONE and RES0 = RES1 = OUT_LEN = 0;
KEYS_NR = 0, every slot is zero, FFI = 0 and LSI = -1; CTRL, ARG0 and every buffer byte are unchanged; and GET_KEYS 64
right after it gives RES0 = 0. (Formalises R102.) -/
def Obligations.DestroyStoreResult : Prop :=
  encode .destroyStore = 0x00000002#32 ∧
  ∀ s : State, ∃ t, exec .destroyStore s = .next t ∧ t.Reports 0x02 .ok .none 0 0 0 ∧
    t.store = SaStore.empty s.params.saCap ∧ t.keysNr = 0 ∧ s.SameControl t ∧ s.SameBuffers t ∧
    ∃ u, exec (.getKeys 64) t = .next u ∧ u.res0 = 0

/-- In every state with at least one slot, StoreReset leaves the table at its length with every slot zero in every
field, FFI = 0 and LSI = -1; after it every Lookup returns none and Allocate of any id returns slot 0. (Formalises
R100.) -/
def Obligations.StoreResetEmptiesTheStore : Prop :=
  ∀ s : State, 1 ≤ s.params.saCap →
    let st := s.storeReset.store
    st.slots.length = s.params.saCap ∧ (∀ k, st.slot k = SaSlot.zero) ∧ st.ffi = 0 ∧ st.lsi = -1 ∧
      ∀ id, st.lookup id = none ∧ ∃ st', st.allocate s.params.saCap id = some (0, st')

/-- SA_LOOKUP is the word 0x00000010. From every state that meets the invariant it completes with OK / NONE, RES1 =
OUT_LEN = 0 and nothing else changed; RES0 is k when the used slot k holds the id PARAM[0 +: 6], PARAM[6 +: 6], and
0xFFFFFFFF when no used slot does: a free slot never matches, whatever id it holds. (Formalises R106.) -/
def Obligations.SaLookupResult : Prop :=
  encode .saLookup = 0x00000010#32 ∧
  ∀ s : State, s.Inv →
    (∀ k, (s.store.slot k).used = true → (s.store.slot k).bssid = s.param 0 6 → (s.store.slot k).sta = s.param 6 6 →
      ∃ t, exec .saLookup s = .next t ∧ t.Reports 0x10 .ok .none (BitVec.ofNat 32 k) 0 0 ∧ s.SameButResults t) ∧
    ((∀ k, (s.store.slot k).used = true → ¬ ((s.store.slot k).bssid = s.param 0 6 ∧ (s.store.slot k).sta = s.param 6 6)) →
      ∃ t, exec .saLookup s = .next t ∧ t.Reports 0x10 .ok .none 0xFFFFFFFF 0 0 ∧ s.SameButResults t)

/-- SA_ALLOCATE is the word 0x00000011. From every state that meets the invariant, with id = (PARAM[0 +: 6], PARAM[6
+: 6]): if a used slot holds the id it reports UNSUCCESSFUL / DUPLICATE_ID with RES0 = 0xFFFFFFFF and changes nothing;
if none does and every slot is used it reports STORE_FULL / STORE_FULL with RES0 = 0xFFFFFFFF and changes nothing; if
none does and k is the first free slot from FFI on, it reports OK with RES0 = k, slot k is zeroed but for USED = 1 and
the id, FFI = k + 1, LSI = max(LSI, k), and every other slot, the keys, the control state and every buffer byte are
unchanged. By I3 one of the three always applies. (Formalises R107.) -/
def Obligations.SaAllocateResult : Prop :=
  encode .saAllocate = 0x00000011#32 ∧
  ∀ s : State, s.Inv →
    let holds (k : Nat) : Prop := (s.store.slot k).bssid = s.param 0 6 ∧ (s.store.slot k).sta = s.param 6 6
    ((∃ k, (s.store.slot k).used = true ∧ holds k) →
      ∃ t, exec .saAllocate s = .next t ∧ t.Reports 0x11 .unsuccessful .duplicateId 0xFFFFFFFF 0 0 ∧ s.SameButResults t) ∧
    ((∀ k, (s.store.slot k).used = true → ¬ holds k) → (∀ k, k < s.params.saCap → (s.store.slot k).used = true) →
      ∃ t, exec .saAllocate s = .next t ∧ t.Reports 0x11 .storeFull .storeFull 0xFFFFFFFF 0 0 ∧ s.SameButResults t) ∧
    (∀ k, (∀ j, (s.store.slot j).used = true → ¬ holds j) → s.store.ffi ≤ k → k < s.params.saCap →
      (s.store.slot k).used = false → (∀ j, s.store.ffi ≤ j → j < k → (s.store.slot j).used = true) →
      ∃ t, exec .saAllocate s = .next t ∧ t.Reports 0x11 .ok .none (BitVec.ofNat 32 k) 0 0 ∧
        s.store.Wrote t.store k { SaSlot.zero with used := true, bssid := s.param 0 6, sta := s.param 6 6 } ∧
        t.keys = s.keys ∧ s.SameControl t ∧ s.SameBuffers t) ∧
    ((∀ k, k < s.params.saCap → (s.store.slot k).used = true) ∨
      ∃ k, s.store.ffi ≤ k ∧ k < s.params.saCap ∧ (s.store.slot k).used = false ∧
        ∀ j, s.store.ffi ≤ j → j < k → (s.store.slot j).used = true)

/-- From every state that meets the invariant, SA_RELEASE of a slot k below SA_CAP, used or not, reports OK with RES0
= 0; slot k differs in USED = 0 only, every other slot is unchanged, FFI becomes k where k was below it, LSI is
lowered by exactly one where it was k; the keys, the control state and every buffer byte are unchanged. A slot of
SA_CAP or above gives ILLEGAL_COMMAND / BAD_INDEX and changes nothing but the result registers. (Formalises R105.) -/
def Obligations.SaReleaseResult : Prop :=
  ∀ (s : State) (k : Nat), s.Inv →
    (k < s.params.saCap →
      ∃ t, exec (.saRelease k) s = .next t ∧ t.Reports 0x12 .ok .none 0 0 0 ∧
        t.store.slot k = { s.store.slot k with used := false } ∧ (∀ j, j ≠ k → t.store.slot j = s.store.slot j) ∧
        t.store.slots.length = s.store.slots.length ∧
        t.store.ffi = (if k < s.store.ffi then k else s.store.ffi) ∧
        t.store.lsi = (if (k : Int) = s.store.lsi then s.store.lsi - 1 else s.store.lsi) ∧
        t.keys = s.keys ∧ s.SameControl t ∧ s.SameBuffers t) ∧
    (s.params.saCap ≤ k →
      ∃ t, exec (.saRelease k) s = .next t ∧ t.Reports 0x12 .illegalCommand .badIndex 0 0 0 ∧ s.SameButResults t)

/-- From every state that meets the invariant, after SA_RELEASE of a used slot Lookup of the id it held answers none;
and from every such state, an id whose Lookup answers none is found after a command only if that command was
SA_ALLOCATE of that id or PROCESS_PACKET on a data frame of that id. (Rests on R62, R109, R111.) -/
def Obligations.ReleasedIdIsNotFound : Prop :=
  (∀ (s t : State) (k : Nat), s.Inv → (s.store.slot k).used = true → exec (.saRelease k) s = .next t →
    t.store.lookup (s.store.slot k).id = none) ∧
  (∀ (i : Instr) (t u : State) (id : SaId), t.Inv → t.store.lookup id = none → exec i t = .next u →
    u.store.lookup id ≠ none →
    (i = .saAllocate ∧ t.paramId = id) ∨
      ∃ fcs rt hs dec len F, i = .processPacket fcs rt hs dec len ∧ t.DataFrame fcs rt len F id)

/-- From every state that meets the invariant, SA_READ of a slot k below SA_CAP (its word is IMM = k, OPC 0x13)
reports OK with RES0 = 121 and writes USED, STAGE, VALID_KEY, KEY_VER, CK_VALID, CK_INDEX, BSSID, STA, PN (little-
endian), ANONCE, PTK and PN_VALID to RESULT bytes 0, 1, 2, 3, 4, 5, 6.., 12.., 18.., 24.., 56.. and 120; every other
buffer byte, the store, the keys and the control state are unchanged. A slot of SA_CAP or above gives ILLEGAL_COMMAND
/ BAD_INDEX and changes nothing but the result registers. (Formalises R110.) -/
def Obligations.SaReadResult : Prop :=
  (∀ k, k < 2 ^ 16 → encode (.saRead k) = BitVec.ofNat 16 k ++ 0x00#8 ++ 0x13#8) ∧
  ∀ (s : State) (k : Nat), s.Inv →
    (k < s.params.saCap →
      ∃ t, exec (.saRead k) s = .next t ∧ t.Reports 0x13 .ok .none 121 0 0 ∧
        t.memRead .result 0 6 =
          [bitByte (s.store.slot k).used, stageByte (s.store.slot k).stage, bitByte (s.store.slot k).validKey,
            (s.store.slot k).keyVer.setWidth 8, bitByte (s.store.slot k).ckValid, (s.store.slot k).ckIndex] ∧
        t.memRead .result 6 6 = (s.store.slot k).bssid ∧ t.memRead .result 12 6 = (s.store.slot k).sta ∧
        (∀ i, i < 6 → t.readByte (0x9100 + 18 + i) = (s.store.slot k).pn.extractLsb' (8 * i) 8) ∧
        t.memRead .result 24 32 = (s.store.slot k).anonce ∧ t.memRead .result 56 64 = (s.store.slot k).ptk ∧
        t.readByte (0x9100 + 120) = bitByte (s.store.slot k).pnValid ∧
        s.SameBuffersBut t 0x9100 121 ∧ t.store = s.store ∧ t.keys = s.keys ∧ s.SameControl t) ∧
    (s.params.saCap ≤ k →
      ∃ t, exec (.saRead k) s = .next t ∧ t.Reports 0x13 .illegalCommand .badIndex 0 0 0 ∧ s.SameButResults t)

/-- In every state, KEY_VALIDATE k (its word is IMM = k, OPC 0x06) with k below KEYS_MAX: when the staged record k is
valid it reports OK with RES0 = 1, RESULT[0 +: 144] holds the normalized record with no PSK derived, and every other
buffer byte is unchanged; when it is invalid it reports INVALID_KEY / INVALID_KEY with RES0 = 0 and changes nothing
else; k of KEYS_MAX or above gives ILLEGAL_COMMAND / BAD_INDEX. The key collection, the SA store and the control state
are unchanged. (Formalises R117.) -/
def Obligations.KeyValidateResult : Prop :=
  (∀ k, k < 2 ^ 16 → encode (.keyValidate k) = BitVec.ofNat 16 k ++ 0x00#8 ++ 0x06#8) ∧
  ∀ (s : State) (k : Nat),
    (∀ e, k < s.params.keysMax → validate (s.stageRec k) = some e →
      ∃ t, exec (.keyValidate k) s = .next t ∧ t.Reports 0x06 .ok .none 1 0 0 ∧
        t.memRead .result 0 144 = e.toRecord ∧ s.SameBuffersBut t 0x9100 144 ∧ t.store = s.store ∧ t.keys = s.keys ∧
        s.SameControl t) ∧
    (k < s.params.keysMax → validate (s.stageRec k) = none →
      ∃ t, exec (.keyValidate k) s = .next t ∧ t.Reports 0x06 .invalidKey .invalidKey 0 0 0 ∧ s.SameButResults t) ∧
    (s.params.keysMax ≤ k →
      ∃ t, exec (.keyValidate k) s = .next t ∧ t.Reports 0x06 .illegalCommand .badIndex 0 0 0 ∧ s.SameButResults t)

/-- For every 144-byte record: it is valid exactly when TAG is 1 with KEY_LEN in 1..32, or 2, or 3, or 4 with PASS_LEN
in 8..63 and SSID_LEN at most 32, or 5, or 6; and the record of the valid entry is the record itself with TAG 2 and 3
rewritten to TAG 1 with KEY_LEN 5 and 13 and the two reserved fields zero. (Formalises R114, R115.) -/
def Obligations.ValidationFollowsTheTable : Prop :=
  ∀ rec : Bytes, rec.length = 144 →
    ((validate rec).isSome = true ↔
      (byteAt rec 0 = 1 ∧ 1 ≤ (byteAt rec 1).toNat ∧ (byteAt rec 1).toNat ≤ 32) ∨ byteAt rec 0 = 2 ∨ byteAt rec 0 = 3 ∨
        (byteAt rec 0 = 4 ∧ 8 ≤ (byteAt rec 2).toNat ∧ (byteAt rec 2).toNat ≤ 63 ∧ (byteAt rec 3).toNat ≤ 32) ∨
        byteAt rec 0 = 5 ∨ byteAt rec 0 = 6) ∧
    ∀ e, validate rec = some e →
      e.toRecord =
        (if byteAt rec 0 = 2 then [0x01#8, 0x05#8] else if byteAt rec 0 = 3 then [0x01#8, 0x0D#8] else slice rec 0 2) ++
          slice rec 2 2 ++ zeros 4 ++ slice rec 8 128 ++ zeros 8

/-- In every state, SET_KEYS n (its word is IMM = n, OPC 0x03) with n at most KEYS_MAX reports OK with RES0 the number
of accepted records; the collection is the valid ones of the staged records 0..n-1 in their order, normalized, with
the KEY field of a WPA_PWD entry replaced by the PSK of its passphrase and SSID; the store is that of StoreReset; the
control state and every buffer byte are unchanged. With n above KEYS_MAX it reports UNSUCCESSFUL / WRONG_DATA_SIZE
with RES0 = 0 and changes nothing else. (Formalises R116, R118.) -/
def Obligations.SetKeysResult : Prop :=
  (∀ n, n < 2 ^ 16 → encode (.setKeys n) = BitVec.ofNat 16 n ++ 0x00#8 ++ 0x03#8) ∧
  (∀ e : KeyEntry, e.accept =
    if e.kind = .wpaPwd then
      { e with key := passwordToPsk (slice e.pass 0 e.passLen.toNat) (slice e.ssid 0 e.ssidLen.toNat) }
    else e) ∧
  ∀ (s : State) (n : Nat),
    (n ≤ s.params.keysMax →
      ∃ t, exec (.setKeys n) s = .next t ∧
        t.keys = ((List.range n).filterMap fun i => validate (s.stageRec i)).map KeyEntry.accept ∧
        t.Reports 0x03 .ok .none (BitVec.ofNat 32 t.keys.length) 0 0 ∧ t.store = SaStore.empty s.params.saCap ∧
        s.SameControl t ∧ s.SameBuffers t) ∧
    (s.params.keysMax < n →
      ∃ t, exec (.setKeys n) s = .next t ∧ t.Reports 0x03 .unsuccessful .wrongDataSize 0 0 0 ∧ s.SameButResults t)

/-- From every state that meets the invariant, GET_KEYS max (its word is IMM = max, OPC 0x04) reports OK with RES0 =
c, where c is the lesser of max and KEYS_NR; KEY_OUT record k holds the 144-byte record of key k for every k below c;
every other buffer byte, the store, the keys and the control state are unchanged. (Formalises R119.) -/
def Obligations.GetKeysResult : Prop :=
  (∀ m, m < 2 ^ 16 → encode (.getKeys m) = BitVec.ofNat 16 m ++ 0x00#8 ++ 0x04#8) ∧
  ∀ (s : State) (m : Nat), s.Inv →
    ∃ t, exec (.getKeys m) s = .next t ∧ t.Reports 0x04 .ok .none (BitVec.ofNat 32 (min m s.keys.length)) 0 0 ∧
      (∀ (k : Nat) (e : KeyEntry), k < m → s.keys[k]? = some e → t.memRead .keyOut (144 * k) 144 = e.toRecord) ∧
      s.SameBuffersBut t 0x6000 (144 * min m s.keys.length) ∧ t.store = s.store ∧ t.keys = s.keys ∧ s.SameControl t

/-- CLEAN_KEYS is the word 0x00000005. In every state it reports OK with RES0 = KEYS_NR, leaves an empty collection
and the store of StoreReset, also where the collection was empty before, and changes neither the control state nor a
buffer byte; a second CLEAN_KEYS gives RES0 = 0. (Formalises R120.) -/
def Obligations.CleanKeysResult : Prop :=
  encode .cleanKeys = 0x00000005#32 ∧
  ∀ s : State, ∃ t, exec .cleanKeys s = .next t ∧ t.Reports 0x05 .ok .none (BitVec.ofNat 32 s.keys.length) 0 0 ∧
    t.keys = [] ∧ t.store = SaStore.empty s.params.saCap ∧ s.SameControl t ∧ s.SameBuffers t ∧
    ∃ u, exec .cleanKeys t = .next u ∧ u.res0 = 0

/-- PSK_DERIVE is the word 0x00000020. In every state, with PASS_LEN = PARAM[0] in 8..63 and SSID_LEN = PARAM[1] at
most 32 it reports OK with RES0 = 32, RESULT[0 +: 32] holds PasswordToPsk(PARAM[2 +: PASS_LEN], PARAM[66 +:
SSID_LEN]), and every other buffer byte, the keys, the store and the control state are unchanged. With a length out of
range it reports ILLEGAL_COMMAND / BAD_FIELD and changes nothing but the result registers. (Formalises R132.) -/
def Obligations.PskDeriveResult : Prop :=
  encode .pskDerive = 0x00000020#32 ∧
  ∀ s : State,
    let passLen := (s.readByte 0x9000).toNat
    let ssidLen := (s.readByte 0x9001).toNat
    (8 ≤ passLen ∧ passLen ≤ 63 ∧ ssidLen ≤ 32 →
      ∃ t, exec .pskDerive s = .next t ∧ t.Reports 0x20 .ok .none 32 0 0 ∧
        t.memRead .result 0 32 = passwordToPsk (s.memRead .param 2 passLen) (s.memRead .param 66 ssidLen) ∧
        s.SameBuffersBut t 0x9100 32 ∧ t.store = s.store ∧ t.keys = s.keys ∧ s.SameControl t) ∧
    (¬ (8 ≤ passLen ∧ passLen ≤ 63 ∧ ssidLen ≤ 32) →
      ∃ t, exec .pskDerive s = .next t ∧ t.Reports 0x20 .illegalCommand .badField 0 0 0 ∧ s.SameButResults t)

/-- PTK_DERIVE is the word 0x00000021. In every state with ARG0[31:16] = 0: with NBITS = ARG0[15:0] a nonzero multiple
of 8 of at most 512 it reports OK with RES0 = NBITS/8, RESULT[0 +: NBITS/8] holds DerivePtk of PMK, AA, SPA, ANONCE
and SNONCE at PARAM 76, 0, 6, 12 and 44, and every other buffer byte, the keys, the store and the control state are
unchanged; with any other NBITS it reports ILLEGAL_COMMAND / BAD_FIELD and changes nothing but the result registers.
(Formalises R133.) -/
def Obligations.PtkDeriveResult : Prop :=
  encode .ptkDerive = 0x00000021#32 ∧
  ∀ s : State, s.arg0.extractLsb' 16 16 = 0 →
    let nbits := (s.arg0.extractLsb' 0 16).toNat
    (nbits ≠ 0 ∧ nbits ≤ 512 ∧ nbits % 8 = 0 →
      ∃ t, exec .ptkDerive s = .next t ∧ t.Reports 0x21 .ok .none (BitVec.ofNat 32 (nbits / 8)) 0 0 ∧
        t.memRead .result 0 (nbits / 8) =
          derivePtk (s.memRead .param 76 32) (s.memRead .param 0 6) (s.memRead .param 6 6) (s.memRead .param 12 32)
            (s.memRead .param 44 32) nbits ∧
        s.SameBuffersBut t 0x9100 (nbits / 8) ∧ t.store = s.store ∧ t.keys = s.keys ∧ s.SameControl t) ∧
    (¬ (nbits ≠ 0 ∧ nbits ≤ 512 ∧ nbits % 8 = 0) →
      ∃ t, exec .ptkDerive s = .next t ∧ t.Reports 0x21 .illegalCommand .badField 0 0 0 ∧ s.SameButResults t)

/-- DerivePtk gives the same bytes with AA and SPA swapped, for 6-byte addresses, and with ANONCE and SNONCE swapped,
for 32-byte nonces; for lengths n at most m, both multiples of 8, the PTK of n bits is the first n/8 bytes of the PTK
of m bits; and it has n/8 bytes. (Rests on R128, R129, R130.) -/
def Obligations.PtkSymmetryAndPrefix : Prop :=
  ∀ (pmk aa spa an sn : Bytes),
    (∀ nbits, aa.length = 6 → spa.length = 6 → derivePtk pmk spa aa an sn nbits = derivePtk pmk aa spa an sn nbits) ∧
    (∀ nbits, an.length = 32 → sn.length = 32 → derivePtk pmk aa spa sn an nbits = derivePtk pmk aa spa an sn nbits) ∧
    ∀ n m, n % 8 = 0 → m % 8 = 0 → n ≤ m →
      (derivePtk pmk aa spa an sn n).length = n / 8 ∧
        derivePtk pmk aa spa an sn n = slice (derivePtk pmk aa spa an sn m) 0 (n / 8)

/-- In every state with ARG0[31:3] = 0, for MIC_CHECK L (its word is IMM = L, OPC 0x22) with L at most 4096, let MIC
be HMAC-MD5 under KCK = PARAM[0 +: 16] of FRAME_IN[0 +: L] where VER = ARG0[2:0] is 1, and the first 16 bytes of the
HMAC-SHA1 otherwise: if MIC = PARAM[16 +: 16] it reports OK with RES0 = 1, else MIC_MISMATCH / MIC_MISMATCH with RES0
= 0. L above 4096 gives ILLEGAL_COMMAND / BAD_FIELD. Nothing but the result registers changes. (Formalises R134,
R136.) -/
def Obligations.MicCheckResult : Prop :=
  (∀ len, len < 2 ^ 16 → encode (.micCheck len) = BitVec.ofNat 16 len ++ 0x00#8 ++ 0x22#8) ∧
  ∀ (s : State) (len : Nat), s.arg0.extractLsb' 3 29 = 0 →
    let mic :=
      if s.arg0.extractLsb' 0 3 = 1#3 then hmacMd5 (s.memRead .param 0 16) (s.memRead .frameIn 0 len)
      else slice (hmacSha1 (s.memRead .param 0 16) (s.memRead .frameIn 0 len)) 0 16
    (len ≤ 4096 → mic = s.memRead .param 16 16 →
      ∃ t, exec (.micCheck len) s = .next t ∧ t.Reports 0x22 .ok .none 1 0 0 ∧ s.SameButResults t) ∧
    (len ≤ 4096 → mic ≠ s.memRead .param 16 16 →
      ∃ t, exec (.micCheck len) s = .next t ∧ t.Reports 0x22 .micMismatch .micMismatch 0 0 0 ∧ s.SameButResults t) ∧
    (4096 < len →
      ∃ t, exec (.micCheck len) s = .next t ∧ t.Reports 0x22 .illegalCommand .badField 0 0 0 ∧ s.SameButResults t)

/-- For every value of INSTALL, ACK, MIC, SECURE and KDL: message 1 exactly for INSTALL = 0, ACK = 1, MIC = 0; message
2 exactly for INSTALL = 0, ACK = 0, MIC = 1, SECURE = 0, KDL nonzero; message 4 exactly for the same with KDL = 0, or
for ACK = 0, MIC = 1, SECURE = 1; message 3 exactly for ACK = 1, MIC = 1; and no handshake shape exactly in the three
cases of row 6. (Formalises R90.) -/
def Obligations.MessageClassesFollowTheTable : Prop :=
  ∀ (install ack mic secure : Bool) (kdl : Nat),
    (classify install ack mic secure kdl = .msg1 ↔ install = false ∧ ack = true ∧ mic = false) ∧
    (classify install ack mic secure kdl = .msg2 ↔
      install = false ∧ ack = false ∧ mic = true ∧ secure = false ∧ kdl ≠ 0) ∧
    (classify install ack mic secure kdl = .msg4 ↔
      (install = false ∧ ack = false ∧ mic = true ∧ secure = false ∧ kdl = 0) ∨
        (ack = false ∧ mic = true ∧ secure = true)) ∧
    (classify install ack mic secure kdl = .msg3 ↔ ack = true ∧ mic = true) ∧
    (classify install ack mic secure kdl = .notShape ↔
      (install = true ∧ ack = true ∧ mic = false) ∨ (ack = false ∧ mic = false) ∨
        (install = true ∧ ack = false ∧ mic = true ∧ secure = false))

/-- From every state that meets the invariant, PROCESS_PACKET with HS = 1 on a cleartext data frame that reaches slot
k and carries a pairwise EAPOL-Key body K with INSTALL = 0, ACK = 1, MIC = 0 reports HANDSHAKE_STEP_OK with RES0 = k,
RES1.HS_MSG = 1, OUT_LEN = 0; slot k becomes its contents with ANONCE = K[13 +: 32], KEY_VER = KI[2:0] and STAGE = 1;
every other slot, the keys, the control state and every buffer but FRAME_OUT are unchanged. (Rests on R140, R146,
R193.) -/
def Obligations.HandshakeMessage1 : Prop :=
  ∀ (s : State) (fcs rt dec : Bool) (len : Nat) (F E K : Bytes) (k : Nat) (sl : SaSlot),
    s.Reaches fcs rt len F k sl → frameProtected F = false → EapolKey F E K → PairwiseBody K →
    kiInstall (keyInfo K) = false → kiAck (keyInfo K) = true → kiMic (keyInfo K) = false →
    ∃ t, exec (.processPacket fcs rt true dec len) s = .next t ∧
      t.Reports 0x40 .handshakeStepOk .none (BitVec.ofNat 32 k) 0x1000 0 ∧
      s.store.Wrote t.store k { sl with anonce := slice K 13 32, keyVer := (keyInfo K).extractLsb' 0 3, stage := .msg1 } ∧
      s.FrameOnly t

/-- From every state that meets the invariant, PROCESS_PACKET with HS = 1 on a cleartext data frame that reaches slot
k and carries a pairwise message 2: with c the first candidate of the SA whose PTK (DerivePtk of its PMK, BSSID, STA,
ANONCE and the SNonce, 512 bits) gives, over the EAPOL frame with its MIC zeroed and with the VER of this frame, the
MIC that the frame claims, it reports HANDSHAKE_STEP_OK with RES0 = k, RES1 = (KEY_INDEX c, KEY_VALID, HS_MSG 2),
OUT_LEN = 0; slot k gets that PTK, CK_VALID = 1, CK_INDEX = c, STAGE = 2, PN_VALID = 0 and no other change, so
VALID_KEY is not changed; nothing else changes but FRAME_OUT. The candidates are in the order of R123: the key
CK_INDEX first where CK_VALID = 1 and it is a WPA key, then every WPA key below KEYS_NR in order of index, the cached
one again among them. So of two keys that both verify, the cached one is reported. (Rests on R45, R113, R123, R131,
R134, R135, R141, R142, R143, R146.) -/
def Obligations.HandshakeMessage2Verified : Prop :=
  ∀ (s : State) (fcs rt dec : Bool) (len : Nat) (F E K : Bytes) (k : Nat) (sl : SaSlot),
    s.Reaches fcs rt len F k sl → frameProtected F = false → EapolKey F E K → PairwiseBody K →
    kiInstall (keyInfo K) = false → kiAck (keyInfo K) = false → kiMic (keyInfo K) = true → kiSecure (keyInfo K) = false →
    (be16 K 93).toNat ≠ 0 →
    let wpa (j : Nat) : Bool := (s.keys[j]?).any fun e => e.kind ∈ [.wpaPwd, .wpaPsk, .wpaPmk]
    let candidates : List Nat :=
      (if sl.ckValid = true ∧ wpa sl.ckIndex.toNat = true then [sl.ckIndex.toNat] else []) ++
        (List.range s.keys.length).filter wpa
    let pmk (j : Nat) : Bytes := ((s.keys[j]?).map fun e => slice e.key 0 32).getD []
    let ptk (j : Nat) : Bytes := derivePtk (pmk j) sl.bssid sl.sta sl.anonce (slice K 13 32) 512
    let mic (j : Nat) : Bytes :=
      micCompute (slice (ptk j) 0 16) (slice E 0 81 ++ zeros 16 ++ slice E 97 (K.length - 93)) ((keyInfo K).extractLsb' 0 3)
    ∀ (tried : List Nat) (c : Nat) (others : List Nat), candidates = tried ++ c :: others →
    (∀ j ∈ tried, mic j ≠ slice K 77 16) → mic c = slice K 77 16 →
    ∃ t, exec (.processPacket fcs rt true dec len) s = .next t ∧
      t.Reports 0x40 .handshakeStepOk .none (BitVec.ofNat 32 k) (0x00002#20 ++ 0x1#4 ++ BitVec.ofNat 8 c) 0 ∧
      s.store.Wrote t.store k
        { sl with ptk := ptk c, ckValid := true, ckIndex := BitVec.ofNat 8 c, stage := .msg2, pnValid := false } ∧
      s.FrameOnly t

/-- From every state that meets the invariant, PROCESS_PACKET with HS = 1 on a cleartext data frame that reaches slot
k and carries a pairwise EAPOL-Key body: with ACK = 1, MIC = 1 it reports HANDSHAKE_STEP_OK with HS_MSG = 3 and the
slot keeps its contents; with ACK = 0, MIC = 1, SECURE = 1, or with INSTALL = 0, ACK = 0, MIC = 1, SECURE = 0, KDL =
0, it reports HANDSHAKE_STEP_OK with HS_MSG = 4 and the slot gets STAGE = 4 and VALID_KEY = 1, whatever its MIC and
its stage. RES0 = k, OUT_LEN = 0, and nothing else changes but FRAME_OUT. (Rests on R144, R145, R146, R147.) -/
def Obligations.HandshakeMessages3And4 : Prop :=
  ∀ (s : State) (fcs rt dec : Bool) (len : Nat) (F E K : Bytes) (k : Nat) (sl : SaSlot),
    s.Reaches fcs rt len F k sl → frameProtected F = false → EapolKey F E K → PairwiseBody K →
    (kiAck (keyInfo K) = true → kiMic (keyInfo K) = true →
      ∃ t, exec (.processPacket fcs rt true dec len) s = .next t ∧
        t.Reports 0x40 .handshakeStepOk .none (BitVec.ofNat 32 k) 0x3000 0 ∧ s.store.Wrote t.store k sl ∧ s.FrameOnly t) ∧
    ((kiAck (keyInfo K) = false ∧ kiMic (keyInfo K) = true ∧
        (kiSecure (keyInfo K) = true ∨
          (kiInstall (keyInfo K) = false ∧ kiSecure (keyInfo K) = false ∧ (be16 K 93).toNat = 0))) →
      ∃ t, exec (.processPacket fcs rt true dec len) s = .next t ∧
        t.Reports 0x40 .handshakeStepOk .none (BitVec.ofNat 32 k) 0x4000 0 ∧
        s.store.Wrote t.store k { sl with stage := .msg4, validKey := true } ∧ s.FrameOnly t)

/-- From every state that meets the invariant, PROCESS_PACKET with HS = 1 on a cleartext EAPOL-Key frame that reaches
slot k, in this order: a body under 95 bytes or a descriptor type other than 2 and 254 gives NO_VALID_HANDSHAKE /
BAD_DESCRIPTOR; a body that is not pairwise gives NO_VALID_HANDSHAKE / NOT_PAIRWISE; a pairwise body of no handshake
shape gives UNSUCCESSFUL / NONE; a message 2 with no WPA candidate gives NO_VALID_HANDSHAKE / NO_KEY, and one that no
candidate verifies gives NO_VALID_HANDSHAKE / MIC_MISMATCH. RES0 = k, RES1 = OUT_LEN = 0, the slot keeps its contents
(allocated if it was free), and nothing else changes but FRAME_OUT. The candidates are in the order of R123: the key
CK_INDEX first where CK_VALID = 1 and it is a WPA key, then every WPA key below KEYS_NR in order of index, the cached
one again among them. (Rests on R113, R123, R138, R142, R143, R145, R194.) -/
def Obligations.HandshakeRejections : Prop :=
  ∀ (s : State) (fcs rt dec : Bool) (len : Nat) (F E K : Bytes) (k : Nat) (sl : SaSlot),
    s.Reaches fcs rt len F k sl → frameProtected F = false → EapolKey F E K →
    let rejects (o : OutcomeCode) (r : ReasonCode) : Prop :=
      ∃ t, exec (.processPacket fcs rt true dec len) s = .next t ∧ t.Reports 0x40 o r (BitVec.ofNat 32 k) 0 0 ∧
        s.store.Wrote t.store k sl ∧ s.FrameOnly t
    let wpa (j : Nat) : Bool := (s.keys[j]?).any fun e => e.kind ∈ [.wpaPwd, .wpaPsk, .wpaPmk]
    let candidates : List Nat :=
      (if sl.ckValid = true ∧ wpa sl.ckIndex.toNat = true then [sl.ckIndex.toNat] else []) ++
        (List.range s.keys.length).filter wpa
    let pmk (j : Nat) : Bytes := ((s.keys[j]?).map fun e => slice e.key 0 32).getD []
    let ptk (j : Nat) : Bytes := derivePtk (pmk j) sl.bssid sl.sta sl.anonce (slice K 13 32) 512
    let mic (j : Nat) : Bytes :=
      micCompute (slice (ptk j) 0 16) (slice E 0 81 ++ zeros 16 ++ slice E 97 (K.length - 93)) ((keyInfo K).extractLsb' 0 3)
    ((K.length < 95 ∨ (byteAt K 0 ≠ 2 ∧ byteAt K 0 ≠ 254)) → rejects .noValidHandshake .badDescriptor) ∧
    (95 ≤ K.length → (byteAt K 0 = 2 ∨ byteAt K 0 = 254) → kiPairwise (keyInfo K) = false →
      rejects .noValidHandshake .notPairwise) ∧
    (PairwiseBody K →
      ((kiInstall (keyInfo K) = true ∧ kiAck (keyInfo K) = true ∧ kiMic (keyInfo K) = false) ∨
        (kiAck (keyInfo K) = false ∧ kiMic (keyInfo K) = false) ∨
        (kiInstall (keyInfo K) = true ∧ kiAck (keyInfo K) = false ∧ kiMic (keyInfo K) = true ∧
          kiSecure (keyInfo K) = false)) →
      rejects .unsuccessful .none) ∧
    (PairwiseBody K → kiInstall (keyInfo K) = false → kiAck (keyInfo K) = false → kiMic (keyInfo K) = true →
      kiSecure (keyInfo K) = false → (be16 K 93).toNat ≠ 0 →
      (candidates = [] → rejects .noValidHandshake .noKey) ∧
      (candidates ≠ [] → (∀ j ∈ candidates, mic j ≠ slice K 77 16) →
        rejects .noValidHandshake .micMismatch))

/-- For every command, every state and every slot k: VALID_KEY of slot k goes from 0 to 1 only in a PROCESS_PACKET
with HS = 1 that reports HS_MSG = 4; the PTK of slot k changes only to zeros, or in a PROCESS_PACKET with HS = 1 that
reports HS_MSG = 2. (Rests on R33, R36, R147.) -/
def Obligations.SessionKeysComeFromTheHandshake : Prop :=
  ∀ (i : Instr) (s t : State) (k : Nat), exec i s = .next t →
    ((s.store.slot k).validKey = false → (t.store.slot k).validKey = true →
      (∃ fcs rt dec len, i = .processPacket fcs rt true dec len) ∧ t.res1.extractLsb' 12 4 = 4) ∧
    ((t.store.slot k).ptk ≠ (s.store.slot k).ptk →
      (t.store.slot k).ptk = zeros 64 ∨
        ((∃ fcs rt dec len, i = .processPacket fcs rt true dec len) ∧ t.res1.extractLsb' 12 4 = 2))

/-- For every header, 3-byte IV, key and data, the WEP pipeline on the frame whose bytes after the cipher header are
RC4(IV followed by the key, D followed by the little-endian CRC-32 of D) returns D; for every header of at least 24
bytes, 8-byte TKIP header, TK, data and 8-byte MIC, the TKIP pipeline on the frame encrypted the same way under the
Phase2 seed, with D followed by the MIC in the place of D, returns D, whatever the MIC. (Rests on R153, R154, R160,
R166.) -/
def Obligations.WepAndTkipRoundTrip : Prop :=
  (∀ (hdr iv wkey D : Bytes) (keyId : Byte), iv.length = 3 → 1 ≤ wkey.length → wkey.length ≤ 32 →
    wepTry (wepEncrypt hdr iv wkey D keyId) hdr.length wkey = .ok D) ∧
  (∀ hdr ch tk D mic : Bytes, 24 ≤ hdr.length → ch.length = 8 → tk.length = 16 → mic.length = 8 →
    tkipTry (tkipEncrypt hdr ch tk D mic) hdr.length tk = .ok D)

/-- For every header that reaches the end of its own MAC header, 8-byte CCMP header, TK and data, the CCMP pipeline on
the frame that carries the CCM encryption of the data, with the nonce and the AAD built from that header, returns the
data. The encryptor is the model's, after RFC 3610. (Rests on R161, R162, R163, R164, R166.) -/
def Obligations.CcmpRoundTrip : Prop :=
  ∀ hdr ch tk D : Bytes, hdrLen hdr ≤ hdr.length → ch.length = 8 → tk.length = 16 →
    ccmpTry (ccmpEncrypt hdr ch tk D) hdr.length tk = .ok D

/-- For every WEP frame made by encryption and every byte behind its cipher header, in the data or in the ICV, the
frame with that one byte changed to any other value fails with ICV_MISMATCH under the same key. (Rests on R151, R153,
R166.) -/
def Obligations.WepChangedByteFails : Prop :=
  ∀ (hdr iv wkey D : Bytes) (keyId b : Byte) (i : Nat), iv.length = 3 → 1 ≤ wkey.length → wkey.length ≤ 32 →
    hdr.length + 4 ≤ i → i < (wepEncrypt hdr iv wkey D keyId).length → byteAt (wepEncrypt hdr iv wkey D keyId) i ≠ b →
    wepTry ((wepEncrypt hdr iv wkey D keyId).set i b) hdr.length wkey = .error .icvMismatch

/-- For every frame W, header length h from 2 to the length of W, payload P and FCS flag, the output frame has h + |P|
+ 4·FCS bytes; byte 1 is W[1] & 0xBF, every other byte below h is that of W, the payload follows, and with FCS = 1 the
last four bytes are the little-endian CRC-32 of everything before them. (Rests on R150.) -/
def Obligations.OutputFrameContents : Prop :=
  ∀ (W P : Bytes) (h : Nat) (fcs : Bool), 2 ≤ h → h ≤ W.length →
    let O := outputFrame W h P fcs
    O.length = h + P.length + (if fcs then 4 else 0) ∧
      byteAt O 1 = byteAt W 1 &&& 0xBF#8 ∧ (∀ j, j < h → j ≠ 1 → byteAt O j = byteAt W j) ∧ slice O h P.length = P ∧
      (fcs = true → slice O (h + P.length) 4 = le32Bytes (crc32 (slice O 0 (h + P.length))))

/-- In every state with ARG0[31:8] = 0, L at most 4096, HDR_LEN = ARG0[7:0] at least 24 and L at least HDR_LEN +
4·FCS: WEP_DECRYPT with KLEN in 1..32, TKIP_DECRYPT, and CCMP_DECRYPT with HDR_LEN at least HdrLen(W), whose pipeline
on W = FRAME_IN[0 +: L - 4·FCS] returns the payload P, report OK with RES0 = |P|, RES1.CIPHER = 1, 2 or 3 and OUT_LEN
= the length of the output frame; FRAME_OUT[0 +: OUT_LEN] holds the output frame; the store, the keys, the control
state and every other buffer are unchanged. (Rests on R149, R150, R168, R169, R170, R171.) -/
def Obligations.DecryptCommandsSucceed : Prop :=
  ∀ (s : State) (fcs : Bool) (len : Nat), s.arg0.extractLsb' 8 24 = 0 →
    let h := (s.arg0.extractLsb' 0 8).toNat
    let W := s.memRead .frameIn 0 (len - if fcs then 4 else 0)
    let klen := (s.readByte 0x9000).toNat
    len ≤ 4096 → 24 ≤ h → h + (if fcs then 4 else 0) ≤ len →
    let succeeds (i : Instr) (res1 : Word) (P : Bytes) : Prop :=
      ∃ t, exec i s = .next t ∧
        t.Reports i.opcode .ok .none (BitVec.ofNat 32 P.length) res1 (BitVec.ofNat 32 (outputFrame W h P fcs).length) ∧
        t.FrameOutHolds (outputFrame W h P fcs) ∧ t.store = s.store ∧ s.FrameOnly t
    (1 ≤ klen → klen ≤ 32 → ∀ P, wepTry W h (s.memRead .param 1 klen) = .ok P → succeeds (.wepDecrypt fcs len) 0x200 P) ∧
    (∀ P, tkipTry W h (s.memRead .param 0 16) = .ok P → succeeds (.tkipDecrypt fcs len) 0x400 P) ∧
    (hdrLen W ≤ h → ∀ P, ccmpTry W h (s.memRead .param 0 16) = .ok P → succeeds (.ccmpDecrypt fcs len) 0x600 P)

/-- In every state with ARG0[31:8] = 0: L above 4096 or HDR_LEN under 24 gives ILLEGAL_COMMAND / BAD_FIELD for the
three commands, and so does KLEN outside 1..32 for WEP_DECRYPT; otherwise L under HDR_LEN + 4·FCS gives TOO_SHORT /
WRONG_DATA_SIZE; otherwise HDR_LEN under HdrLen(W) gives ILLEGAL_COMMAND / BAD_FIELD for CCMP_DECRYPT; otherwise a
pipeline failure WRONG_DATA_SIZE gives TOO_SHORT / WRONG_DATA_SIZE, ICV_MISMATCH gives ICV_MISMATCH twice and
MIC_MISMATCH gives MIC_MISMATCH twice. RES0 = RES1 = OUT_LEN = 0, and nothing else changes but, where the command was
legal, FRAME_OUT. (Rests on R168, R169, R170, R171.) -/
def Obligations.DecryptCommandsFail : Prop :=
  ∀ (s : State) (fcs : Bool) (len : Nat), s.arg0.extractLsb' 8 24 = 0 →
    let h := (s.arg0.extractLsb' 0 8).toNat
    let W := s.memRead .frameIn 0 (len - if fcs then 4 else 0)
    let klen := (s.readByte 0x9000).toNat
    let illegal (i : Instr) : Prop :=
      ∃ t, exec i s = .next t ∧ t.Reports i.opcode .illegalCommand .badField 0 0 0 ∧ s.SameButResults t
    let stops (i : Instr) (o : OutcomeCode) (r : ReasonCode) : Prop :=
      ∃ t, exec i s = .next t ∧ t.Reports i.opcode o r 0 0 0 ∧ t.store = s.store ∧ s.FrameOnly t
    let kinds : List (PipeFail × OutcomeCode × ReasonCode) :=
      [(.wrongDataSize, .tooShort, .wrongDataSize), (.icvMismatch, .icvMismatch, .icvMismatch),
        (.micMismatch, .micMismatch, .micMismatch)]
    ((4096 < len ∨ h < 24) →
      illegal (.wepDecrypt fcs len) ∧ illegal (.tkipDecrypt fcs len) ∧ illegal (.ccmpDecrypt fcs len)) ∧
    ((klen < 1 ∨ 32 < klen) → illegal (.wepDecrypt fcs len)) ∧
    (len ≤ 4096 → 24 ≤ h → len < h + (if fcs then 4 else 0) →
      (1 ≤ klen → klen ≤ 32 → stops (.wepDecrypt fcs len) .tooShort .wrongDataSize) ∧
        stops (.tkipDecrypt fcs len) .tooShort .wrongDataSize ∧ stops (.ccmpDecrypt fcs len) .tooShort .wrongDataSize) ∧
    (len ≤ 4096 → 24 ≤ h → h + (if fcs then 4 else 0) ≤ len →
      (1 ≤ klen → klen ≤ 32 → ∀ x ∈ kinds, wepTry W h (s.memRead .param 1 klen) = .error x.1 →
        stops (.wepDecrypt fcs len) x.2.1 x.2.2) ∧
      (∀ x ∈ kinds, tkipTry W h (s.memRead .param 0 16) = .error x.1 → stops (.tkipDecrypt fcs len) x.2.1 x.2.2) ∧
      (h < hdrLen W → illegal (.ccmpDecrypt fcs len)) ∧
      (hdrLen W ≤ h → ∀ x ∈ kinds, ccmpTry W h (s.memRead .param 0 16) = .error x.1 →
        stops (.ccmpDecrypt fcs len) x.2.1 x.2.2))

/-- In every state PROCESS_PACKET, in this order: L above 4096 gives ILLEGAL_COMMAND / BAD_FIELD with RES0 = 0 and
changes nothing but the result registers; an empty view gives UNSUCCESSFUL / WRONG_DATA_SIZE; a frame type other than
2 gives NOT_DATA; a frame shorter than 2 bytes, than its header or than its header plus MIN_CT_LEN gives TOO_SHORT /
WRONG_DATA_SIZE; DS = 3 gives REQUIRED_DATA_MISSING; and, from a state that meets the invariant, an id that no used
slot holds with every slot used gives UNSUCCESSFUL / STORE_FULL. Each of these but the first has RES0 = 0xFFFFFFFF and
RES1 = OUT_LEN = 0 and leaves the store, the keys, the control state and every buffer but FRAME_OUT unchanged. (Rests
on R174, R175, R176, R177, R178, R179, R193, R194.) -/
def Obligations.PacketsStoppedBeforeTheSa : Prop :=
  ∀ (s : State) (fcs rt hs dec : Bool) (len : Nat),
    let base := if rt then 24 else 0
    let stop := if fcs then len - 4 else len
    let stops (o : OutcomeCode) (r : ReasonCode) : Prop :=
      ∃ t, exec (.processPacket fcs rt hs dec len) s = .next t ∧ t.Reports 0x40 o r 0xFFFFFFFF 0 0 ∧ t.store = s.store ∧
        s.FrameOnly t
    (4096 < len →
      ∃ t, exec (.processPacket fcs rt hs dec len) s = .next t ∧ t.Reports 0x40 .illegalCommand .badField 0 0 0 ∧
        s.SameButResults t) ∧
    (len ≤ 4096 → stop ≤ base → stops .unsuccessful .wrongDataSize) ∧
    (len ≤ 4096 → base < stop →
      let F := s.memRead .frameIn base (stop - base)
      (frameType F ≠ 2 → stops .notData .none) ∧
      (frameType F = 2 → (F.length < 2 ∨ F.length < hdrLen F ∨ F.length < hdrLen F + s.params.minCtLen) →
        stops .tooShort .wrongDataSize) ∧
      (frameType F = 2 → 2 ≤ F.length → hdrLen F + s.params.minCtLen ≤ F.length → frameDs F = 3 →
        stops .requiredDataMissing .none)) ∧
    (∀ F id, s.Inv → s.DataFrame fcs rt len F id → (∀ k, (s.store.slot k).used = true → (s.store.slot k).id ≠ id) →
      (∀ k, k < s.params.saCap → (s.store.slot k).used = true) → stops .unsuccessful .storeFull)

/-- For every data frame that PROCESS_PACKET classifies, the SA id is (A3, A2) for DS = 0, (A1, A2) for DS = 1 and
(A2, A1) for DS = 2, with A1, A2 and A3 the six bytes at offsets 4, 10 and 16, and there is none for DS = 3; the MAC
header has 24 bytes, 6 more for DS = 3 and 2 more for a QoS data frame. (Rests on R81, R178.) -/
def Obligations.AddressesSelectTheSa : Prop :=
  ∀ F : Bytes,
    let ds := (byteAt F 1).extractLsb' 0 2
    (ds = 0 → frameId F = some ⟨slice F 16 6, slice F 10 6⟩) ∧ (ds = 1 → frameId F = some ⟨slice F 4 6, slice F 10 6⟩) ∧
      (ds = 2 → frameId F = some ⟨slice F 10 6, slice F 4 6⟩) ∧ (ds = 3 → frameId F = none) ∧
      hdrLen F =
        (if ds = 3 then 30 else 24) +
          (if (byteAt F 0).extractLsb' 2 2 = 2 ∧ (byteAt F 0).getLsbD 7 = true then 2 else 0)

/-- From every state that meets the invariant, PROCESS_PACKET on a cleartext data frame that reaches slot k, with HS =
0 or with a payload that has not the EAPOL-Key shape, reports NO_DATA_ENCRYPTED with RES0 = k and RES1 = OUT_LEN = 0;
the slot keeps its contents (allocated if it was free), and nothing else changes but FRAME_OUT. (Rests on R180, R181,
R182, R193, R194.) -/
def Obligations.CleartextPacketsWithoutHandshake : Prop :=
  ∀ (s : State) (fcs rt hs dec : Bool) (len : Nat) (F : Bytes) (k : Nat) (sl : SaSlot),
    s.Reaches fcs rt len F k sl → frameProtected F = false → (hs = false ∨ ¬ ∃ E K, EapolKey F E K) →
    ∃ t, exec (.processPacket fcs rt hs dec len) s = .next t ∧
      t.Reports 0x40 .noDataEncrypted .none (BitVec.ofNat 32 k) 0 0 ∧ s.store.Wrote t.store k sl ∧ s.FrameOnly t

/-- From every state that meets the invariant, PROCESS_PACKET with DEC = 1 on a protected data frame that reaches slot
k, with ExtIV = 0: with c the first WEP candidate of the SA whose pipeline succeeds, with payload P, it reports OK
with RES0 = k, RES1 = (KEY_INDEX c, KEY_VALID, CIPHER 1) and OUT_LEN the length of the output frame, which FRAME_OUT[0
+: OUT_LEN] holds; slot k gets CK_VALID = 1 and CK_INDEX = c and no other change; nothing else changes but FRAME_OUT.
The candidates are in the order of R123: the key CK_INDEX first where CK_VALID = 1 and it is a WEP key, then every WEP
key below KEYS_NR in order of index, the cached one again among them. So of two keys that both verify, the cached one
is reported. (Rests on R45, R113, R123, R150, R184, R185, R187, R193.) -/
def Obligations.WepPacketDecrypts : Prop :=
  ∀ (s : State) (fcs rt hs : Bool) (len : Nat) (F : Bytes) (k : Nat) (sl : SaSlot),
    s.Reaches fcs rt len F k sl → frameProtected F = true → hdrLen F + 4 ≤ F.length → extIv F (hdrLen F) = false →
    let wep (j : Nat) : Bool := (s.keys[j]?).any fun e => e.kind = .wep
    let candidates : List Nat :=
      (if sl.ckValid = true ∧ wep sl.ckIndex.toNat = true then [sl.ckIndex.toNat] else []) ++
        (List.range s.keys.length).filter wep
    let wepKey (j : Nat) : Bytes := ((s.keys[j]?).map fun e => slice e.key 0 e.keyLen.toNat).getD []
    ∀ (tried : List Nat) (c : Nat) (others : List Nat) (P : Bytes), candidates = tried ++ c :: others →
    (∀ j ∈ tried, ∃ e, wepTry F (hdrLen F) (wepKey j) = .error e) →
    wepTry F (hdrLen F) (wepKey c) = .ok P →
    ∃ t, exec (.processPacket fcs rt hs true len) s = .next t ∧
      t.Reports 0x40 .ok .none (BitVec.ofNat 32 k) (0x00000#20 ++ 0x3#4 ++ BitVec.ofNat 8 c)
        (BitVec.ofNat 32 (outputFrame F (hdrLen F) P fcs).length) ∧
      t.FrameOutHolds (outputFrame F (hdrLen F) P fcs) ∧
      s.store.Wrote t.store k { sl with ckValid := true, ckIndex := BitVec.ofNat 8 c } ∧ s.FrameOnly t

/-- From every state that meets the invariant, PROCESS_PACKET with DEC = 1 on a protected data frame that reaches slot
k, with ExtIV = 1, CK_VALID = 1 and VALID_KEY = 1, and TK = PTK[32 +: 16]: with KEY_VER = 1 and a TKIP success, or
with any other KEY_VER, a CCMP success and no replay, it reports OK with RES0 = k, RES1 = (CK_INDEX, KEY_VALID, CIPHER
2 or 3) and OUT_LEN the length of the output frame, which FRAME_OUT[0 +: OUT_LEN] holds; the slot keeps its contents,
but for PN and PN_VALID = 1 after a CCMP success with the replay check on (CTRL.REPLAY_EN = 1 and the option
implemented, log 12); nothing else changes but FRAME_OUT. (Rests on R150, R165, R188, R189, R190, R191, R193.) -/
def Obligations.RsnaPacketDecrypts : Prop :=
  ∀ (s : State) (fcs rt hs : Bool) (len : Nat) (F : Bytes) (k : Nat) (sl : SaSlot),
    s.Reaches fcs rt len F k sl → frameProtected F = true → hdrLen F + 4 ≤ F.length → extIv F (hdrLen F) = true →
    sl.ckValid = true → sl.validKey = true →
    let decrypts (cipher : BitVec 4) (P : Bytes) (sl' : SaSlot) : Prop :=
      ∃ t, exec (.processPacket fcs rt hs true len) s = .next t ∧
        t.Reports 0x40 .ok .none (BitVec.ofNat 32 k) (0x00000#20 ++ cipher ++ sl.ckIndex)
          (BitVec.ofNat 32 (outputFrame F (hdrLen F) P fcs).length) ∧
        t.FrameOutHolds (outputFrame F (hdrLen F) P fcs) ∧ s.store.Wrote t.store k sl' ∧ s.FrameOnly t
    let pn := ccmpPn F (hdrLen F)
    ∀ P, (sl.keyVer = 1 → tkipTry F (hdrLen F) (slice sl.ptk 32 16) = .ok P → decrypts 0x5 P sl) ∧
      (sl.keyVer ≠ 1 → ccmpTry F (hdrLen F) (slice sl.ptk 32 16) = .ok P →
        (s.replayEn = false → decrypts 0x7 P sl) ∧
        (s.replayEn = true → (sl.pnValid = false ∨ sl.pn.toNat < pn.toNat) →
          decrypts 0x7 P { sl with pn := pn, pnValid := true }))

/-- From every state that meets the invariant, PROCESS_PACKET on a protected data frame that reaches slot k reports
UNSUCCESSFUL with RES0 = k and RES1 = OUT_LEN = 0, in this order: DEC = 0 gives NONE; fewer than 4 bytes after the
header give WRONG_DATA_SIZE; on the WEP path no WEP candidate gives NO_KEY and candidates that all fail give the
reason of the last one; on the RSNA path CK_VALID = 0 gives NO_CACHED_KEY, VALID_KEY = 0 gives KEY_NOT_VALID, a TKIP
or CCMP failure gives its own reason, and with the replay check on a verified packet number not above the PN of the SA
gives REPLAY. The slot keeps its contents (allocated if it was free), and nothing else changes but FRAME_OUT. The
candidates are in the order of R123: the key CK_INDEX first where CK_VALID = 1 and it is a WEP key, then every WEP key
below KEYS_NR in order of index, the cached one again among them. (Rests on R113, R123, R165, R184, R185, R186, R187,
R188, R190, R192, R193, R194.) -/
def Obligations.ProtectedPacketFailures : Prop :=
  ∀ (s : State) (fcs rt hs : Bool) (len : Nat) (F : Bytes) (k : Nat) (sl : SaSlot),
    s.Reaches fcs rt len F k sl → frameProtected F = true →
    let fails (dec : Bool) (r : ReasonCode) : Prop :=
      ∃ t, exec (.processPacket fcs rt hs dec len) s = .next t ∧ t.Reports 0x40 .unsuccessful r (BitVec.ofNat 32 k) 0 0 ∧
        s.store.Wrote t.store k sl ∧ s.FrameOnly t
    let kinds : List (PipeFail × ReasonCode) :=
      [(.wrongDataSize, .wrongDataSize), (.icvMismatch, .icvMismatch), (.micMismatch, .micMismatch)]
    let wep (j : Nat) : Bool := (s.keys[j]?).any fun e => e.kind = .wep
    let candidates : List Nat :=
      (if sl.ckValid = true ∧ wep sl.ckIndex.toNat = true then [sl.ckIndex.toNat] else []) ++
        (List.range s.keys.length).filter wep
    let wepKey (j : Nat) : Bytes := ((s.keys[j]?).map fun e => slice e.key 0 e.keyLen.toNat).getD []
    fails false .none ∧ (F.length < hdrLen F + 4 → fails true .wrongDataSize) ∧
    (hdrLen F + 4 ≤ F.length → extIv F (hdrLen F) = false →
      (candidates = [] → fails true .noKey) ∧
      (∀ tried c, candidates = tried ++ [c] →
        (∀ j ∈ tried, ∃ e, wepTry F (hdrLen F) (wepKey j) = .error e) →
        ∀ x ∈ kinds, wepTry F (hdrLen F) (wepKey c) = .error x.1 → fails true x.2)) ∧
    (hdrLen F + 4 ≤ F.length → extIv F (hdrLen F) = true →
      (sl.ckValid = false → fails true .noCachedKey) ∧
      (sl.ckValid = true → sl.validKey = false → fails true .keyNotValid) ∧
      (sl.ckValid = true → sl.validKey = true →
        (sl.keyVer = 1 → ∀ x ∈ kinds, tkipTry F (hdrLen F) (slice sl.ptk 32 16) = .error x.1 → fails true x.2) ∧
        (sl.keyVer ≠ 1 →
          (∀ x ∈ kinds, ccmpTry F (hdrLen F) (slice sl.ptk 32 16) = .error x.1 → fails true x.2) ∧
          (∀ P, ccmpTry F (hdrLen F) (slice sl.ptk 32 16) = .ok P → s.replayEn = true → sl.pnValid = true →
            (ccmpPn F (hdrLen F)).toNat ≤ sl.pn.toNat → fails true .replay))))

/-- For every operand and every state, PROCESS_PACKET completes, leaves the key collection, the control state and
every buffer byte outside FRAME_OUT as they were, and keeps the length of the SA table. For a data frame F with SA id
id, where LookupOrAllocate(id) answers slot k and the store st, RES0 = k, every slot other than k is unchanged, and
FFI and LSI are those of st; and from a state that meets the invariant, slot k is the used slot that holds id, or else
the first free slot from FFI on where no used slot holds it. Where no SA is reached (the frame is no such data frame,
or LookupOrAllocate is full) the SA table, FFI and LSI are unchanged. (Rests on R104, R108, R137, R179, R193, R196.)
-/
def Obligations.PacketTouchesOneSlot : Prop :=
  ∀ (fcs rt hs dec : Bool) (len : Nat) (s : State),
    ∃ t, exec (.processPacket fcs rt hs dec len) s = .next t ∧ s.FrameOnly t ∧
      t.store.slots.length = s.store.slots.length ∧
      (∀ (F : Bytes) (id : SaId) (k : Nat) (st : SaStore), s.DataFrame fcs rt len F id →
        s.store.lookupOrAllocate s.params.saCap id = some (k, st) →
        t.res0 = BitVec.ofNat 32 k ∧ (∀ j, j ≠ k → t.store.slot j = s.store.slot j) ∧
          t.store.ffi = st.ffi ∧ t.store.lsi = st.lsi ∧
          (s.Inv → s.store.saFor s.params.saCap id k (st.slot k))) ∧
      ((∀ (F : Bytes) (id : SaId), s.DataFrame fcs rt len F id → s.store.lookupOrAllocate s.params.saCap id = none) →
        t.store = s.store)
end

