-- ==== Sys2Proof/Laws/Bytes.lean ====
section
/-! SUPPORT. The lengths of byte strings, digests and records, and the algebra of `⊕` and of RC4. -/

namespace Sys2Proof.Machine

@[simp] theorem length_zeros (n : Nat) : (zeros n).length = n := by simp [zeros]

@[simp] theorem length_slice (B : Bytes) (o n : Nat) : (slice B o n).length = min n (B.length - o) := by simp [slice]

theorem length_slice_of_le {B : Bytes} {o n : Nat} (h : o + n ≤ B.length) : (slice B o n).length = n := by
  rw [length_slice]
  omega

@[simp] theorem length_xorBytes (A B : Bytes) : (xorBytes A B).length = min A.length B.length := by simp [xorBytes]

@[simp] theorem length_be16Bytes (v : Half) : (be16Bytes v).length = 2 := rfl

@[simp] theorem length_be32Bytes (v : Word) : (be32Bytes v).length = 4 := rfl

@[simp] theorem length_le32Bytes (v : Word) : (le32Bytes v).length = 4 := rfl

@[simp] theorem length_le48Bytes (v : BitVec 48) : (le48Bytes v).length = 6 := rfl

@[simp] theorem length_be48Bytes (v : BitVec 48) : (be48Bytes v).length = 6 := rfl

/-- `LE32` of two numbers agree only where the numbers do. -/
theorem le32Bytes_injective {v w : Word} (h : le32Bytes v = le32Bytes w) : v = w := by
  simp only [le32Bytes, List.cons.injEq, and_true] at h
  obtain ⟨h0, h1, h2, h3⟩ := h
  apply BitVec.eq_of_getLsbD_eq
  intro i hi
  have e0 := congrArg (fun b => b.getLsbD (i % 8)) h0
  have e1 := congrArg (fun b => b.getLsbD (i % 8)) h1
  have e2 := congrArg (fun b => b.getLsbD (i % 8)) h2
  have e3 := congrArg (fun b => b.getLsbD (i % 8)) h3
  have hm : i % 8 < 8 := Nat.mod_lt _ (by omega)
  simp only [BitVec.getLsbD_extractLsb', hm, decide_true, Bool.true_and] at e0 e1 e2 e3
  have : i / 8 = 0 ∨ i / 8 = 1 ∨ i / 8 = 2 ∨ i / 8 = 3 := by omega
  rcases this with q | q | q | q
  · rwa [show 0 + i % 8 = i by omega] at e0
  · rwa [show 8 + i % 8 = i by omega] at e1
  · rwa [show 16 + i % 8 = i by omega] at e2
  · rwa [show 24 + i % 8 = i by omega] at e3

/-! ### `⊕` and RC4 -/

/-- `⊕` with the same string twice changes nothing. -/
theorem xorBytes_xorBytes_cancel (A B : Bytes) (h : A.length ≤ B.length) : xorBytes (xorBytes A B) B = A := by
  induction A generalizing B with
  | nil => simp [xorBytes]
  | cons a A ih =>
    cases B with
    | nil => simp at h
    | cons b B =>
      simp only [xorBytes, List.zipWith_cons_cons, List.cons.injEq] at ih ⊢
      exact ⟨by rw [BitVec.xor_assoc, BitVec.xor_self, BitVec.xor_zero], ih B (by simpa using h)⟩

@[simp] theorem length_rc4Stream (n : Nat) (S : Bytes) (i j : Byte) : (rc4Stream n S i j).length = n := by
  induction n generalizing S i j with
  | zero => rfl
  | succ n ih => simp [rc4Stream, ih]

@[simp] theorem length_rc4Keystream (K : Bytes) (n : Nat) : (rc4Keystream K n).length = n := by simp [rc4Keystream]

@[simp] theorem length_rc4 (K d : Bytes) : (rc4 K d).length = d.length := by simp [rc4]

/-! ### Digests -/

@[simp] theorem length_sha1 (d : Bytes) : (sha1 d).length = 20 := by simp [sha1, sha1Digest]

@[simp] theorem length_md5 (d : Bytes) : (md5 d).length = 16 := by simp [md5, md5Digest]

@[simp] theorem length_hmacSha1 (k d : Bytes) : (hmacSha1 k d).length = 20 := by simp [hmacSha1, hmac]

@[simp] theorem length_hmacMd5 (k d : Bytes) : (hmacMd5 k d).length = 16 := by simp [hmacMd5, hmac]

@[simp] theorem length_micCompute (kck d : Bytes) (ver : BitVec 3) : (micCompute kck d ver).length = 16 := by
  simp only [micCompute]
  split <;> simp

@[simp] theorem length_toBytes (x : AesBlock) : x.toBytes.length = 16 := by simp [AesBlock.toBytes]

@[simp] theorem length_aes128 (k b : Bytes) : (aes128 k b).length = 16 := by simp [aes128]

/-! ### Derived keys -/

theorem length_pbkdf2Loop (P : Bytes) (n : Nat) (U T : Bytes) (h : T.length = 20) :
    (pbkdf2Loop P n U T).length = 20 := by
  induction n generalizing U T with
  | zero => exact h
  | succ n ih => exact ih _ _ (by simp [h])

@[simp] theorem length_pbkdf2Block (P S : Bytes) (i : Nat) : (pbkdf2Block P S i).length = 20 :=
  length_pbkdf2Loop _ _ _ _ (by simp)

@[simp] theorem length_passwordToPsk (P S : Bytes) : (passwordToPsk P S).length = 32 := by simp [passwordToPsk]

@[simp] theorem length_prfBlock (K A B : Bytes) (i : Nat) : (prfBlock K A B i).length = 20 := by simp [prfBlock]

/-- The PRF gives `NBITS / 8` bytes. -/
@[simp] theorem length_prf (K A B : Bytes) (nbits : Nat) : (prf K A B nbits).length = nbits / 8 := by
  simp only [prf, length_slice, List.length_flatMap, length_prfBlock, List.map_const', List.length_range,
    List.sum_replicate, smul_eq_mul]
  omega

@[simp] theorem length_derivePtk (pmk aa spa an sn : Bytes) (nbits : Nat) :
    (derivePtk pmk aa spa an sn nbits).length = nbits / 8 := by simp [derivePtk]

@[simp] theorem length_candidatePtk (keys : List KeyEntry) (sl : SaSlot) (sn : Bytes) (k : Nat) :
    (candidatePtk keys sl sn k).length = 64 := by simp [candidatePtk, Config.ptkBits]

@[simp] theorem length_paramPtk (s : State) (nbits : Nat) : (s.paramPtk nbits).length = nbits / 8 := by
  simp [State.paramPtk]

/-! ### Output frames -/

@[simp] theorem length_clearProtected (O : Bytes) : (clearProtected O).length = O.length := by simp [clearProtected]

/-- `|O| = h + |P| + 4·FCS` (R150). -/
theorem length_outputFrame (W : Bytes) (h : Nat) (P : Bytes) (fcs : Bool) :
    (outputFrame W h P fcs).length = min h W.length + P.length + fcsLen fcs := by
  cases fcs <;> simp [outputFrame, plainFrame, fcsLen, slice]

end Sys2Proof.Machine
end

