-- ==== Sys2Proof/Laws/Store.lean ====
section
/-! SUPPORT. The SA store's operations, each with what it can do said once (spec/40_sa_store.md R100 to R108). -/

namespace Sys2Proof.Machine

/-! ### Slots -/

theorem SaStore.slot_eq_zero_of_le {st : SaStore} {k : Nat} (h : st.slots.length ≤ k) : st.slot k = SaSlot.zero := by
  simp [SaStore.slot, List.getD_eq_getElem?_getD, List.getElem?_eq_none h]

theorem SaStore.lt_of_used {st : SaStore} {k : Nat} (h : (st.slot k).used = true) : k < st.slots.length := by
  by_contra hk
  rw [SaStore.slot_eq_zero_of_le (by omega)] at h
  exact absurd h (by decide)

@[simp] theorem SaStore.setSlot_ffi (st : SaStore) (k : Nat) (sl : SaSlot) : (st.setSlot k sl).ffi = st.ffi := rfl

@[simp] theorem SaStore.setSlot_lsi (st : SaStore) (k : Nat) (sl : SaSlot) : (st.setSlot k sl).lsi = st.lsi := rfl

@[simp] theorem SaStore.setSlot_length (st : SaStore) (k : Nat) (sl : SaSlot) :
    (st.setSlot k sl).slots.length = st.slots.length := by simp [SaStore.setSlot]

theorem SaStore.slot_setSlot_same {st : SaStore} {k : Nat} (h : k < st.slots.length) (sl : SaSlot) :
    (st.setSlot k sl).slot k = sl := by
  simp [SaStore.slot, SaStore.setSlot, List.getD_eq_getElem?_getD, h]

theorem SaStore.slot_setSlot_other (st : SaStore) {k j : Nat} (h : j ≠ k) (sl : SaSlot) :
    (st.setSlot k sl).slot j = st.slot j := by
  simp [SaStore.slot, SaStore.setSlot, List.getD_eq_getElem?_getD, List.getElem?_set_ne (Ne.symm h)]

/-- Slot `k` of a store whose table had slot `k` replaced, whatever its FFI and LSI. -/
theorem SaStore.slot_set_same {st : SaStore} {k : Nat} (h : k < st.slots.length) (sl : SaSlot) (ffi : Nat) (lsi : Int) :
    SaStore.slot ⟨st.slots.set k sl, ffi, lsi⟩ k = sl := SaStore.slot_setSlot_same (st := st) h sl

/-- Every other slot of such a store. -/
theorem SaStore.slot_set_other (st : SaStore) {k j : Nat} (h : j ≠ k) (sl : SaSlot) (ffi : Nat) (lsi : Int) :
    SaStore.slot ⟨st.slots.set k sl, ffi, lsi⟩ j = st.slot j := SaStore.slot_setSlot_other st h sl

/-- Writing back the slot that is there changes nothing. -/
theorem SaStore.setSlot_slot (st : SaStore) (k : Nat) : st.setSlot k (st.slot k) = st := by
  cases st with
  | mk slots ffi lsi =>
    simp only [SaStore.setSlot, SaStore.slot, SaStore.mk.injEq, and_true]
    apply List.ext_getElem?
    intro i
    by_cases h : k = i
    · subst h
      by_cases hk : k < slots.length <;> simp [hk, List.getD_eq_getElem?_getD]
    · simp [List.getElem?_set_ne h]

@[simp] theorem SaStore.slot_empty (cap k : Nat) : (SaStore.empty cap).slot k = SaSlot.zero := by
  by_cases h : k < cap <;> simp [SaStore.slot, SaStore.empty, List.getD_eq_getElem?_getD, h]

@[simp] theorem SaStore.empty_length (cap : Nat) : (SaStore.empty cap).slots.length = cap := by simp [SaStore.empty]

@[simp] theorem SaStore.empty_ffi (cap : Nat) : (SaStore.empty cap).ffi = 0 := rfl

@[simp] theorem SaStore.empty_lsi (cap : Nat) : (SaStore.empty cap).lsi = -1 := rfl

@[simp] theorem SaSlot.zero_used : SaSlot.zero.used = false := rfl

@[simp] theorem SaSlot.zero_ckValid : SaSlot.zero.ckValid = false := rfl

@[simp] theorem SaSlot.zero_ckIndex : SaSlot.zero.ckIndex = 0 := rfl

theorem SaSlot.zero_widths : SaSlot.zero.widths := by simp [SaSlot.widths, SaSlot.zero, zeros]

@[simp] theorem freshSlot_used (id : SaId) : (freshSlot id).used = true := rfl

@[simp] theorem freshSlot_id (id : SaId) : (freshSlot id).id = id := rfl

@[simp] theorem freshSlot_ckValid (id : SaId) : (freshSlot id).ckValid = false := rfl

@[simp] theorem freshSlot_ckIndex (id : SaId) : (freshSlot id).ckIndex = 0 := rfl

@[simp] theorem freshSlot_validKey (id : SaId) : (freshSlot id).validKey = false := rfl

theorem freshSlot_widths {id : SaId} (hb : id.bssid.length = 6) (hs : id.sta.length = 6) : (freshSlot id).widths := by
  simp [SaSlot.widths, freshSlot, SaSlot.zero, zeros, hb, hs]

/-! ### Lookup (R103) -/

theorem SaStore.holds_iff {st : SaStore} {id : SaId} {k : Nat} :
    st.holds id k = true ↔ (st.slot k).used = true ∧ (st.slot k).id = id := by
  simp [SaStore.holds]

/-- What the scan from `n - 1` down to 0 can answer: the highest slot below `n` that holds the id, or nothing because none
does. -/
theorem SaStore.lookupBelow_spec (st : SaStore) (id : SaId) (n : Nat) :
    (∃ k, st.lookupBelow id n = some k ∧ k < n ∧ st.holds id k = true ∧ ∀ j, k < j → j < n → st.holds id j = false) ∨
      (st.lookupBelow id n = none ∧ ∀ j, j < n → st.holds id j = false) := by
  induction n with
  | zero => exact .inr ⟨rfl, fun j h => absurd h (by omega)⟩
  | succ n ih =>
    by_cases h : st.holds id n = true
    · exact .inl ⟨n, by simp [SaStore.lookupBelow, h], by omega, h, fun j h1 h2 => absurd h2 (by omega)⟩
    · have hn : st.holds id n = false := by simpa using h
      have step : ∀ {j}, j < n + 1 → j ≠ n → j < n := by omega
      rcases ih with ⟨k, e, hk, hh, hj⟩ | ⟨e, hj⟩
      · refine .inl ⟨k, by simp [SaStore.lookupBelow, hn, e], by omega, hh, fun j h1 h2 => ?_⟩
        by_cases hjn : j = n
        · exact hjn ▸ hn
        · exact hj j h1 (step h2 hjn)
      · refine .inr ⟨by simp [SaStore.lookupBelow, hn, e], fun j h2 => ?_⟩
        by_cases hjn : j = n
        · exact hjn ▸ hn
        · exact hj j (step h2 hjn)

/-- What `Lookup` can answer: a slot up to LSI that is used and holds the id, or nothing because no slot up to LSI does. -/
theorem SaStore.lookup_spec (st : SaStore) (id : SaId) :
    (∃ k, st.lookup id = some k ∧ (k : Int) ≤ st.lsi ∧ (st.slot k).used = true ∧ (st.slot k).id = id) ∨
      (st.lookup id = none ∧ ∀ j : Nat, (j : Int) ≤ st.lsi → (st.slot j).used = true → (st.slot j).id ≠ id) := by
  rcases st.lookupBelow_spec id (st.lsi + 1).toNat with ⟨k, e, hk, hh, -⟩ | ⟨e, hj⟩
  · obtain ⟨h1, h2⟩ := SaStore.holds_iff.1 hh
    exact .inl ⟨k, e, by omega, h1, h2⟩
  · refine .inr ⟨e, fun j h1 h2 h3 => ?_⟩
    have := hj j (by omega)
    rw [SaStore.holds_iff.2 ⟨h2, h3⟩] at this
    cases this

/-- A miss, where every used slot is at most LSI, means that no used slot holds the id. -/
theorem SaStore.lookup_none {st : SaStore} {id : SaId} (hb : st.usedBelowLsi) (h : st.lookup id = none) (j : Nat)
    (hu : (st.slot j).used = true) : (st.slot j).id ≠ id := by
  rcases st.lookup_spec id with ⟨k, e, -⟩ | ⟨-, hj⟩
  · rw [h] at e
    cases e
  · exact hj j (hb j hu) hu

/-! ### Allocate (R104) -/

/-- The forward scan stops within its bound, passes used slots only, and stops short of the bound at a free slot. -/
theorem SaStore.scanUsed_spec (st : SaStore) (n k : Nat) :
    k ≤ st.scanUsed n k ∧ st.scanUsed n k ≤ k + n ∧
      (∀ j, k ≤ j → j < st.scanUsed n k → (st.slot j).used = true) ∧
      (st.scanUsed n k < k + n → (st.slot (st.scanUsed n k)).used = false) := by
  induction n generalizing k with
  | zero => exact ⟨Nat.le_refl _, Nat.le_refl _, fun j h1 h2 => absurd h2 (by simp only [SaStore.scanUsed]; omega),
      fun h => absurd h (by simp [SaStore.scanUsed])⟩
  | succ n ih =>
    by_cases h : (st.slot k).used = true
    · simp only [SaStore.scanUsed, h, if_true]
      obtain ⟨h1, h2, h3, h4⟩ := ih (k + 1)
      refine ⟨by omega, by omega, fun j hj1 hj2 => ?_, fun hj => h4 (by omega)⟩
      by_cases hjk : j = k
      · exact hjk ▸ h
      · exact h3 j (by omega) hj2
    · have hk : (st.slot k).used = false := by simpa using h
      simp only [SaStore.scanUsed, hk, Bool.false_eq_true, if_false]
      exact ⟨Nat.le_refl _, by omega, fun j h1 h2 => absurd h2 (by omega), fun _ => trivial⟩

/-- What `Allocate` can do: take the first free slot from FFI on, or report full because every slot from FFI on is used. -/
theorem SaStore.allocate_spec (st : SaStore) (cap : Nat) (id : SaId) :
    (∃ k, st.allocate cap id = some (k, ⟨st.slots.set k (freshSlot id), k + 1, max st.lsi k⟩) ∧
        st.ffi ≤ k ∧ k < cap ∧ (st.slot k).used = false ∧ ∀ j, st.ffi ≤ j → j < k → (st.slot j).used = true) ∨
      (st.allocate cap id = none ∧ ∀ j, st.ffi ≤ j → j < cap → (st.slot j).used = true) := by
  obtain ⟨h1, h2, h3, h4⟩ := st.scanUsed_spec (cap - st.ffi) st.ffi
  by_cases hc : cap ≤ st.candidate cap
  · exact .inr ⟨by simp [SaStore.allocate, hc], fun j hj1 hj2 => h3 j hj1 (by simp only [SaStore.candidate] at hc; omega)⟩
  · refine .inl ⟨st.candidate cap, ?_, h1, by omega, h4 (by simp only [SaStore.candidate] at hc; omega), h3⟩
    simp only [SaStore.allocate, hc, if_false, Option.some.injEq, Prod.mk.injEq, SaStore.mk.injEq, true_and]
    rw [max_def]
    split <;> split <;> omega

/-! ### Release (R105) -/

@[simp] theorem SaStore.release_ffi (st : SaStore) (k : Nat) :
    (st.release k).ffi = if k < st.ffi then k else st.ffi := rfl

@[simp] theorem SaStore.release_lsi (st : SaStore) (k : Nat) :
    (st.release k).lsi = if (k : Int) = st.lsi then st.lsi - 1 else st.lsi := rfl

@[simp] theorem SaStore.release_length (st : SaStore) (k : Nat) : (st.release k).slots.length = st.slots.length := by
  simp [SaStore.release]

theorem SaStore.release_slot_same {st : SaStore} {k : Nat} (h : k < st.slots.length) :
    (st.release k).slot k = { st.slot k with used := false } :=
  SaStore.slot_setSlot_same (st := st) h _

theorem SaStore.release_slot_other (st : SaStore) {k j : Nat} (h : j ≠ k) : (st.release k).slot j = st.slot j :=
  SaStore.slot_setSlot_other st h _

/-! ### LookupOrAllocate (R108) -/

/-- What `LookupOrAllocate` can do: find the id's slot and leave the store, allocate the first free slot from FFI on, or
report full. -/
theorem SaStore.lookupOrAllocate_spec (st : SaStore) (cap : Nat) (id : SaId) :
    (∃ k, st.lookup id = some k ∧ st.lookupOrAllocate cap id = some (k, st)) ∨
      (∃ k, st.lookup id = none ∧
        st.lookupOrAllocate cap id = some (k, ⟨st.slots.set k (freshSlot id), k + 1, max st.lsi k⟩) ∧
        st.ffi ≤ k ∧ k < cap ∧ (st.slot k).used = false ∧ ∀ j, st.ffi ≤ j → j < k → (st.slot j).used = true) ∨
      (st.lookup id = none ∧ st.lookupOrAllocate cap id = none ∧
        ∀ j, st.ffi ≤ j → j < cap → (st.slot j).used = true) := by
  cases h : st.lookup id with
  | some k => exact .inl ⟨k, rfl, by simp [SaStore.lookupOrAllocate, h]⟩
  | none =>
    rcases st.allocate_spec cap id with ⟨k, e, r⟩ | ⟨e, r⟩
    · exact .inr (.inl ⟨k, rfl, by simp [SaStore.lookupOrAllocate, h, e], r⟩)
    · exact .inr (.inr ⟨rfl, by simp [SaStore.lookupOrAllocate, h, e], r⟩)

end Sys2Proof.Machine
end

