-- ==== Sys2Proof/Laws/Frames.lean ====
section
/-! SUPPORT. What a pipeline, a candidate loop, the handshake and a whole frame can do, each said once
(spec/41_key_collection.md R123; spec/43_handshake.md; spec/44_cipher_pipelines.md; spec/45_packet_processor.md). -/

namespace Sys2Proof.Machine

/-! ### Candidates (R123) -/

theorem isWep_lt {keys : List KeyEntry} {k : Nat} (h : isWep keys k = true) : k < keys.length := by
  by_contra hk
  simp [isWep, List.getElem?_eq_none (Nat.le_of_not_lt hk)] at h

theorem isWpa_lt {keys : List KeyEntry} {k : Nat} (h : isWpa keys k = true) : k < keys.length := by
  by_contra hk
  simp [isWpa, List.getElem?_eq_none (Nat.le_of_not_lt hk)] at h

theorem mem_candidates {fits : Nat → Bool} {n : Nat} {sl : SaSlot} {k : Nat} (h : k ∈ candidates fits n sl) :
    fits k = true := by
  simp only [candidates, List.mem_append, List.mem_filter] at h
  rcases h with h | ⟨-, h⟩
  · split at h
    · rename_i hc
      simp only [List.mem_singleton] at h
      subst h
      simpa using (Bool.and_eq_true_iff.1 hc).2
    · cases h
  · exact h

theorem mem_wpaCandidates {keys : List KeyEntry} {sl : SaSlot} {k : Nat} (h : k ∈ wpaCandidates keys sl) :
    isWpa keys k = true := mem_candidates h

theorem mem_wepCandidates {keys : List KeyEntry} {sl : SaSlot} {k : Nat} (h : k ∈ wepCandidates keys sl) :
    isWep keys k = true := mem_candidates h

/-! ### The pipelines' answers (R149) -/

/-- `WepCore` fails by its ICV only, and its data is four bytes shorter than its input. -/
theorem wepCore_spec (seed C : Bytes) :
    wepCore seed C = .error .icvMismatch ∨ ∃ D, wepCore seed C = .ok D ∧ D.length = C.length - 4 := by
  simp only [wepCore]
  split
  · exact .inr ⟨_, rfl, by simp⟩
  · exact .inl rfl

/-- `WepTry`: too short, an ICV mismatch, or a payload of `n - h - 8` bytes. -/
theorem wepTry_spec (W : Bytes) (h : Nat) (wkey : Bytes) :
    (wepTry W h wkey = .error .wrongDataSize ∧ W.length < h + 8) ∨
      (wepTry W h wkey = .error .icvMismatch ∧ h + 8 ≤ W.length) ∨
      ∃ P, wepTry W h wkey = .ok P ∧ P.length + h + 8 = W.length := by
  simp only [wepTry]
  split
  · exact .inl ⟨rfl, by assumption⟩
  · rcases wepCore_spec (slice W h 3 ++ wkey) (W.drop (h + 4)) with e | ⟨D, e, hD⟩
    · exact .inr (.inl ⟨e, by omega⟩)
    · exact .inr (.inr ⟨D, e, by rw [List.length_drop] at hD; omega⟩)

/-- `TkipTry`: too short, an ICV mismatch, or a payload of `n - h - 20` bytes. -/
theorem tkipTry_spec (W : Bytes) (h : Nat) (tk : Bytes) :
    (tkipTry W h tk = .error .wrongDataSize ∧ W.length < h + 20) ∨
      (tkipTry W h tk = .error .icvMismatch ∧ h + 20 ≤ W.length) ∨
      ∃ P, tkipTry W h tk = .ok P ∧ P.length + h + 20 = W.length := by
  simp only [tkipTry]
  split
  · exact .inl ⟨rfl, by assumption⟩
  · rcases wepCore_spec (tkipSeed W h tk) (W.drop (h + 8)) with e | ⟨D, e, hD⟩
    · exact .inr (.inl ⟨by rw [e], by omega⟩)
    · refine .inr (.inr ⟨slice D 0 (D.length - 8), by rw [e], ?_⟩)
      rw [List.length_drop] at hD
      rw [length_slice]
      omega

/-- The payload loop gives as many bytes as it is given. -/
theorem length_ccmBlocks (tk nonce : Bytes) (n i : Nat) (C x : Bytes) (hn : n = (C.length + 15) / 16) :
    (ccmBlocks tk nonce n i C x).1.length = C.length := by
  induction n generalizing i C x with
  | zero => simp only [ccmBlocks, List.length_nil]; omega
  | succ n ih =>
    simp only [ccmBlocks, List.length_append, length_xorBytes, ccmKeystream, length_aes128, List.length_take]
    rw [ih _ _ _ (by rw [List.length_drop]; omega), List.length_drop]
    omega

/-- `CcmDecrypt`: a MIC mismatch, or a plaintext as long as the ciphertext. -/
theorem ccmDecrypt_spec (tk nonce aad C M : Bytes) :
    ccmDecrypt tk nonce aad C M = .error .micMismatch ∨ ∃ D, ccmDecrypt tk nonce aad C M = .ok D ∧ D.length = C.length := by
  simp only [ccmDecrypt]
  split
  · exact .inr ⟨_, rfl, length_ccmBlocks _ _ _ _ _ _ rfl⟩
  · exact .inl rfl

/-- `CcmpTry`: too short, a MIC mismatch, or a payload of `n - h - 16` bytes. -/
theorem ccmpTry_spec (W : Bytes) (h : Nat) (tk : Bytes) :
    (ccmpTry W h tk = .error .wrongDataSize ∧ W.length < h + 16) ∨
      (ccmpTry W h tk = .error .micMismatch ∧ h + 16 ≤ W.length) ∨
      ∃ P, ccmpTry W h tk = .ok P ∧ P.length + h + 16 = W.length := by
  simp only [ccmpTry]
  split
  · exact .inl ⟨rfl, by assumption⟩
  · rcases ccmDecrypt_spec tk (ccmpNonce W (ccmpPn W h)) (ccmpAad W) (slice W (h + 8) (W.length - h - 16))
      (slice W (W.length - 8) 8) with e | ⟨D, e, hD⟩
    · exact .inr (.inl ⟨e, by omega⟩)
    · refine .inr (.inr ⟨D, e, ?_⟩)
      rw [length_slice] at hD
      omega

/-! ### The loops over candidates -/

/-- The message 2 loop: the first candidate whose MIC matches, or nothing because none does. -/
theorem msg2Search_spec (keys : List KeyEntry) (sl : SaSlot) (sn d claimed : Bytes) (ver : BitVec 3) (L : List Nat) :
    (∃ pre k post, L = pre ++ k :: post ∧
        msg2Search keys sl sn d claimed ver L = some (k, candidatePtk keys sl sn k) ∧
        micMatches d claimed (slice (candidatePtk keys sl sn k) 0 16) ver = true ∧
        ∀ j ∈ pre, micMatches d claimed (slice (candidatePtk keys sl sn j) 0 16) ver = false) ∨
      (msg2Search keys sl sn d claimed ver L = none ∧
        ∀ j ∈ L, micMatches d claimed (slice (candidatePtk keys sl sn j) 0 16) ver = false) := by
  induction L with
  | nil => exact .inr ⟨rfl, by simp⟩
  | cons k L ih =>
    by_cases hk : micMatches d claimed (slice (candidatePtk keys sl sn k) 0 16) ver = true
    · exact .inl ⟨[], k, L, rfl, by simp [msg2Search, hk], hk, by simp⟩
    · have hk' : micMatches d claimed (slice (candidatePtk keys sl sn k) 0 16) ver = false := by simpa using hk
      rcases ih with ⟨pre, j, post, e, h1, h2, h3⟩ | ⟨h1, h2⟩
      · refine .inl ⟨k :: pre, j, post, by simp [e], by simp [msg2Search, hk', h1], h2, ?_⟩
        simpa [hk'] using h3
      · exact .inr ⟨by simp [msg2Search, hk', h1], by simpa [hk'] using h2⟩

/-- The WEP loop: the first candidate that verifies, or the last candidate's failure because none does. -/
theorem wepLoop_spec (keys : List KeyEntry) (W : Bytes) (h : Nat) (last : PipeFail) (L : List Nat) :
    (∃ pre k post P, L = pre ++ k :: post ∧ wepLoop keys W h last L = .ok (k, P) ∧
        wepTry W h (wepKeyOf keys k) = .ok P ∧ ∀ j ∈ pre, ∃ e, wepTry W h (wepKeyOf keys j) = .error e) ∨
      (∃ e, wepLoop keys W h last L = .error e ∧ (∀ j ∈ L, ∃ e, wepTry W h (wepKeyOf keys j) = .error e) ∧
        ((L = [] ∧ e = last) ∨ ∃ pre k, L = pre ++ [k] ∧ wepTry W h (wepKeyOf keys k) = .error e)) := by
  induction L generalizing last with
  | nil => exact .inr ⟨last, rfl, by simp, .inl ⟨rfl, rfl⟩⟩
  | cons k L ih =>
    cases hk : wepTry W h (wepKeyOf keys k) with
    | ok P => exact .inl ⟨[], k, L, P, rfl, by simp [wepLoop, hk], hk, by simp⟩
    | error e =>
      rcases ih e with ⟨pre, j, post, P, e1, h1, h2, h3⟩ | ⟨e', h1, h2, h3⟩
      · refine .inl ⟨k :: pre, j, post, P, by simp [e1], by simp [wepLoop, hk, h1], h2, ?_⟩
        simpa [hk] using h3
      · refine .inr ⟨e', by simp [wepLoop, hk, h1], by simpa [hk] using h2, .inr ?_⟩
        rcases h3 with ⟨rfl, rfl⟩ | ⟨pre, j, rfl, h4⟩
        · exact ⟨[], k, rfl, hk⟩
        · exact ⟨k :: pre, j, rfl, h4⟩

/-! ### What a frame can do -/

/-- The answers that leave the slot alone (R194). -/
def plainPairs : List (OutcomeCode × ReasonCode) :=
  [(.noValidHandshake, .badDescriptor), (.noValidHandshake, .notPairwise), (.noValidHandshake, .noKey),
    (.noValidHandshake, .micMismatch), (.noDataEncrypted, .none), (.unsuccessful, .wrongDataSize),
    (.unsuccessful, .none), (.unsuccessful, .icvMismatch), (.unsuccessful, .micMismatch), (.unsuccessful, .replay),
    (.unsuccessful, .noKey), (.unsuccessful, .noCachedKey), (.unsuccessful, .keyNotValid)]

/-- What a frame can do to its slot `sl`, with what it reports. -/
inductive FrameCase (keys : List KeyEntry) (replayEn fcs hs dec : Bool) (F : Bytes) (sl : SaSlot) : FrameResult → Prop where
  /-- Nothing but a report. -/
  | plain (o : OutcomeCode) (r : ReasonCode) (h : (o, r) ∈ plainPairs) :
      FrameCase keys replayEn fcs hs dec F sl (.plain sl o r)
  /-- A message 1 with body `K`. -/
  | msg1 (hm : hs = true) (K : Bytes) (h : 95 ≤ K.length) : FrameCase keys replayEn fcs hs dec F sl (hsMessage1 sl K)
  /-- A message 2 that candidate `k` verifies. -/
  | msg2 (hm : hs = true) (k : Nat) (sn : Bytes) (h : k ∈ wpaCandidates keys sl) :
      FrameCase keys replayEn fcs hs dec F sl
        ⟨msg2Slot sl k (candidatePtk keys sl sn k), .handshakeStepOk, .none, ⟨BitVec.ofNat 8 k, true, .none, 2⟩, []⟩
  /-- A message 3. -/
  | msg3 (hm : hs = true) : FrameCase keys replayEn fcs hs dec F sl (.step sl 3)
  /-- A message 4. -/
  | msg4 (hm : hs = true) : FrameCase keys replayEn fcs hs dec F sl (hsMessage4 sl)
  /-- A WEP frame that candidate `k` decrypts. -/
  | wep (hd : dec = true) (k : Nat) (P : Bytes) (h : k ∈ wepCandidates keys sl) (hP : P.length + hdrLen F + 8 = F.length) :
      FrameCase keys replayEn fcs hs dec F sl
        ⟨{ sl with ckValid := true, ckIndex := BitVec.ofNat 8 k }, .ok, .none, ⟨BitVec.ofNat 8 k, true, .wep, 0⟩,
          outputFrame F (hdrLen F) P fcs⟩
  /-- A TKIP frame. -/
  | tkip (hd : dec = true) (P : Bytes) (hc : sl.ckValid = true) (hv : sl.validKey = true) (hP : P.length + hdrLen F + 20 = F.length) :
      FrameCase keys replayEn fcs hs dec F sl (rsnaOk sl sl .tkip (outputFrame F (hdrLen F) P fcs))
  /-- A CCMP frame. -/
  | ccmp (hd : dec = true) (P : Bytes) (hc : sl.ckValid = true) (hv : sl.validKey = true) (hP : P.length + hdrLen F + 16 = F.length) :
      FrameCase keys replayEn fcs hs dec F sl
        (rsnaOk sl (acceptPn replayEn (ccmpPn F (hdrLen F)) sl) .ccmp (outputFrame F (hdrLen F) P fcs))

/-- The handshake does one of the handshake's cases. -/
theorem handshake_cases (keys : List KeyEntry) (replayEn fcs hs dec : Bool) (F : Bytes) (sl : SaSlot) (E : Bytes)
    (blen : Nat) (hm : hs = true) (hE : 4 + blen ≤ E.length) : FrameCase keys replayEn fcs hs dec F sl (handshake keys sl E blen) := by
  simp only [handshake]
  split
  · exact .plain _ _ (by decide)
  split
  · exact .plain _ _ (by decide)
  split
  · exact .plain _ _ (by decide)
  simp only [hsMessage]
  split
  · exact .msg1 hm _ (by rw [keyBody, length_slice]; omega)
  · simp only [hsMessage2]
    split
    · exact .plain _ _ (by decide)
    rcases msg2Search_spec keys sl (keyNonce (keyBody E blen)) (micData E blen) (keyMic (keyBody E blen))
      (kiVersion (keyInfo (keyBody E blen))) (wpaCandidates keys sl) with ⟨pre, k, post, e, h1, -, -⟩ | ⟨h1, -⟩
    · rw [h1]
      exact .msg2 hm k _ (by rw [e]; simp)
    · rw [h1]
      exact .plain _ _ (by decide)
  · exact .msg3 hm
  · exact .msg4 hm
  · exact .plain _ _ (by decide)

/-- The cleartext path does one of the cases. -/
theorem cleartextPath_cases (keys : List KeyEntry) (replayEn fcs hs dec : Bool) (F : Bytes) (h : Nat) (sl : SaSlot) :
    FrameCase keys replayEn fcs hs dec F sl (cleartextPath keys hs F h sl) := by
  simp only [cleartextPath]
  split
  · exact .plain _ _ (by decide)
  split
  · exact .plain _ _ (by decide)
  · rename_i hm hk
    refine handshake_cases _ _ _ _ _ _ _ _ _ (by simpa using hm) ?_
    simp only [eapolKeyShape, Bool.not_eq_true, Bool.not_eq_false', Bool.and_eq_true, decide_eq_true_eq] at hk
    obtain ⟨⟨⟨⟨-, -⟩, h3⟩, -⟩, h5⟩ := hk
    rw [List.length_drop]
    omega

theorem pipeReason_plain (e : PipeFail) : (OutcomeCode.unsuccessful, pipeReason e) ∈ plainPairs := by
  cases e <;> decide

/-- The WEP path does one of the cases. -/
theorem wepPath_cases (keys : List KeyEntry) (replayEn fcs hs dec : Bool) (hd : dec = true) (F : Bytes) (sl : SaSlot) :
    FrameCase keys replayEn fcs hs dec F sl (wepPath keys fcs F (hdrLen F) sl) := by
  simp only [wepPath]
  split
  · exact .plain _ _ (by decide)
  rcases wepLoop_spec keys F (hdrLen F) .icvMismatch (wepCandidates keys sl) with
    ⟨pre, k, post, P, e, h1, h2, -⟩ | ⟨e, h1, -⟩
  · rw [h1]
    refine .wep hd k P (by rw [e]; simp) ?_
    rcases wepTry_spec F (hdrLen F) (wepKeyOf keys k) with ⟨h3, -⟩ | ⟨h3, -⟩ | ⟨P', h3, h4⟩
    · rw [h2] at h3
      cases h3
    · rw [h2] at h3
      cases h3
    · rw [h2] at h3
      cases h3
      exact h4
  · rw [h1]
    exact .plain _ _ (pipeReason_plain e)

/-- The RSNA path does one of the cases. -/
theorem rsnaPath_cases (keys : List KeyEntry) (replayEn fcs hs dec : Bool) (hd : dec = true) (F : Bytes) (sl : SaSlot) :
    FrameCase keys replayEn fcs hs dec F sl (rsnaPath replayEn fcs F (hdrLen F) sl) := by
  simp only [rsnaPath]
  split
  · exact .plain _ _ (by decide)
  split
  · exact .plain _ _ (by decide)
  rename_i hc hv
  simp only [Bool.not_eq_true, Bool.not_eq_false'] at hc hv
  split
  · rcases tkipTry_spec F (hdrLen F) sl.tk with ⟨e, -⟩ | ⟨e, -⟩ | ⟨P, e, hP⟩
    · rw [e]
      exact .plain _ _ (pipeReason_plain _)
    · rw [e]
      exact .plain _ _ (pipeReason_plain _)
    · rw [e]
      exact .tkip hd P hc hv hP
  · rcases ccmpTry_spec F (hdrLen F) sl.tk with ⟨e, -⟩ | ⟨e, -⟩ | ⟨P, e, hP⟩
    · rw [e]
      exact .plain _ _ (pipeReason_plain _)
    · rw [e]
      exact .plain _ _ (pipeReason_plain _)
    · rw [e]
      dsimp only
      split
      · exact .plain _ _ (by decide)
      · exact .ccmp hd P hc hv hP

/-- What a classified frame can do to its slot, once. -/
theorem dispatchFrame_cases (keys : List KeyEntry) (replayEn fcs hs dec : Bool) (F : Bytes) (sl : SaSlot) :
    FrameCase keys replayEn fcs hs dec F sl (dispatchFrame keys replayEn fcs hs dec F sl) := by
  simp only [dispatchFrame]
  split
  · simp only [protectedPath]
    split
    · exact .plain _ _ (by decide)
    rename_i hd
    split
    · exact .plain _ _ (by decide)
    split
    · exact rsnaPath_cases _ _ _ _ _ (by simpa using hd) ..
    · exact wepPath_cases _ _ _ _ _ (by simpa using hd) ..
  · exact cleartextPath_cases ..

end Sys2Proof.Machine
end

