-- ==== Sys2Proof/Laws/State.lean ====
section
/-! SUPPORT. One lemma per field per update of the state, each true by rfl: what an update writes, and what it leaves. -/

namespace Sys2Proof.Machine

@[simp] theorem State.finish_params (s : State) (opc : Byte) (o : OutcomeCode) (r : ReasonCode) (res0 res1 outLen : Word) :
    (s.finish opc o r res0 res1 outLen).params = s.params := rfl
@[simp] theorem State.finish_cmd (s : State) (opc : Byte) (o : OutcomeCode) (r : ReasonCode) (res0 res1 outLen : Word) :
    (s.finish opc o r res0 res1 outLen).cmd = s.cmd := rfl
@[simp] theorem State.finish_arg0 (s : State) (opc : Byte) (o : OutcomeCode) (r : ReasonCode) (res0 res1 outLen : Word) :
    (s.finish opc o r res0 res1 outLen).arg0 = s.arg0 := rfl
@[simp] theorem State.finish_status (s : State) (opc : Byte) (o : OutcomeCode) (r : ReasonCode) (res0 res1 outLen : Word) :
    (s.finish opc o r res0 res1 outLen).status = statusWord opc o r := rfl
@[simp] theorem State.finish_res0 (s : State) (opc : Byte) (o : OutcomeCode) (r : ReasonCode) (res0 res1 outLen : Word) :
    (s.finish opc o r res0 res1 outLen).res0 = res0 := rfl
@[simp] theorem State.finish_res1 (s : State) (opc : Byte) (o : OutcomeCode) (r : ReasonCode) (res0 res1 outLen : Word) :
    (s.finish opc o r res0 res1 outLen).res1 = res1 := rfl
@[simp] theorem State.finish_outLen (s : State) (opc : Byte) (o : OutcomeCode) (r : ReasonCode) (res0 res1 outLen : Word) :
    (s.finish opc o r res0 res1 outLen).outLen = outLen := rfl
@[simp] theorem State.finish_ctrl (s : State) (opc : Byte) (o : OutcomeCode) (r : ReasonCode) (res0 res1 outLen : Word) :
    (s.finish opc o r res0 res1 outLen).ctrl = s.ctrl := rfl
@[simp] theorem State.finish_store (s : State) (opc : Byte) (o : OutcomeCode) (r : ReasonCode) (res0 res1 outLen : Word) :
    (s.finish opc o r res0 res1 outLen).store = s.store := rfl
@[simp] theorem State.finish_keys (s : State) (opc : Byte) (o : OutcomeCode) (r : ReasonCode) (res0 res1 outLen : Word) :
    (s.finish opc o r res0 res1 outLen).keys = s.keys := rfl
@[simp] theorem State.finish_mem (s : State) (opc : Byte) (o : OutcomeCode) (r : ReasonCode) (res0 res1 outLen : Word) :
    (s.finish opc o r res0 res1 outLen).mem = s.mem := rfl
@[simp] theorem State.finish_bufDraw (s : State) (opc : Byte) (o : OutcomeCode) (r : ReasonCode) (res0 res1 outLen : Word) :
    (s.finish opc o r res0 res1 outLen).bufDraw = s.bufDraw := rfl
@[simp] theorem State.finish_outDraw (s : State) (opc : Byte) (o : OutcomeCode) (r : ReasonCode) (res0 res1 outLen : Word) :
    (s.finish opc o r res0 res1 outLen).outDraw = s.outDraw := rfl
@[simp] theorem State.finish_host (s : State) (opc : Byte) (o : OutcomeCode) (r : ReasonCode) (res0 res1 outLen : Word) :
    (s.finish opc o r res0 res1 outLen).host = s.host := rfl
@[simp] theorem State.finish_hostData (s : State) (opc : Byte) (o : OutcomeCode) (r : ReasonCode) (res0 res1 outLen : Word) :
    (s.finish opc o r res0 res1 outLen).hostData = s.hostData := rfl

@[simp] theorem State.illegal_params (s : State) (opc : Byte) (r : ReasonCode) :
    (s.illegal opc r).params = s.params := rfl
@[simp] theorem State.illegal_cmd (s : State) (opc : Byte) (r : ReasonCode) :
    (s.illegal opc r).cmd = s.cmd := rfl
@[simp] theorem State.illegal_arg0 (s : State) (opc : Byte) (r : ReasonCode) :
    (s.illegal opc r).arg0 = s.arg0 := rfl
@[simp] theorem State.illegal_status (s : State) (opc : Byte) (r : ReasonCode) :
    (s.illegal opc r).status = statusWord opc .illegalCommand r := rfl
@[simp] theorem State.illegal_res0 (s : State) (opc : Byte) (r : ReasonCode) :
    (s.illegal opc r).res0 = 0 := rfl
@[simp] theorem State.illegal_res1 (s : State) (opc : Byte) (r : ReasonCode) :
    (s.illegal opc r).res1 = 0 := rfl
@[simp] theorem State.illegal_outLen (s : State) (opc : Byte) (r : ReasonCode) :
    (s.illegal opc r).outLen = 0 := rfl
@[simp] theorem State.illegal_ctrl (s : State) (opc : Byte) (r : ReasonCode) :
    (s.illegal opc r).ctrl = s.ctrl := rfl
@[simp] theorem State.illegal_store (s : State) (opc : Byte) (r : ReasonCode) :
    (s.illegal opc r).store = s.store := rfl
@[simp] theorem State.illegal_keys (s : State) (opc : Byte) (r : ReasonCode) :
    (s.illegal opc r).keys = s.keys := rfl
@[simp] theorem State.illegal_mem (s : State) (opc : Byte) (r : ReasonCode) :
    (s.illegal opc r).mem = s.mem := rfl
@[simp] theorem State.illegal_bufDraw (s : State) (opc : Byte) (r : ReasonCode) :
    (s.illegal opc r).bufDraw = s.bufDraw := rfl
@[simp] theorem State.illegal_outDraw (s : State) (opc : Byte) (r : ReasonCode) :
    (s.illegal opc r).outDraw = s.outDraw := rfl
@[simp] theorem State.illegal_host (s : State) (opc : Byte) (r : ReasonCode) :
    (s.illegal opc r).host = s.host := rfl
@[simp] theorem State.illegal_hostData (s : State) (opc : Byte) (r : ReasonCode) :
    (s.illegal opc r).hostData = s.hostData := rfl

@[simp] theorem State.finishFrame_params (s : State) (opc : Byte) (o : OutcomeCode) (r : ReasonCode) (res0 : Word) (res1 : Res1) (out : Bytes) :
    (s.finishFrame opc o r res0 res1 out).params = s.params := rfl
@[simp] theorem State.finishFrame_cmd (s : State) (opc : Byte) (o : OutcomeCode) (r : ReasonCode) (res0 : Word) (res1 : Res1) (out : Bytes) :
    (s.finishFrame opc o r res0 res1 out).cmd = s.cmd := rfl
@[simp] theorem State.finishFrame_arg0 (s : State) (opc : Byte) (o : OutcomeCode) (r : ReasonCode) (res0 : Word) (res1 : Res1) (out : Bytes) :
    (s.finishFrame opc o r res0 res1 out).arg0 = s.arg0 := rfl
@[simp] theorem State.finishFrame_status (s : State) (opc : Byte) (o : OutcomeCode) (r : ReasonCode) (res0 : Word) (res1 : Res1) (out : Bytes) :
    (s.finishFrame opc o r res0 res1 out).status = statusWord opc o r := rfl
@[simp] theorem State.finishFrame_res0 (s : State) (opc : Byte) (o : OutcomeCode) (r : ReasonCode) (res0 : Word) (res1 : Res1) (out : Bytes) :
    (s.finishFrame opc o r res0 res1 out).res0 = res0 := rfl
@[simp] theorem State.finishFrame_res1 (s : State) (opc : Byte) (o : OutcomeCode) (r : ReasonCode) (res0 : Word) (res1 : Res1) (out : Bytes) :
    (s.finishFrame opc o r res0 res1 out).res1 = res1Word res1 := rfl
@[simp] theorem State.finishFrame_outLen (s : State) (opc : Byte) (o : OutcomeCode) (r : ReasonCode) (res0 : Word) (res1 : Res1) (out : Bytes) :
    (s.finishFrame opc o r res0 res1 out).outLen = BitVec.ofNat 32 out.length := rfl
@[simp] theorem State.finishFrame_ctrl (s : State) (opc : Byte) (o : OutcomeCode) (r : ReasonCode) (res0 : Word) (res1 : Res1) (out : Bytes) :
    (s.finishFrame opc o r res0 res1 out).ctrl = s.ctrl := rfl
@[simp] theorem State.finishFrame_store (s : State) (opc : Byte) (o : OutcomeCode) (r : ReasonCode) (res0 : Word) (res1 : Res1) (out : Bytes) :
    (s.finishFrame opc o r res0 res1 out).store = s.store := rfl
@[simp] theorem State.finishFrame_keys (s : State) (opc : Byte) (o : OutcomeCode) (r : ReasonCode) (res0 : Word) (res1 : Res1) (out : Bytes) :
    (s.finishFrame opc o r res0 res1 out).keys = s.keys := rfl
@[simp] theorem State.finishFrame_mem (s : State) (opc : Byte) (o : OutcomeCode) (r : ReasonCode) (res0 : Word) (res1 : Res1) (out : Bytes) :
    (s.finishFrame opc o r res0 res1 out).mem = (s.putFrameOut out).mem := rfl
@[simp] theorem State.finishFrame_bufDraw (s : State) (opc : Byte) (o : OutcomeCode) (r : ReasonCode) (res0 : Word) (res1 : Res1) (out : Bytes) :
    (s.finishFrame opc o r res0 res1 out).bufDraw = s.bufDraw := rfl
@[simp] theorem State.finishFrame_outDraw (s : State) (opc : Byte) (o : OutcomeCode) (r : ReasonCode) (res0 : Word) (res1 : Res1) (out : Bytes) :
    (s.finishFrame opc o r res0 res1 out).outDraw = s.outDraw + 1 := rfl
@[simp] theorem State.finishFrame_host (s : State) (opc : Byte) (o : OutcomeCode) (r : ReasonCode) (res0 : Word) (res1 : Res1) (out : Bytes) :
    (s.finishFrame opc o r res0 res1 out).host = s.host := rfl
@[simp] theorem State.finishFrame_hostData (s : State) (opc : Byte) (o : OutcomeCode) (r : ReasonCode) (res0 : Word) (res1 : Res1) (out : Bytes) :
    (s.finishFrame opc o r res0 res1 out).hostData = s.hostData := rfl

@[simp] theorem State.withStore_params (s : State) (st : SaStore) :
    (s.withStore st).params = s.params := rfl
@[simp] theorem State.withStore_cmd (s : State) (st : SaStore) :
    (s.withStore st).cmd = s.cmd := rfl
@[simp] theorem State.withStore_arg0 (s : State) (st : SaStore) :
    (s.withStore st).arg0 = s.arg0 := rfl
@[simp] theorem State.withStore_status (s : State) (st : SaStore) :
    (s.withStore st).status = s.status := rfl
@[simp] theorem State.withStore_res0 (s : State) (st : SaStore) :
    (s.withStore st).res0 = s.res0 := rfl
@[simp] theorem State.withStore_res1 (s : State) (st : SaStore) :
    (s.withStore st).res1 = s.res1 := rfl
@[simp] theorem State.withStore_outLen (s : State) (st : SaStore) :
    (s.withStore st).outLen = s.outLen := rfl
@[simp] theorem State.withStore_ctrl (s : State) (st : SaStore) :
    (s.withStore st).ctrl = s.ctrl := rfl
@[simp] theorem State.withStore_store (s : State) (st : SaStore) :
    (s.withStore st).store = st := rfl
@[simp] theorem State.withStore_keys (s : State) (st : SaStore) :
    (s.withStore st).keys = s.keys := rfl
@[simp] theorem State.withStore_mem (s : State) (st : SaStore) :
    (s.withStore st).mem = s.mem := rfl
@[simp] theorem State.withStore_bufDraw (s : State) (st : SaStore) :
    (s.withStore st).bufDraw = s.bufDraw := rfl
@[simp] theorem State.withStore_outDraw (s : State) (st : SaStore) :
    (s.withStore st).outDraw = s.outDraw := rfl
@[simp] theorem State.withStore_host (s : State) (st : SaStore) :
    (s.withStore st).host = s.host := rfl
@[simp] theorem State.withStore_hostData (s : State) (st : SaStore) :
    (s.withStore st).hostData = s.hostData := rfl

@[simp] theorem State.storeReset_params (s : State) :
    (s.storeReset).params = s.params := rfl
@[simp] theorem State.storeReset_cmd (s : State) :
    (s.storeReset).cmd = s.cmd := rfl
@[simp] theorem State.storeReset_arg0 (s : State) :
    (s.storeReset).arg0 = s.arg0 := rfl
@[simp] theorem State.storeReset_status (s : State) :
    (s.storeReset).status = s.status := rfl
@[simp] theorem State.storeReset_res0 (s : State) :
    (s.storeReset).res0 = s.res0 := rfl
@[simp] theorem State.storeReset_res1 (s : State) :
    (s.storeReset).res1 = s.res1 := rfl
@[simp] theorem State.storeReset_outLen (s : State) :
    (s.storeReset).outLen = s.outLen := rfl
@[simp] theorem State.storeReset_ctrl (s : State) :
    (s.storeReset).ctrl = s.ctrl := rfl
@[simp] theorem State.storeReset_store (s : State) :
    (s.storeReset).store = SaStore.empty s.params.saCap := rfl
@[simp] theorem State.storeReset_keys (s : State) :
    (s.storeReset).keys = s.keys := rfl
@[simp] theorem State.storeReset_mem (s : State) :
    (s.storeReset).mem = s.mem := rfl
@[simp] theorem State.storeReset_bufDraw (s : State) :
    (s.storeReset).bufDraw = s.bufDraw := rfl
@[simp] theorem State.storeReset_outDraw (s : State) :
    (s.storeReset).outDraw = s.outDraw := rfl
@[simp] theorem State.storeReset_host (s : State) :
    (s.storeReset).host = s.host := rfl
@[simp] theorem State.storeReset_hostData (s : State) :
    (s.storeReset).hostData = s.hostData := rfl

@[simp] theorem State.withKeys_params (s : State) (ks : List KeyEntry) :
    (s.withKeys ks).params = s.params := rfl
@[simp] theorem State.withKeys_cmd (s : State) (ks : List KeyEntry) :
    (s.withKeys ks).cmd = s.cmd := rfl
@[simp] theorem State.withKeys_arg0 (s : State) (ks : List KeyEntry) :
    (s.withKeys ks).arg0 = s.arg0 := rfl
@[simp] theorem State.withKeys_status (s : State) (ks : List KeyEntry) :
    (s.withKeys ks).status = s.status := rfl
@[simp] theorem State.withKeys_res0 (s : State) (ks : List KeyEntry) :
    (s.withKeys ks).res0 = s.res0 := rfl
@[simp] theorem State.withKeys_res1 (s : State) (ks : List KeyEntry) :
    (s.withKeys ks).res1 = s.res1 := rfl
@[simp] theorem State.withKeys_outLen (s : State) (ks : List KeyEntry) :
    (s.withKeys ks).outLen = s.outLen := rfl
@[simp] theorem State.withKeys_ctrl (s : State) (ks : List KeyEntry) :
    (s.withKeys ks).ctrl = s.ctrl := rfl
@[simp] theorem State.withKeys_store (s : State) (ks : List KeyEntry) :
    (s.withKeys ks).store = s.store := rfl
@[simp] theorem State.withKeys_keys (s : State) (ks : List KeyEntry) :
    (s.withKeys ks).keys = ks := rfl
@[simp] theorem State.withKeys_mem (s : State) (ks : List KeyEntry) :
    (s.withKeys ks).mem = s.mem := rfl
@[simp] theorem State.withKeys_bufDraw (s : State) (ks : List KeyEntry) :
    (s.withKeys ks).bufDraw = s.bufDraw := rfl
@[simp] theorem State.withKeys_outDraw (s : State) (ks : List KeyEntry) :
    (s.withKeys ks).outDraw = s.outDraw := rfl
@[simp] theorem State.withKeys_host (s : State) (ks : List KeyEntry) :
    (s.withKeys ks).host = s.host := rfl
@[simp] theorem State.withKeys_hostData (s : State) (ks : List KeyEntry) :
    (s.withKeys ks).hostData = s.hostData := rfl

@[simp] theorem State.memWrite_params (s : State) (b : Buffer) (off : Nat) (v : Bytes) :
    (s.memWrite b off v).params = s.params := rfl
@[simp] theorem State.memWrite_cmd (s : State) (b : Buffer) (off : Nat) (v : Bytes) :
    (s.memWrite b off v).cmd = s.cmd := rfl
@[simp] theorem State.memWrite_arg0 (s : State) (b : Buffer) (off : Nat) (v : Bytes) :
    (s.memWrite b off v).arg0 = s.arg0 := rfl
@[simp] theorem State.memWrite_status (s : State) (b : Buffer) (off : Nat) (v : Bytes) :
    (s.memWrite b off v).status = s.status := rfl
@[simp] theorem State.memWrite_res0 (s : State) (b : Buffer) (off : Nat) (v : Bytes) :
    (s.memWrite b off v).res0 = s.res0 := rfl
@[simp] theorem State.memWrite_res1 (s : State) (b : Buffer) (off : Nat) (v : Bytes) :
    (s.memWrite b off v).res1 = s.res1 := rfl
@[simp] theorem State.memWrite_outLen (s : State) (b : Buffer) (off : Nat) (v : Bytes) :
    (s.memWrite b off v).outLen = s.outLen := rfl
@[simp] theorem State.memWrite_ctrl (s : State) (b : Buffer) (off : Nat) (v : Bytes) :
    (s.memWrite b off v).ctrl = s.ctrl := rfl
@[simp] theorem State.memWrite_store (s : State) (b : Buffer) (off : Nat) (v : Bytes) :
    (s.memWrite b off v).store = s.store := rfl
@[simp] theorem State.memWrite_keys (s : State) (b : Buffer) (off : Nat) (v : Bytes) :
    (s.memWrite b off v).keys = s.keys := rfl
@[simp] theorem State.memWrite_mem (s : State) (b : Buffer) (off : Nat) (v : Bytes) :
    (s.memWrite b off v).mem = Memory.splice s.mem (b.base + off) (b.base + off) v := rfl
@[simp] theorem State.memWrite_bufDraw (s : State) (b : Buffer) (off : Nat) (v : Bytes) :
    (s.memWrite b off v).bufDraw = s.bufDraw := rfl
@[simp] theorem State.memWrite_outDraw (s : State) (b : Buffer) (off : Nat) (v : Bytes) :
    (s.memWrite b off v).outDraw = s.outDraw := rfl
@[simp] theorem State.memWrite_host (s : State) (b : Buffer) (off : Nat) (v : Bytes) :
    (s.memWrite b off v).host = s.host := rfl
@[simp] theorem State.memWrite_hostData (s : State) (b : Buffer) (off : Nat) (v : Bytes) :
    (s.memWrite b off v).hostData = s.hostData := rfl

@[simp] theorem State.putFrameOut_params (s : State) (out : Bytes) :
    (s.putFrameOut out).params = s.params := rfl
@[simp] theorem State.putFrameOut_cmd (s : State) (out : Bytes) :
    (s.putFrameOut out).cmd = s.cmd := rfl
@[simp] theorem State.putFrameOut_arg0 (s : State) (out : Bytes) :
    (s.putFrameOut out).arg0 = s.arg0 := rfl
@[simp] theorem State.putFrameOut_status (s : State) (out : Bytes) :
    (s.putFrameOut out).status = s.status := rfl
@[simp] theorem State.putFrameOut_res0 (s : State) (out : Bytes) :
    (s.putFrameOut out).res0 = s.res0 := rfl
@[simp] theorem State.putFrameOut_res1 (s : State) (out : Bytes) :
    (s.putFrameOut out).res1 = s.res1 := rfl
@[simp] theorem State.putFrameOut_outLen (s : State) (out : Bytes) :
    (s.putFrameOut out).outLen = s.outLen := rfl
@[simp] theorem State.putFrameOut_ctrl (s : State) (out : Bytes) :
    (s.putFrameOut out).ctrl = s.ctrl := rfl
@[simp] theorem State.putFrameOut_store (s : State) (out : Bytes) :
    (s.putFrameOut out).store = s.store := rfl
@[simp] theorem State.putFrameOut_keys (s : State) (out : Bytes) :
    (s.putFrameOut out).keys = s.keys := rfl
@[simp] theorem State.putFrameOut_mem (s : State) (out : Bytes) :
    (s.putFrameOut out).mem = Memory.splice s.mem (Buffer.base .frameOut) (Buffer.base .keyStage) (out.take Config.frameBufLen) := rfl
@[simp] theorem State.putFrameOut_bufDraw (s : State) (out : Bytes) :
    (s.putFrameOut out).bufDraw = s.bufDraw := rfl
@[simp] theorem State.putFrameOut_outDraw (s : State) (out : Bytes) :
    (s.putFrameOut out).outDraw = s.outDraw + 1 := rfl
@[simp] theorem State.putFrameOut_host (s : State) (out : Bytes) :
    (s.putFrameOut out).host = s.host := rfl
@[simp] theorem State.putFrameOut_hostData (s : State) (out : Bytes) :
    (s.putFrameOut out).hostData = s.hostData := rfl

@[simp] theorem State.platformReset_params (s : State) :
    (s.platformReset).params = s.params := rfl
@[simp] theorem State.platformReset_cmd (s : State) :
    (s.platformReset).cmd = 0 := rfl
@[simp] theorem State.platformReset_arg0 (s : State) :
    (s.platformReset).arg0 = 0 := rfl
@[simp] theorem State.platformReset_status (s : State) :
    (s.platformReset).status = 0 := rfl
@[simp] theorem State.platformReset_res0 (s : State) :
    (s.platformReset).res0 = 0 := rfl
@[simp] theorem State.platformReset_res1 (s : State) :
    (s.platformReset).res1 = 0 := rfl
@[simp] theorem State.platformReset_outLen (s : State) :
    (s.platformReset).outLen = 0 := rfl
@[simp] theorem State.platformReset_ctrl (s : State) :
    (s.platformReset).ctrl = 0 := rfl
@[simp] theorem State.platformReset_store (s : State) :
    (s.platformReset).store = SaStore.empty s.params.saCap := rfl
@[simp] theorem State.platformReset_keys (s : State) :
    (s.platformReset).keys = [] := rfl
@[simp] theorem State.platformReset_mem (s : State) :
    (s.platformReset).mem = [] := rfl
@[simp] theorem State.platformReset_bufDraw (s : State) :
    (s.platformReset).bufDraw = s.bufDraw + 1 := rfl
@[simp] theorem State.platformReset_outDraw (s : State) :
    (s.platformReset).outDraw = s.outDraw + 1 := rfl
@[simp] theorem State.platformReset_host (s : State) :
    (s.platformReset).host = s.host := rfl
@[simp] theorem State.platformReset_hostData (s : State) :
    (s.platformReset).hostData = s.hostData := rfl

end Sys2Proof.Machine
end

