-- ==== Sys2Proof/Laws/Memory.lean ====
section
/-! SUPPORT. What the memory operations do: the byte each offset reads after a write, and that the canonical form is kept
(spec/20_memory.md R47 to R64). -/

namespace Sys2Proof.Machine

/-! ### Cells -/

@[simp] theorem Memory.get?_nil (x : Nat) : Memory.get? [] x = none := rfl

theorem Memory.get?_append (m n : Memory) (x : Nat) :
    Memory.get? (m ++ n) x = (Memory.get? m x).or (Memory.get? n x) := by
  induction m with
  | nil => simp
  | cons c m ih =>
    obtain ⟨a, b⟩ := c
    simp only [List.cons_append, Memory.get?]
    split <;> simp [ih]

/-- Filtering by offset keeps what the filter admits. -/
theorem Memory.get?_filter (m : Memory) (p : Nat → Bool) (x : Nat) :
    Memory.get? (m.filter fun c => p c.1) x = if p x then Memory.get? m x else none := by
  induction m with
  | nil => simp
  | cons c m ih =>
    obtain ⟨a, b⟩ := c
    by_cases hp : p a <;> by_cases hx : a = x <;> simp_all [Memory.get?]

theorem get?_cellsFrom (a : Nat) (bs : Bytes) (x : Nat) :
    Memory.get? (cellsFrom a bs) x = if a ≤ x then bs[x - a]? else none := by
  induction bs generalizing a with
  | nil => simp [cellsFrom]
  | cons b bs ih =>
    simp only [cellsFrom, Memory.get?, ih]
    by_cases h : a = x
    · subst h
      simp
    · by_cases h' : a + 1 ≤ x
      · obtain ⟨d, rfl⟩ := Nat.exists_eq_add_of_le h'
        simp [h, show a ≤ a + 1 + d by omega, show a + 1 + d - a = d + 1 by omega]
      · simp [h, show ¬ a ≤ x by omega, h']

/-- What a splice does, once: below it and above it nothing, its bytes where they were put, nothing written between. -/
theorem Memory.get?_splice (m : Memory) (lo hi : Nat) (bs : Bytes) (x : Nat) :
    Memory.get? (Memory.splice m lo hi bs) x =
      if x < lo then Memory.get? m x
      else if x < lo + bs.length then bs[x - lo]?
      else if x < hi then none
      else Memory.get? m x := by
  have h1 := Memory.get?_filter m (fun a => decide (a < lo)) x
  have h2 := Memory.get?_filter m (fun a => decide (max hi (lo + bs.length) ≤ a)) x
  simp only [Memory.splice, Memory.get?_append, get?_cellsFrom, h1, h2]
  by_cases c1 : x < lo
  · have : ¬ lo ≤ x := by omega
    have : ¬ max hi (lo + bs.length) ≤ x := by omega
    simp [*]
  · have c1' : lo ≤ x := by omega
    simp only [c1, c1', decide_false, Bool.false_eq_true, if_false, if_true, Option.none_or, decide_eq_true_eq]
    by_cases c2 : x < lo + bs.length
    · rw [if_pos c2, if_neg (by omega), Option.or_none]
    · rw [if_neg c2, List.getElem?_eq_none (by omega), Option.none_or]
      by_cases c3 : x < hi
      · rw [if_pos c3, if_neg (by omega)]
      · rw [if_neg c3, if_pos (by omega)]

theorem mem_cellsFrom {a : Nat} {bs : Bytes} {c : Host.Cell} (h : c ∈ cellsFrom a bs) :
    a ≤ c.1 ∧ c.1 < a + bs.length := by
  induction bs generalizing a with
  | nil => simp [cellsFrom] at h
  | cons b bs ih =>
    rcases List.mem_cons.1 h with rfl | h
    · simp
    · have := ih h
      simp only [List.length_cons]
      omega

theorem cellsFrom_wf (a : Nat) (bs : Bytes) : Memory.wf (cellsFrom a bs) := by
  induction bs generalizing a with
  | nil => exact List.Pairwise.nil
  | cons b bs ih =>
    refine List.Pairwise.cons (fun c hc => ?_) (ih _)
    have := mem_cellsFrom hc
    simp only
    omega

/-- Every cell of a splice is a cell from outside the replaced range, or one of the bytes put there. -/
theorem mem_splice {m : Memory} {lo hi : Nat} {bs : Bytes} {c : Host.Cell} (h : c ∈ Memory.splice m lo hi bs) :
    (c ∈ m ∧ (c.1 < lo ∨ max hi (lo + bs.length) ≤ c.1)) ∨ (lo ≤ c.1 ∧ c.1 < lo + bs.length) := by
  simp only [Memory.splice, List.mem_append, List.mem_filter, decide_eq_true_eq] at h
  rcases h with (⟨h, h'⟩ | h) | ⟨h, h'⟩
  · exact .inl ⟨h, .inl h'⟩
  · exact .inr (mem_cellsFrom h)
  · exact .inl ⟨h, .inr h'⟩

/-- Every memory operation is a splice, so this says once that each keeps the canonical form. -/
theorem splice_wf {m : Memory} (h : Memory.wf m) (lo hi : Nat) (bs : Bytes) : Memory.wf (Memory.splice m lo hi bs) := by
  refine List.pairwise_append.2 ⟨List.pairwise_append.2 ⟨h.filter _, cellsFrom_wf lo bs, ?_⟩, h.filter _, ?_⟩
  · intro c hc d hd
    have := mem_cellsFrom hd
    simp only [List.mem_filter, decide_eq_true_eq] at hc
    omega
  · intro c hc d hd
    simp only [List.mem_append, List.mem_filter, decide_eq_true_eq] at hc hd
    rcases hc with hc | hc
    · omega
    · have := mem_cellsFrom hc
      omega

theorem nil_wf : Memory.wf [] := List.Pairwise.nil

theorem reset_mem_wf : State.reset.mem.wf := nil_wf

theorem memWrite_wf {s : State} (h : s.mem.wf) (b : Buffer) (o : Nat) (v : Bytes) : (s.memWrite b o v).mem.wf :=
  splice_wf h _ _ _

theorem putFrameOut_wf {s : State} (h : s.mem.wf) (out : Bytes) : (s.putFrameOut out).mem.wf := splice_wf h _ _ _

/-! ### Bytes as they are read -/

/-- A read depends on the memory and the draws alone. -/
theorem readByte_congr {s t : State} (hm : t.mem = s.mem) (hb : t.bufDraw = s.bufDraw) (ho : t.outDraw = s.outDraw)
    (a : Nat) : t.readByte a = s.readByte a := by
  simp [State.readByte, State.unlisted, hm, hb, ho]

@[simp] theorem readByte_finish (s : State) (opc : Byte) (o : OutcomeCode) (r : ReasonCode) (x y z : Word) (a : Nat) :
    (s.finish opc o r x y z).readByte a = s.readByte a := rfl

@[simp] theorem readByte_illegal (s : State) (opc : Byte) (r : ReasonCode) (a : Nat) :
    (s.illegal opc r).readByte a = s.readByte a := rfl

@[simp] theorem readByte_withStore (s : State) (st : SaStore) (a : Nat) :
    (s.withStore st).readByte a = s.readByte a := rfl

@[simp] theorem readByte_storeReset (s : State) (a : Nat) : s.storeReset.readByte a = s.readByte a := rfl

@[simp] theorem readByte_withKeys (s : State) (ks : List KeyEntry) (a : Nat) :
    (s.withKeys ks).readByte a = s.readByte a := rfl

/-- A read after a write to the same byte gives the value written. -/
theorem readByte_memWrite_same (s : State) (b : Buffer) (o : Nat) (v : Bytes) (i : Nat) (h : i < v.length) :
    (s.memWrite b o v).readByte (b.base + o + i) = v[i] := by
  simp [State.readByte, Memory.get?_splice, show ¬ b.base + o + i < b.base + o by omega, h]

/-- A write leaves every other byte alone. -/
theorem readByte_memWrite_other (s : State) (b : Buffer) (o : Nat) (v : Bytes) (a : Nat)
    (h : a < b.base + o ∨ b.base + o + v.length ≤ a) : (s.memWrite b o v).readByte a = s.readByte a := by
  have hu : (s.memWrite b o v).unlisted a = s.unlisted a := rfl
  simp only [State.readByte, hu, State.memWrite_mem, Memory.get?_splice]
  rcases h with h | h
  · simp [h]
  · simp [show ¬ a < b.base + o by omega, show ¬ a < b.base + o + v.length by omega]

/-- A frame command's output, byte by byte. -/
theorem readByte_putFrameOut_same (s : State) (out : Bytes) (i : Nat) (h : i < out.length)
    (hl : out.length ≤ Config.frameBufLen) : (s.putFrameOut out).readByte (Buffer.base .frameOut + i) = out[i] := by
  have hm : min Config.frameBufLen out.length = out.length := by omega
  simp [State.readByte, Memory.get?_splice, List.take_of_length_le hl, h]

/-- A frame command writes FRAME_OUT only (R64). -/
theorem readByte_putFrameOut_other (s : State) (out : Bytes) (a : Nat)
    (h : a < Buffer.base .frameOut ∨ Buffer.base .frameOut + Config.frameBufLen ≤ a) :
    (s.putFrameOut out).readByte a = s.readByte a := by
  have hl : (out.take Config.frameBufLen).length ≤ Config.frameBufLen := by simp
  have hu : (s.putFrameOut out).unlisted a = s.unlisted a := by
    simp only [Buffer.base, Config.frameBufLen] at h
    have : inFrameOut a = false := by
      simp only [inFrameOut, decide_eq_false_iff_not]
      omega
    simp [State.unlisted, this]
  have hk : Buffer.base .keyStage = Buffer.base .frameOut + Config.frameBufLen := rfl
  rw [State.readByte, State.readByte, hu, State.putFrameOut_mem, Memory.get?_splice]
  rcases h with h | h
  · rw [if_pos h]
  · rw [if_neg (by omega), if_neg (by omega), if_neg (by omega)]

theorem readByte_finishFrame_other (s : State) (opc : Byte) (o : OutcomeCode) (r : ReasonCode) (x : Word) (y : Res1)
    (out : Bytes) (a : Nat) (h : a < Buffer.base .frameOut ∨ Buffer.base .frameOut + Config.frameBufLen ≤ a) :
    (s.finishFrame opc o r x y out).readByte a = s.readByte a :=
  readByte_putFrameOut_other s out a h

@[simp] theorem length_readBytes (s : State) (a n : Nat) : (s.readBytes a n).length = n := by simp [State.readBytes]

@[simp] theorem length_memRead (s : State) (b : Buffer) (o n : Nat) : (s.memRead b o n).length = n := by
  simp [State.memRead]

@[simp] theorem length_param (s : State) (o n : Nat) : (s.param o n).length = n := by simp [State.param]

@[simp] theorem length_frameIn (s : State) (o n : Nat) : (s.frameIn o n).length = n := by simp [State.frameIn]

@[simp] theorem length_stageRec (s : State) (k : Nat) : (s.stageRec k).length = Config.keyRecLen := by
  simp [State.stageRec]

@[simp] theorem getElem_readBytes (s : State) (a n i : Nat) (h : i < (s.readBytes a n).length) :
    (s.readBytes a n)[i] = s.readByte (a + i) := by simp [State.readBytes]

/-- Two states whose bytes agree on a range read the same string from it. -/
theorem readBytes_congr {s t : State} {a n : Nat} (h : ∀ i, i < n → t.readByte (a + i) = s.readByte (a + i)) :
    t.readBytes a n = s.readBytes a n := by
  apply List.ext_getElem <;> simp_all

/-- What was written is read back. -/
theorem memRead_memWrite (s : State) (b : Buffer) (o : Nat) (v : Bytes) :
    (s.memWrite b o v).memRead b o v.length = v := by
  apply List.ext_getElem
  · simp
  · intro i h1 h2
    simp only [State.memRead, getElem_readBytes]
    exact readByte_memWrite_same s b o v i h2

/-- The output of a frame command is read back from FRAME_OUT. -/
theorem memRead_putFrameOut (s : State) (out : Bytes) (hl : out.length ≤ Config.frameBufLen) :
    (s.putFrameOut out).memRead .frameOut 0 out.length = out := by
  apply List.ext_getElem
  · simp
  · intro i h1 h2
    simp only [State.memRead, getElem_readBytes, Nat.add_zero]
    exact readByte_putFrameOut_same s out i h2 hl

end Sys2Proof.Machine
end

