-- ==== Sys2Proof/Laws/Commands.lean ====
section
/-! SUPPORT. What the commands that branch, a host access and a step can do, each said once. -/

namespace Sys2Proof.Machine

/-! ### Frame commands -/

/-- What a standalone pipeline command can do (R168). -/
theorem pipelineCommand_cases (s : State) (opc : Byte) (cipher : Cipher) (fcs : Bool) (len : Nat) (operandOk : Bool)
    (frameOk : Bytes → Nat → Bool) (run : Bytes → Nat → Except PipeFail Bytes) :
    s.pipelineCommand opc cipher fcs len operandOk frameOk run = s.illegal opc .badField ∨
      (len ≤ Config.frameBufLen ∧
        (s.pipelineCommand opc cipher fcs len operandOk frameOk run =
            s.finishFrame opc .tooShort .wrongDataSize 0 Res1.zero [] ∨
          (24 ≤ s.hdrLenOperand ∧ fcsLen fcs + s.hdrLenOperand ≤ len ∧
            s.pipelineCommand opc cipher fcs len operandOk frameOk run =
              s.finishPipeline opc cipher fcs (s.frameIn 0 (len - fcsLen fcs)) s.hdrLenOperand
                (run (s.frameIn 0 (len - fcsLen fcs)) s.hdrLenOperand)))) := by
  simp only [State.pipelineCommand]
  split
  · exact .inl rfl
  · rename_i h
    simp only [Bool.or_eq_true, decide_eq_true_eq, not_or, not_lt] at h
    obtain ⟨⟨⟨-, h2⟩, h3⟩, -⟩ := h
    split
    · exact .inr ⟨h2, .inl rfl⟩
    split
    · exact .inl rfl
    · exact .inr ⟨h2, .inr ⟨h3, by omega, rfl⟩⟩

/-- The answers of PROCESS_PACKET before it reaches an SA (R175 to R179). -/
def earlyPairs : List (OutcomeCode × ReasonCode) :=
  [(.unsuccessful, .wrongDataSize), (.notData, .none), (.tooShort, .wrongDataSize), (.requiredDataMissing, .none),
    (.unsuccessful, .storeFull)]

theorem frameView_spec {s : State} {fcs rt : Bool} {len : Nat} {F : Bytes} (h : s.frameView fcs rt len = some F) :
    F.length ≤ len ∧ F.length = len - fcsLen fcs - (if rt then Config.preambleLen else 0) := by
  have e : s.frameView fcs rt len =
      if len - fcsLen fcs ≤ (if rt then Config.preambleLen else 0) then none
      else some (s.frameIn (if rt then Config.preambleLen else 0)
        (len - fcsLen fcs - (if rt then Config.preambleLen else 0))) := rfl
  rw [e] at h
  by_cases c : len - fcsLen fcs ≤ (if rt then Config.preambleLen else 0)
  · rw [if_pos c] at h
    cases h
  · rw [if_neg c] at h
    cases h
    rw [length_frameIn]
    exact ⟨by omega, rfl⟩

/-- What classification lets through: a data frame whose header is there, with the addresses of its SA. -/
theorem classifyFrame_spec {m : Nat} {F : Bytes} {id : SaId} (h : classifyFrame m F = .ok id) :
    frameType F = 2 ∧ hdrLen F + m ≤ F.length ∧ frameId F = some id := by
  simp only [classifyFrame] at h
  split at h
  · cases h
  split at h
  · cases h
  split at h
  · cases h
  split at h
  · cases h
  · cases h
    simp_all

theorem classifyFrame_error {m : Nat} {F : Bytes} {e : OutcomeCode × ReasonCode} (h : classifyFrame m F = .error e) :
    e ∈ earlyPairs := by
  simp only [classifyFrame] at h
  split at h
  · cases h
    decide
  split at h
  · cases h
    decide
  split at h
  · cases h
    decide
  split at h
  · cases h
    decide
  · cases h

/-- The addresses of a frame as long as its header have 6 bytes each. -/
theorem frameId_lengths {F : Bytes} {id : SaId} (h : frameId F = some id) (hl : 24 ≤ F.length) :
    id.bssid.length = 6 ∧ id.sta.length = 6 := by
  have l1 : (addr1 F).length = 6 := length_slice_of_le (by omega)
  have l2 : (addr2 F).length = 6 := length_slice_of_le (by omega)
  have l3 : (addr3 F).length = 6 := length_slice_of_le (by omega)
  simp only [frameId] at h
  split at h
  · cases h
    exact ⟨l3, l2⟩
  split at h
  · cases h
    exact ⟨l1, l2⟩
  split at h
  · cases h
    exact ⟨l2, l1⟩
  · cases h

theorem hdrLen_ge (F : Bytes) : 24 ≤ hdrLen F := by
  simp only [hdrLen]
  omega

/-- What PROCESS_PACKET can do, once. -/
theorem processPacket_cases (fcs rt hs dec : Bool) (len : Nat) (s : State) :
    execProcessPacket fcs rt hs dec len s = .next (s.illegal 0x40 .badField) ∨
      (len ≤ Config.frameBufLen ∧
        ((∃ e ∈ earlyPairs,
            execProcessPacket fcs rt hs dec len s = .next (s.finishFrame 0x40 e.1 e.2 noSlot Res1.zero [])) ∨
          ∃ F id k st r, F.length ≤ len ∧ frameType F = 2 ∧ hdrLen F + s.params.minCtLen ≤ F.length ∧
            frameId F = some id ∧ s.store.lookupOrAllocate s.params.saCap id = some (k, st) ∧
            FrameCase s.keys s.replayEn fcs hs dec F (st.slot k) r ∧
            execProcessPacket fcs rt hs dec len s =
              .next ((s.withStore (st.setSlot k r.slot)).finishFrame 0x40 r.outcome r.reason (slotWord k) r.res1 r.out))) := by
  by_cases hl : Config.frameBufLen < len
  · exact .inl (by simp only [execProcessPacket, Instr.opcode, if_pos hl])
  refine .inr ⟨by omega, ?_⟩
  cases hF : s.frameView fcs rt len with
  | none =>
    exact .inl ⟨(.unsuccessful, .wrongDataSize), by decide,
      by simp only [execProcessPacket, Instr.opcode, if_neg hl, hF]⟩
  | some F =>
    cases hc : classifyFrame s.params.minCtLen F with
    | error e =>
      exact .inl ⟨e, classifyFrame_error hc, by simp only [execProcessPacket, Instr.opcode, if_neg hl, hF, hc]⟩
    | ok id =>
      obtain ⟨h1, h2, h3⟩ := classifyFrame_spec hc
      cases ha : s.store.lookupOrAllocate s.params.saCap id with
      | none =>
        exact .inl ⟨(.unsuccessful, .storeFull), by decide,
          by simp only [execProcessPacket, Instr.opcode, if_neg hl, hF, hc, State.processData, ha]⟩
      | some p =>
        obtain ⟨k, st⟩ := p
        exact .inr ⟨F, id, k, st, _, (frameView_spec hF).1, h1, h2, h3, ha,
          dispatchFrame_cases s.keys s.replayEn fcs hs dec F (st.slot k),
          by simp only [execProcessPacket, Instr.opcode, if_neg hl, hF, hc, State.processData, ha]⟩

/-! ### Host accesses -/

/-- What a host write outside the registers can do: nothing, or a write to a buffer the host may write. -/
theorem hostStore_cases (s : State) (a : Nat) (v : Bytes) :
    s.hostStore a v = s ∨
      ∃ b : Buffer, b.hostWritable = true ∧ b.contains s.params a = true ∧ s.hostStore a v = s.memWrite b (a - b.base) v := by
  simp only [State.hostStore]
  split
  · rename_i b hb
    split
    · rename_i hw
      refine .inr ⟨b, hw, ?_, rfl⟩
      simp only [regionOf] at hb
      split at hb
      · cases hb
      split at hb
      · cases hb
      split at hb
      · rename_i c hc
        cases hb
        exact List.find?_some (p := fun c : Buffer => c.contains s.params a) hc
      · cases hb
    · exact .inl rfl
  all_goals exact .inl rfl

/-- What a register write can do: ARG0, CTRL, or nothing. -/
theorem writeRegister_cases (s : State) (off : Nat) (v : Word) :
    s.writeRegister off v = { s with arg0 := v } ∨ s.writeRegister off v = { s with ctrl := v &&& 1 } ∨
      s.writeRegister off v = s := by
  simp only [State.writeRegister]
  split
  · exact .inl rfl
  split
  · exact .inr (.inl rfl)
  · exact .inr (.inr rfl)

/-- What one step can do, once: wait; be refused before anything is performed; run a command; or perform another access. -/
theorem step_cases (s : State) :
    (s.host = [] ∧ step s = .next s) ∨
      ∃ a rest, s.host = a :: rest ∧
        ((∃ r, accessRefusal s.params a = some r ∧ step s = .refused r) ∨
          (accessRefusal s.params a = none ∧
            ((∃ w, a = .wr32 0x000 w ∧ step s = runCommand w { s with host := rest, cmd := w }) ∨
              ((∀ w, a ≠ .wr32 0x000 w) ∧ ∃ t, legalAccess { s with host := rest } a = .done t ∧ step s = .next t)))) := by
  cases hh : s.host with
  | nil => exact .inl ⟨rfl, by simp [step, nextAccess, hh]⟩
  | cons a rest =>
    refine .inr ⟨a, rest, rfl, ?_⟩
    cases hr : accessRefusal s.params a with
    | some r => exact .inl ⟨r, rfl, by simp [step, nextAccess, hh, hostAccess, hr]⟩
    | none =>
      refine .inr ⟨rfl, ?_⟩
      cases a with
      | rd8 off => exact .inr ⟨by simp, _, rfl, by simp [step, nextAccess, hh, hostAccess, hr, legalAccess, State.returned]⟩
      | rd32 off => exact .inr ⟨by simp, _, rfl, by simp [step, nextAccess, hh, hostAccess, hr, legalAccess, State.returned]⟩
      | wr8 off v => exact .inr ⟨by simp, _, rfl, by simp [step, nextAccess, hh, hostAccess, hr, legalAccess]⟩
      | wr32 off v =>
        by_cases h0 : off = 0x000
        · subst h0
          exact .inl ⟨v, rfl, by simp [step, nextAccess, hh, hostAccess, hr, legalAccess]⟩
        · by_cases h1 : off < 0x1000
          · exact .inr ⟨by simp [h0], State.writeRegister { s with host := rest } off v,
              by simp only [legalAccess, h0, h1, if_true, if_false],
              by simp [step, nextAccess, hh, hostAccess, hr, legalAccess, h0, h1]⟩
          · exact .inr ⟨by simp [h0], State.hostStore { s with host := rest } off (le32Bytes v),
              by simp only [legalAccess, h0, h1, if_false],
              by simp [step, nextAccess, hh, hostAccess, hr, legalAccess, h0, h1]⟩
      | otherWidth bits off => simp [accessRefusal] at hr
      | reset => exact .inr ⟨by simp, _, rfl, by simp [step, nextAccess, hh, hostAccess, hr, legalAccess]⟩

end Sys2Proof.Machine
end

