-- ==== Sys2Proof/Laws/Exec.lean ====
section
/-! SUPPORT. What every command can do, said once for all of them: `exec_cases`. -/

namespace Sys2Proof.Machine

/-- What a command can do, once: the state it leaves, by the shape of its effect. -/
inductive ExecCase (i : Instr) (s : State) : State → Prop where
  /-- An illegal command. -/
  | illegal (r : ReasonCode) (hp : (OutcomeCode.illegalCommand, r) ∈ outcomePairs i)
      (hi : i ∉ [Instr.initStore, .destroyStore, .cleanKeys]) (hn : ∀ n, i ≠ .setKeys n) :
      ExecCase i s (s.illegal i.opcode r)
  /-- A report, and nothing else. -/
  | report (o : OutcomeCode) (r : ReasonCode) (x : Word) (hp : (o, r) ∈ outcomePairs i) (ho : o ≠ .illegalCommand)
      (hi : i ∉ [Instr.initStore, .destroyStore, .cleanKeys]) (hn : ∀ n, i = .setKeys n → s.params.keysMax < n) :
      ExecCase i s (s.finish i.opcode o r x 0 0)
  /-- Bytes written from the start of a buffer. -/
  | result (b : Buffer) (v : Bytes) (x : Word) (hp : (OutcomeCode.ok, ReasonCode.none) ∈ outcomePairs i)
      (hi : i ∉ [Instr.initStore, .destroyStore, .cleanKeys]) (hn : ∀ n, i ≠ .setKeys n)
      (hv : s.Inv → bufferRow i s = (b.base, v.length) ∧ v.length ≤ b.size s.params) :
      ExecCase i s ((s.memWrite b 0 v).finish i.opcode .ok .none x 0 0)
  /-- The store reset, with a key collection. -/
  | resets (ks : List KeyEntry) (x : Word)
      (h : (i = .initStore ∧ ks = s.keys) ∨ (i = .destroyStore ∧ ks = []) ∨ (i = .cleanKeys ∧ ks = []) ∨
        ∃ n, i = .setKeys n ∧ n ≤ s.params.keysMax ∧ ks = s.admittedKeys n) :
      ExecCase i s ((s.withKeys ks).storeReset.finish i.opcode .ok .none x 0 0)
  /-- An allocation. -/
  | allocates (k : Nat) (st : SaStore) (hi : i = .saAllocate) (hl : s.store.lookup s.paramId = none)
      (ha : s.store.allocate s.params.saCap s.paramId = some (k, st)) :
      ExecCase i s ((s.withStore st).finish i.opcode .ok .none (slotWord k) 0 0)
  /-- A release. -/
  | releases (k : Nat) (hi : i = .saRelease k) (hk : k < s.params.saCap) :
      ExecCase i s ((s.withStore (s.store.release k)).finish i.opcode .ok .none 0 0 0)
  /-- A standalone pipeline that fails. -/
  | pipeFails (o : OutcomeCode) (r : ReasonCode) (hp : (o, r) ∈ outcomePairs i) (ho : o ≠ .illegalCommand)
      (hi : ∃ fcs len, i = .wepDecrypt fcs len ∨ i = .tkipDecrypt fcs len ∨ i = .ccmpDecrypt fcs len) :
      ExecCase i s (s.finishFrame i.opcode o r 0 Res1.zero [])
  /-- A standalone pipeline that succeeds. -/
  | pipeRuns (x : Word) (c : Cipher) (out : Bytes) (hl : out.length < 4096)
      (hi : ∃ fcs len, i = .wepDecrypt fcs len ∨ i = .tkipDecrypt fcs len ∨ i = .ccmpDecrypt fcs len) :
      ExecCase i s (s.finishFrame i.opcode .ok .none x { Res1.zero with cipher := c } out)
  /-- A packet that reaches no SA. -/
  | packetStops (e : OutcomeCode × ReasonCode) (he : e ∈ earlyPairs)
      (hi : ∃ fcs rt hs dec len, i = .processPacket fcs rt hs dec len) :
      ExecCase i s (s.finishFrame i.opcode e.1 e.2 noSlot Res1.zero [])
  /-- A packet that reaches slot `k`. -/
  | packet (fcs rt hs dec : Bool) (len : Nat) (F : Bytes) (id : SaId) (k : Nat) (st : SaStore) (r : FrameResult)
      (hi : i = .processPacket fcs rt hs dec len) (hd : s.DataFrame fcs rt len F id)
      (ha : s.store.lookupOrAllocate s.params.saCap id = some (k, st))
      (hr : FrameCase s.keys s.replayEn fcs hs dec F (st.slot k) r) :
      ExecCase i s ((s.withStore (st.setSlot k r.slot)).finishFrame i.opcode r.outcome r.reason (slotWord k) r.res1 r.out)

/-- A frame that passes classification is a data frame in the sense of `State.DataFrame`. -/
theorem frameView_data {s : State} {fcs rt : Bool} {len : Nat} {F : Bytes} {id : SaId} (hl : len ≤ Config.frameBufLen)
    (h : s.frameView fcs rt len = some F) (hc : classifyFrame s.params.minCtLen F = .ok id) : s.DataFrame fcs rt len F id := by
  have hv : s.Views fcs rt len F := by
    by_cases c : len - fcsLen fcs ≤ (if rt then Config.preambleLen else 0)
    · simp only [State.frameView, if_pos c] at h
      cases h
    · simp only [State.frameView, if_neg c, Option.some.injEq] at h
      exact ⟨hl, by omega, h.symm⟩
  obtain ⟨h1, h2, h3⟩ := classifyFrame_spec hc
  exact ⟨hv, h1, by have := hdrLen_ge F; omega, h2, h3⟩

/-- The end of a standalone pipeline command is one of the two pipeline cases. -/
theorem finishPipeline_case {i : Instr} {s : State} {opc : Byte} (ho : opc = i.opcode) {c : Cipher} {fcs : Bool} {len : Nat} {W : Bytes} {h : Nat}
    (hl : len ≤ Config.frameBufLen) (hh : fcsLen fcs + h ≤ len) (hW : W.length = len - fcsLen fcs)
    (hi : i = .wepDecrypt fcs len ∨ i = .tkipDecrypt fcs len ∨ i = .ccmpDecrypt fcs len) (e : Except PipeFail Bytes)
    (he : (∃ f, e = .error f ∧ (pipeOutcome f, pipeReason f) ∈ outcomePairs i) ∨ ∃ P, e = .ok P ∧ P.length + h + 8 ≤ W.length) :
    ExecCase i s (s.finishPipeline opc c fcs W h e) := by
  subst ho
  rcases he with ⟨f, rfl, hf⟩ | ⟨P, rfl, hP⟩
  · exact .pipeFails _ _ hf (by cases f <;> decide) ⟨fcs, len, hi⟩
  · refine .pipeRuns _ _ _ ?_ ⟨fcs, len, hi⟩
    rw [length_outputFrame]
    simp only [fcsLen, Config.frameBufLen] at *
    cases fcs <;> simp at * <;> omega

/-- Every command answers a next state, and does one of the cases. -/
theorem exec_cases (i : Instr) (s : State) : ∃ t, exec i s = .next t ∧ ExecCase i s t := by
  cases i with
  | initStore => exact ⟨_, rfl, .resets s.keys 0 (.inl ⟨rfl, rfl⟩)⟩
  | destroyStore => exact ⟨_, rfl, .resets [] 0 (.inr (.inl ⟨rfl, rfl⟩))⟩
  | setKeys n =>
    simp only [exec, execSetKeys]
    split
    · exact ⟨_, rfl, .report _ _ _ (by simp [outcomePairs]) (by decide) (by simp) (by intro m hm; cases hm; assumption)⟩
    · exact ⟨_, rfl, .resets _ _ (.inr (.inr (.inr ⟨n, rfl, by omega, rfl⟩)))⟩
  | getKeys m =>
    refine ⟨_, rfl, .result .keyOut _ _ (by simp [outcomePairs]) (by simp) (fun _ h => nomatch h) fun hi => ?_⟩
    have : ∀ ks : List KeyEntry, (∀ e ∈ ks, e.sound) → (ks.flatMap KeyEntry.toRecord).length = 144 * ks.length := by
      intro ks hk
      induction ks with
      | nil => rfl
      | cons e ks ih =>
        have := hk e (by simp)
        rw [List.flatMap_cons, List.length_append, ih (fun e he => hk e (by simp [he]))]
        simp [KeyEntry.toRecord, this.1, this.2.1, this.2.2.1]
        omega
    have hl := this (s.keys.take m) (fun e he => hi.keys.2 e (List.mem_of_mem_take he))
    rw [List.length_take] at hl
    have := hi.keys.1
    simp only [bufferRow, hl, Buffer.size, Config.keyRecLen, State.keysNr]
    exact ⟨trivial, by omega⟩
  | cleanKeys => exact ⟨_, rfl, .resets [] _ (.inr (.inr (.inl ⟨rfl, rfl⟩)))⟩
  | keyValidate k =>
    simp only [exec, execKeyValidate]
    split
    · exact ⟨_, rfl, .illegal _ (by simp [outcomePairs]) (by simp) (fun _ h => nomatch h)⟩
    split
    · exact ⟨_, rfl, .report _ _ _ (by simp [outcomePairs]) (by decide) (by simp) (fun _ h => nomatch h)⟩
    · rename_i e he
      refine ⟨_, rfl, .result .result _ _ (by simp [outcomePairs]) (by simp) (fun _ h => nomatch h) fun hi => ?_⟩
      have : e.toRecord.length = 144 := by
        simp only [validate] at he
        split at he
        · cases he
        · split at he
          · cases he
            simp [KeyEntry.toRecord, Config.keyRecLen]
          · cases he
      rw [this]
      exact ⟨rfl, by simp [Buffer.size, Config.paramLen]⟩
  | saLookup =>
    simp only [exec, execSaLookup]
    split <;> exact ⟨_, rfl, .report _ _ _ (by simp [outcomePairs]) (by decide) (by simp) (fun _ h => nomatch h)⟩
  | saAllocate =>
    simp only [exec, execSaAllocate]
    split
    · exact ⟨_, rfl, .report _ _ _ (by simp [outcomePairs]) (by decide) (by simp) (fun _ h => nomatch h)⟩
    rename_i hl
    split
    · exact ⟨_, rfl, .report _ _ _ (by simp [outcomePairs]) (by decide) (by simp) (fun _ h => nomatch h)⟩
    · rename_i k st ha
      exact ⟨_, rfl, .allocates k st rfl hl ha⟩
  | saRelease k =>
    simp only [exec, execSaRelease]
    split
    · exact ⟨_, rfl, .illegal _ (by simp [outcomePairs]) (by simp) (fun _ h => nomatch h)⟩
    · exact ⟨_, rfl, .releases k rfl (by omega)⟩
  | saRead k =>
    simp only [exec, execSaRead]
    split
    · exact ⟨_, rfl, .illegal _ (by simp [outcomePairs]) (by simp) (fun _ h => nomatch h)⟩
    · refine ⟨_, rfl, .result .result _ _ (by simp [outcomePairs]) (by simp) (fun _ h => nomatch h) fun hi => ?_⟩
      obtain ⟨h1, h2, h3, h4⟩ := hi.store.widths k
      have : ((s.store.slot k).toRecord).length = 121 := by simp [SaSlot.toRecord, h1, h2, h3, h4]
      rw [this]
      exact ⟨rfl, by simp [Buffer.size, Config.paramLen]⟩
  | pskDerive =>
    simp only [exec, execPskDerive]
    split
    · refine ⟨_, rfl, .result .result _ _ (by simp [outcomePairs]) (by simp) (fun _ h => nomatch h) fun hi => ?_⟩
      rw [length_passwordToPsk]
      exact ⟨rfl, by simp [Buffer.size, Config.paramLen]⟩
    · exact ⟨_, rfl, .illegal _ (by simp [outcomePairs]) (by simp) (fun _ h => nomatch h)⟩
  | ptkDerive =>
    simp only [exec, execPtkDerive]
    split
    · rename_i h
      refine ⟨_, rfl, .result .result _ _ (by simp [outcomePairs]) (by simp) (fun _ h => nomatch h) fun hi => ?_⟩
      rw [length_paramPtk]
      simp only [nbitsLegal, Bool.and_eq_true, decide_eq_true_eq] at h
      exact ⟨rfl, by simp only [Buffer.size, Config.paramLen]; omega⟩
    · exact ⟨_, rfl, .illegal _ (by simp [outcomePairs]) (by simp) (fun _ h => nomatch h)⟩
  | micCheck len =>
    simp only [exec, execMicCheck]
    split
    · exact ⟨_, rfl, .illegal _ (by simp [outcomePairs]) (by simp) (fun _ h => nomatch h)⟩
    split <;> exact ⟨_, rfl, .report _ _ _ (by simp [outcomePairs]) (by decide) (by simp) (fun _ h => nomatch h)⟩
  | wepDecrypt fcs len =>
    refine ⟨_, rfl, ?_⟩
    rcases pipelineCommand_cases s (Instr.opcode (.wepDecrypt fcs len)) .wep fcs len (klenLegal (s.paramLength 0))
      (fun _ _ => true) (fun W h => wepTry W h (s.param 1 (s.paramLength 0))) with h | ⟨hl, h | ⟨-, hh, h⟩⟩ <;> rw [h]
    · exact .illegal _ (by simp [outcomePairs]) (by simp) (fun _ h => nomatch h)
    · exact .pipeFails _ _ (by simp [outcomePairs]) (by decide) ⟨_, _, .inl rfl⟩
    · refine finishPipeline_case rfl hl hh (by simp) (.inl rfl) _ ?_
      rcases wepTry_spec (s.frameIn 0 (len - fcsLen fcs)) s.hdrLenOperand (s.param 1 (s.paramLength 0)) with ⟨e, -⟩ | ⟨e, -⟩ | ⟨P, e, hP⟩
      · exact .inl ⟨_, e, by simp [outcomePairs, pipeOutcome, pipeReason]⟩
      · exact .inl ⟨_, e, by simp [outcomePairs, pipeOutcome, pipeReason]⟩
      · exact .inr ⟨_, e, by omega⟩
  | tkipDecrypt fcs len =>
    refine ⟨_, rfl, ?_⟩
    rcases pipelineCommand_cases s (Instr.opcode (.tkipDecrypt fcs len)) .tkip fcs len true
      (fun _ _ => true) (fun W h => tkipTry W h (s.param 0 16)) with h | ⟨hl, h | ⟨-, hh, h⟩⟩ <;> rw [h]
    · exact .illegal _ (by simp [outcomePairs]) (by simp) (fun _ h => nomatch h)
    · exact .pipeFails _ _ (by simp [outcomePairs]) (by decide) ⟨_, _, .inr (.inl rfl)⟩
    · refine finishPipeline_case rfl hl hh (by simp) (.inr (.inl rfl)) _ ?_
      rcases tkipTry_spec (s.frameIn 0 (len - fcsLen fcs)) s.hdrLenOperand (s.param 0 16) with ⟨e, -⟩ | ⟨e, -⟩ | ⟨P, e, hP⟩
      · exact .inl ⟨_, e, by simp [outcomePairs, pipeOutcome, pipeReason]⟩
      · exact .inl ⟨_, e, by simp [outcomePairs, pipeOutcome, pipeReason]⟩
      · exact .inr ⟨_, e, by omega⟩
  | ccmpDecrypt fcs len =>
    refine ⟨_, rfl, ?_⟩
    rcases pipelineCommand_cases s (Instr.opcode (.ccmpDecrypt fcs len)) .ccmp fcs len true
      (fun W h => decide (hdrLen W ≤ h)) (fun W h => ccmpTry W h (s.param 0 16)) with h | ⟨hl, h | ⟨-, hh, h⟩⟩ <;> rw [h]
    · exact .illegal _ (by simp [outcomePairs]) (by simp) (fun _ h => nomatch h)
    · exact .pipeFails _ _ (by simp [outcomePairs]) (by decide) ⟨_, _, .inr (.inr rfl)⟩
    · refine finishPipeline_case rfl hl hh (by simp) (.inr (.inr rfl)) _ ?_
      rcases ccmpTry_spec (s.frameIn 0 (len - fcsLen fcs)) s.hdrLenOperand (s.param 0 16) with ⟨e, -⟩ | ⟨e, -⟩ | ⟨P, e, hP⟩
      · exact .inl ⟨_, e, by simp [outcomePairs, pipeOutcome, pipeReason]⟩
      · exact .inl ⟨_, e, by simp [outcomePairs, pipeOutcome, pipeReason]⟩
      · exact .inr ⟨_, e, by omega⟩
  | processPacket fcs rt hs dec len =>
    by_cases hl : Config.frameBufLen < len
    · exact ⟨_, by simp only [exec, execProcessPacket, if_pos hl], .illegal .badField (by simp [outcomePairs, processPairs]) (by simp) (fun _ h => nomatch h)⟩
    cases hF : s.frameView fcs rt len with
    | none =>
      exact ⟨_, by simp only [exec, execProcessPacket, if_neg hl, hF],
        .packetStops (.unsuccessful, .wrongDataSize) (by decide) ⟨_, _, _, _, _, rfl⟩⟩
    | some F =>
      cases hc : classifyFrame s.params.minCtLen F with
      | error e =>
        exact ⟨_, by simp only [exec, execProcessPacket, if_neg hl, hF, hc],
          .packetStops e (classifyFrame_error hc) ⟨_, _, _, _, _, rfl⟩⟩
      | ok id =>
        cases ha : s.store.lookupOrAllocate s.params.saCap id with
        | none =>
          exact ⟨_, by simp only [exec, execProcessPacket, if_neg hl, hF, hc, State.processData, ha],
            .packetStops (.unsuccessful, .storeFull) (by decide) ⟨_, _, _, _, _, rfl⟩⟩
        | some p =>
          obtain ⟨k, st⟩ := p
          exact ⟨_, by simp only [exec, execProcessPacket, if_neg hl, hF, hc, State.processData, ha],
            .packet fcs rt hs dec len F id k st _ rfl (frameView_data (by omega) hF hc) ha (dispatchFrame_cases ..)⟩

end Sys2Proof.Machine
end

