-- ==== Sys2Proof/Laws/Flags.lean ====
section
/-! SUPPORT. The fields of the STATUS and RES1 words, and that codes tell the outcomes and the reasons apart
(spec/10_state.md R19, R21; spec/30_encoding.md R74, R75). -/

namespace Sys2Proof.Machine

/-- The bits of STATUS, from bit 0 up. -/
theorem getLsbD_statusWord (opc : Byte) (o : OutcomeCode) (r : ReasonCode) (i : Nat) :
    (statusWord opc o r).getLsbD i =
      if i < 8 then (outcomeByte o).getLsbD i
      else if i < 16 then (reasonByte r).getLsbD (i - 8)
      else if i = 16 then true
      else if i < 24 then false
      else opc.getLsbD (i - 24) := by
  refine (BitVec.getLsbD_append (x := opc ++ 0#6 ++ 0#1 ++ 1#1 ++ reasonByte r) (y := outcomeByte o) (i := i)).trans ?_
  simp only [BitVec.getLsbD_append]
  by_cases h8 : i < 8
  · simp [h8]
  by_cases h16 : i < 16
  · simp [h8, h16, show i - 8 < 8 by omega]
  by_cases he : i = 16
  · subst he
    simp
  by_cases h17 : i = 17
  · subst h17
    simp
  by_cases h24 : i < 24
  · simp [h8, h16, he, h24, show ¬ i - 8 < 8 by omega, show ¬ i - 16 < 1 by omega, show ¬ i - 17 < 1 by omega,
      show i - 18 < 6 by omega, Nat.sub_sub]
  · simp [h8, h16, he, h24, show ¬ i - 8 < 8 by omega, show ¬ i - 16 < 1 by omega, show ¬ i - 17 < 1 by omega,
      show ¬ i - 18 < 6 by omega, Nat.sub_sub]

@[simp] theorem statusOutcome_statusWord (opc : Byte) (o : OutcomeCode) (r : ReasonCode) :
    statusOutcome (statusWord opc o r) = outcomeByte o := by
  apply BitVec.eq_of_getLsbD_eq
  intro i hi
  simp [statusOutcome, getLsbD_statusWord, hi]

@[simp] theorem statusReason_statusWord (opc : Byte) (o : OutcomeCode) (r : ReasonCode) :
    statusReason (statusWord opc o r) = reasonByte r := by
  apply BitVec.eq_of_getLsbD_eq
  intro i hi
  simp [statusReason, getLsbD_statusWord, hi, show 8 + i < 16 by omega]

@[simp] theorem statusDone_statusWord (opc : Byte) (o : OutcomeCode) (r : ReasonCode) :
    statusDone (statusWord opc o r) = true := by simp [statusDone, getLsbD_statusWord]

@[simp] theorem statusBusy_statusWord (opc : Byte) (o : OutcomeCode) (r : ReasonCode) :
    statusBusy (statusWord opc o r) = false := getLsbD_statusWord opc o r 17

@[simp] theorem statusLastOpc_statusWord (opc : Byte) (o : OutcomeCode) (r : ReasonCode) :
    statusLastOpc (statusWord opc o r) = opc := by
  apply BitVec.eq_of_getLsbD_eq
  intro i hi
  simp [statusLastOpc, getLsbD_statusWord, hi, show ¬ 24 + i < 8 by omega, show ¬ 24 + i < 16 by omega,
    show ¬ 24 + i = 16 by omega]

/-- STATUS[23:18] is 0. -/
theorem statusWord_reserved (opc : Byte) (o : OutcomeCode) (r : ReasonCode) :
    (statusWord opc o r).extractLsb' 18 6 = 0 := by
  apply BitVec.eq_of_getLsbD_eq
  intro i hi
  simp [getLsbD_statusWord, hi, show ¬ 18 + i < 8 by omega, show ¬ 18 + i < 16 by omega, show ¬ 18 + i = 16 by omega]
  omega

theorem outcomeByte_injective {a b : OutcomeCode} (h : outcomeByte a = outcomeByte b) : a = b := by
  cases a <;> cases b <;> first | rfl | exact absurd h (by decide)

theorem reasonByte_injective {a b : ReasonCode} (h : reasonByte a = reasonByte b) : a = b := by
  cases a <;> cases b <;> first | rfl | exact absurd h (by decide)

/-- The bits of RES1, from bit 0 up. -/
theorem getLsbD_res1Word (x : Res1) (i : Nat) :
    (res1Word x).getLsbD i =
      if i < 8 then x.keyIndex.getLsbD i
      else if i = 8 then x.keyValid
      else if i < 12 then (cipherBits x.cipher).getLsbD (i - 9)
      else if i < 16 then x.hsMsg.getLsbD (i - 12)
      else false := by
  refine (BitVec.getLsbD_append (x := 0#16 ++ x.hsMsg ++ cipherBits x.cipher ++ BitVec.ofBool x.keyValid)
    (y := x.keyIndex) (i := i)).trans ?_
  simp only [BitVec.getLsbD_append]
  by_cases h8 : i < 8
  · simp [h8]
  by_cases he : i = 8
  · subst he
    simp
  by_cases h12 : i < 12
  · simp [h8, he, h12, show ¬ i - 8 < 1 by omega, show i - 8 - 1 = i - 9 by omega]
    omega
  by_cases h16 : i < 16
  · simp [h8, he, h12, h16, show ¬ i - 8 < 1 by omega, show ¬ i - 8 - 1 < 3 by omega,
      show i - 8 - 1 - 3 = i - 12 by omega]
    omega
  · simp [h8, he, h12, h16, show ¬ i - 8 < 1 by omega, show ¬ i - 8 - 1 < 3 by omega, show ¬ i - 8 - 1 - 3 < 4 by omega]

/-- RES1[31:16] is 0. -/
theorem res1Word_reserved (x : Res1) : (res1Word x).extractLsb' 16 16 = 0 := by
  apply BitVec.eq_of_getLsbD_eq
  intro i hi
  simp [getLsbD_res1Word, show ¬ 16 + i < 8 by omega, show ¬ 16 + i = 8 by omega, show ¬ 16 + i < 12 by omega]

/-- `RES1.HS_MSG`. -/
theorem res1Word_hsMsg (x : Res1) : (res1Word x).extractLsb' 12 4 = x.hsMsg := by
  apply BitVec.eq_of_getLsbD_eq
  intro i hi
  simp [getLsbD_res1Word, hi, show ¬ 12 + i < 8 by omega, show ¬ 12 + i = 8 by omega, show 12 + i < 16 by omega]

end Sys2Proof.Machine
end

