-- ==== Sys2Proof/Laws/HostWindow.lean ====
section
/-! SUPPORT. The host window map as the statements speak of it, and what each kind of host access does at an offset
(spec/20_memory.md R43, R47, R52, R54 to R56). -/

namespace Sys2Proof.Machine

/-! ### The window map (R52) -/

theorem contains_iff {p : Params} {b : Buffer} {a : Nat} :
    b.contains p a = true ↔ b.base ≤ a ∧ a < b.base + b.size p := by simp [Buffer.contains]

/-- The offsets of R52 are those of the six buffers. -/
theorem bufferOffset_iff {p : Params} {a : Nat} : bufferOffset p a ↔ ∃ b : Buffer, b.contains p a = true := by
  constructor
  · rintro (h | h | h | h | h | h)
    · exact ⟨.frameIn, contains_iff.2 h⟩
    · exact ⟨.frameOut, contains_iff.2 h⟩
    · exact ⟨.keyStage, contains_iff.2 h⟩
    · exact ⟨.keyOut, contains_iff.2 h⟩
    · exact ⟨.param, contains_iff.2 h⟩
    · exact ⟨.result, contains_iff.2 h⟩
  · rintro ⟨b, h⟩
    rw [contains_iff] at h
    cases b
    · exact .inl h
    · exact .inr (.inl h)
    · exact .inr (.inr (.inl h))
    · exact .inr (.inr (.inr (.inl h)))
    · exact .inr (.inr (.inr (.inr (.inl h))))
    · exact .inr (.inr (.inr (.inr (.inr h))))

/-- The writable offsets of R52 are those of the buffers the host may write. -/
theorem writableOffset_iff {p : Params} {a : Nat} :
    writableOffset p a ↔ ∃ b : Buffer, b.hostWritable = true ∧ b.contains p a = true := by
  constructor
  · rintro (h | h | h)
    · exact ⟨.frameIn, rfl, contains_iff.2 h⟩
    · exact ⟨.keyStage, rfl, contains_iff.2 h⟩
    · exact ⟨.param, rfl, contains_iff.2 h⟩
  · rintro ⟨b, hw, h⟩
    rw [contains_iff] at h
    cases b
    · exact .inl h
    · cases hw
    · exact .inr (.inl h)
    · cases hw
    · exact .inr (.inr h)
    · cases hw

/-- With admitted parameters an offset lies in one buffer at most. -/
theorem contains_unique {p : Params} (hp : paramsLegal p) {b c : Buffer} {a : Nat} (hb : b.contains p a = true)
    (hc : c.contains p a = true) : b = c := by
  rw [contains_iff] at hb hc
  obtain ⟨-, -, -, h⟩ := hp
  cases b <;> cases c <;>
    first
    | rfl
    | (simp only [Buffer.base, Buffer.size, Config.frameBufLen, Config.keyRecLen, Config.paramLen] at hb hc; omega)

/-- With admitted parameters the buffers lie above the registers and inside the window. -/
theorem contains_range {p : Params} (hp : paramsLegal p) {b : Buffer} {a : Nat} (h : b.contains p a = true) :
    0x1000 ≤ a ∧ a < 0x10000 := by
  rw [contains_iff] at h
  obtain ⟨-, -, -, hk⟩ := hp
  cases b <;> simp only [Buffer.base, Buffer.size, Config.frameBufLen, Config.keyRecLen, Config.paramLen] at h <;> omega

/-- The four bytes of an aligned word lie in the same buffers. -/
theorem contains_word {p : Params} {b : Buffer} {a k : Nat} (h4 : a % 4 = 0) (hk : k < 4) :
    b.contains p (a + k) = b.contains p a := by
  have hb : b.base % 4 = 0 := by cases b <;> rfl
  have hs : b.size p % 4 = 0 := by
    cases b <;> simp only [Buffer.size, Config.frameBufLen, Config.keyRecLen, Config.paramLen] <;> omega
  rw [Bool.eq_iff_iff, contains_iff, contains_iff]
  omega

/-- What lies at an offset above the registers: a buffer that contains it, or no buffer at all. -/
theorem regionOf_cases (p : Params) {a : Nat} (h1 : 0x1000 ≤ a) (h2 : a < 0x10000) :
    (∃ b : Buffer, regionOf p a = .buffer b ∧ b.contains p a = true) ∨
      (regionOf p a = .reserved ∧ ∀ b : Buffer, b.contains p a = false) := by
  simp only [regionOf]
  rw [if_neg (by omega), if_neg (by omega)]
  cases hf : allBuffers.find? fun b => b.contains p a with
  | none => exact .inr ⟨rfl, fun b => by simpa using List.find?_eq_none.1 hf b (by cases b <;> decide)⟩
  | some c => exact .inl ⟨c, rfl, List.find?_some (p := fun b : Buffer => b.contains p a) hf⟩

theorem regionOf_buffer {p : Params} (hp : paramsLegal p) {b : Buffer} {a : Nat} (h : b.contains p a = true) :
    regionOf p a = .buffer b := by
  obtain ⟨h1, h2⟩ := contains_range hp h
  rcases regionOf_cases p h1 h2 with ⟨c, e, hc⟩ | ⟨-, hn⟩
  · rw [e, contains_unique hp hc h]
  · rw [hn b] at h
    cases h

/-! ### What a read sees -/

theorem hostByte_of_bufferOffset {s : State} (hp : paramsLegal s.params) {a : Nat} (h : bufferOffset s.params a) :
    s.hostByte a = s.readByte a := by
  obtain ⟨b, hb⟩ := bufferOffset_iff.1 h
  simp [State.hostByte, regionOf_buffer hp hb]

theorem hostWord_of_bufferOffset {s : State} (hp : paramsLegal s.params) {a : Nat} (h : bufferOffset s.params a)
    (h4 : a % 4 = 0) :
    s.hostWord a = s.readByte (a + 3) ++ s.readByte (a + 2) ++ s.readByte (a + 1) ++ s.readByte a := by
  have hk : ∀ k, k < 4 → s.hostByte (a + k) = s.readByte (a + k) := fun k hk => by
    obtain ⟨b, hb⟩ := bufferOffset_iff.1 h
    exact hostByte_of_bufferOffset hp (bufferOffset_iff.2 ⟨b, by rw [contains_word h4 hk, hb]⟩)
  simp only [State.hostWord, hk 3 (by omega), hk 2 (by omega), hk 1 (by omega), hostByte_of_bufferOffset hp h]

/-! ### What a write does -/

/-- A host write outside the registers, at a writable offset: a write of the buffer that holds the offset. -/
theorem hostStore_writable {s : State} (hp : paramsLegal s.params) {a : Nat} (h : writableOffset s.params a) (v : Bytes) :
    ∃ b : Buffer, b.base ≤ a ∧ s.hostStore a v = s.memWrite b (a - b.base) v := by
  obtain ⟨b, hw, hb⟩ := writableOffset_iff.1 h
  refine ⟨b, (contains_iff.1 hb).1, ?_⟩
  simp [State.hostStore, regionOf_buffer hp hb, hw]

/-- A host write anywhere else stores nothing. -/
theorem hostStore_ignored {s : State} {a : Nat} (h : ¬ writableOffset s.params a) (v : Bytes) : s.hostStore a v = s := by
  rcases hostStore_cases s a v with e | ⟨b, hw, hb, -⟩
  · exact e
  · exact absurd (writableOffset_iff.2 ⟨b, hw, hb⟩) h

/-- At a writable offset the bytes are read back. -/
theorem readByte_hostStore_same {s : State} (hp : paramsLegal s.params) {a : Nat} (h : writableOffset s.params a)
    (v : Bytes) (i : Nat) (hi : i < v.length) : (s.hostStore a v).readByte (a + i) = v[i] := by
  obtain ⟨b, hb, e⟩ := hostStore_writable hp h v
  have := readByte_memWrite_same s b (a - b.base) v i hi
  rw [Nat.add_sub_cancel' hb] at this
  rw [e, this]

/-- A host write leaves every byte outside its range alone. -/
theorem readByte_hostStore_other (s : State) (a : Nat) (v : Bytes) (x : Nat) (h : x < a ∨ a + v.length ≤ x) :
    (s.hostStore a v).readByte x = s.readByte x := by
  rcases hostStore_cases s a v with e | ⟨b, -, hb, e⟩
  · rw [e]
  · have := (contains_iff.1 hb).1
    rw [e, readByte_memWrite_other _ _ _ _ _ (by omega)]

/-- The same bytes put in the same place again change nothing. -/
theorem splice_splice (m : Memory) (lo : Nat) (bs : Bytes) :
    Memory.splice (Memory.splice m lo lo bs) lo lo bs = Memory.splice m lo lo bs := by
  have below : (cellsFrom lo bs).filter (fun c => decide (c.1 < lo)) = [] :=
    List.filter_eq_nil_iff.2 fun c h => by
      have := mem_cellsFrom h
      simp only [decide_eq_true_eq]
      omega
  have above : (cellsFrom lo bs).filter (fun c => decide (max lo (lo + bs.length) ≤ c.1)) = [] :=
    List.filter_eq_nil_iff.2 fun c h => by
      have := mem_cellsFrom h
      simp only [decide_eq_true_eq]
      omega
  have apart : ∀ c : Host.Cell, (decide (c.1 < lo) && decide (max lo (lo + bs.length) ≤ c.1)) = false := fun c => by
    simp only [Bool.and_eq_false_iff, decide_eq_false_iff_not]
    omega
  have apart' : ∀ c : Host.Cell, (decide (max lo (lo + bs.length) ≤ c.1) && decide (c.1 < lo)) = false := fun c => by
    rw [Bool.and_comm, apart]
  simp only [Memory.splice, List.filter_append, List.filter_filter, below, above, apart, apart', Bool.and_self,
    List.filter_false, List.append_nil, List.nil_append]

/-- The same buffer write performed again changes nothing (R56). -/
theorem hostStore_hostStore (s : State) (a : Nat) (v : Bytes) : (s.hostStore a v).hostStore a v = s.hostStore a v := by
  cases hr : regionOf s.params a with
  | buffer b => cases hw : b.hostWritable <;> simp [State.hostStore, hr, hw, State.memWrite, splice_splice]
  | _ => simp [State.hostStore, hr]

/-! ### Steps -/

/-- A step with a host access pending that is not refused. -/
theorem step_access {s : State} {a : HostAccess} {rest : List HostAccess} (h : s.host = a :: rest)
    (hr : accessRefusal s.params a = none) :
    step s = match legalAccess { s with host := rest } a with
      | .done t => .next t
      | .command w t => runCommand w t
      | .refused r => .refused r := by
  have e : nextAccess s = legalAccess { s with host := rest } a := by simp only [nextAccess, h, hostAccess, hr]
  rw [← e]
  rfl

/-- The same with the access put in front of the queue. -/
theorem step_pending (s : State) (a : HostAccess) (rest : List HostAccess) (hr : accessRefusal s.params a = none) :
    step { s with host := a :: rest } = match legalAccess { s with host := rest } a with
      | .done t => .next t
      | .command w t => runCommand w t
      | .refused r => .refused r := step_access (rest := rest) rfl hr

theorem accessRefusal_rd8 (p : Params) {a : Nat} (h1 : 0x1000 ≤ a) (h2 : a < 0x10000) :
    accessRefusal p (.rd8 a) = none := by
  simp only [accessRefusal]
  rcases regionOf_cases p h1 h2 with ⟨b, h, -⟩ | ⟨h, -⟩ <;> rw [h]

theorem accessRefusal_wr8 (p : Params) {a : Nat} (h1 : 0x1000 ≤ a) (h2 : a < 0x10000) (v : Byte) :
    accessRefusal p (.wr8 a v) = none := accessRefusal_rd8 p h1 h2

theorem accessRefusal_rd32 (p : Params) {a : Nat} (h : a < 0x10000) (h4 : a % 4 = 0) :
    accessRefusal p (.rd32 a) = none := by
  simp only [accessRefusal]
  rw [if_neg (by omega), if_neg (by omega)]

theorem accessRefusal_wr32 (p : Params) {a : Nat} (h : a < 0x10000) (h4 : a % 4 = 0) (v : Word) :
    accessRefusal p (.wr32 a v) = none := accessRefusal_rd32 p h h4

end Sys2Proof.Machine
end

