-- ==== Sys2Proof/Laws/Keys.lean ====
section
/-! SUPPORT. What validation and acceptance do to a key record (spec/41_key_collection.md R114 to R116). -/

namespace Sys2Proof.Machine

@[simp] theorem KeyEntry.accept_kind (e : KeyEntry) : e.accept.kind = e.kind := rfl
@[simp] theorem KeyEntry.accept_keyLen (e : KeyEntry) : e.accept.keyLen = e.keyLen := rfl
@[simp] theorem KeyEntry.accept_passLen (e : KeyEntry) : e.accept.passLen = e.passLen := rfl
@[simp] theorem KeyEntry.accept_ssidLen (e : KeyEntry) : e.accept.ssidLen = e.ssidLen := rfl
@[simp] theorem KeyEntry.accept_pass (e : KeyEntry) : e.accept.pass = e.pass := rfl
@[simp] theorem KeyEntry.accept_ssid (e : KeyEntry) : e.accept.ssid = e.ssid := rfl

/-- The length conditions look at the fields that acceptance keeps. -/
@[simp] theorem KeyEntry.accept_lengthsLegal (e : KeyEntry) : e.accept.lengthsLegal = e.lengthsLegal := rfl

/-- The key acceptance stores is 32 bytes, for a passphrase entry the PSK. -/
theorem KeyEntry.accept_key_length (e : KeyEntry) (h : e.key.length = 32) : e.accept.key.length = 32 := by
  obtain ⟨kind, keyLen, passLen, ssidLen, key, pass, ssid⟩ := e
  cases kind <;> simp_all [KeyEntry.accept]

theorem KeyEntry.accept_sound (e : KeyEntry) (h : e.sound) : e.accept.sound := by
  obtain ⟨hk, hp, hs, hl⟩ := h
  exact ⟨accept_key_length e hk, by simpa using hp, by simpa using hs, by simpa using hl⟩

/-- Every entry validation answers for a whole record is a sound one. -/
theorem validate_sound {rec : Bytes} {e : KeyEntry} (hr : rec.length = 144) (h : validate rec = some e) : e.sound := by
  simp only [validate] at h
  split at h
  · cases h
  · split at h
    · cases h
      exact ⟨by simp [hr], by simp [hr], by simp [hr], ‹_›⟩
    · cases h

end Sys2Proof.Machine
end

