-- ==== Sys2Proof/Laws/Packet.lean ====
section
/-! SUPPORT. How PROCESS_PACKET reaches its SA, and what it leaves there, said once (spec/45_packet_processor.md R174 to
R180, R193; spec/41_key_collection.md R113, R123). -/

namespace Sys2Proof.Machine

/-! ### The SA -/

/-- The slot that `LookupOrAllocate` answers is the SA of the id, in a store that is sound. -/
theorem SaStore.saFor_of_lookupOrAllocate {st st' : SaStore} {cap : Nat} (hs : st.Sound cap) {id : SaId} {k : Nat}
    (h : st.lookupOrAllocate cap id = some (k, st')) : st.saFor cap id k (st'.slot k) := by
  have hl := hs.inRange.1
  rcases st.lookupOrAllocate_spec cap id with ⟨j, e, a⟩ | ⟨j, e, a, h1, h2, h3, h4⟩ | ⟨-, a, -⟩ <;> rw [a] at h <;> cases h
  · rcases st.lookup_spec id with ⟨i, e', -, hu, hid⟩ | ⟨e', -⟩ <;> rw [e] at e' <;> cases e'
    exact .inl ⟨hl ▸ SaStore.lt_of_used hu, hu, hid, rfl⟩
  · exact .inr ⟨SaStore.lookup_none hs.usedBelowLsi e, h1, h2, h4, h3, SaStore.slot_set_same (by omega) _ _ _⟩

/-- The SA of an id is the slot that `LookupOrAllocate` answers, and a store that then writes this slot has written no
other. -/
theorem SaStore.lookupOrAllocate_of_saFor {st : SaStore} {cap : Nat} (hs : st.Sound cap) {id : SaId} {k : Nat} {sl : SaSlot}
    (h : st.saFor cap id k sl) :
    ∃ st', st.lookupOrAllocate cap id = some (k, st') ∧ st'.slot k = sl ∧ ∀ sl', st.Wrote (st'.setSlot k sl') k sl' := by
  have hl := hs.inRange.1
  rcases h with ⟨hk, hu, hid, rfl⟩ | ⟨hn, hf, hk, hall, hfree, rfl⟩
  · rcases st.lookupOrAllocate_spec cap id with ⟨j, e, a⟩ | ⟨j, e, -⟩ | ⟨e, -⟩
    · rcases st.lookup_spec id with ⟨i, e', -, hu', hid'⟩ | ⟨e', -⟩ <;> rw [e] at e' <;> cases e'
      obtain rfl := hs.idsDistinct _ _ hu' hu (hid'.trans hid.symm)
      exact ⟨_, a, rfl, fun sl' => ⟨by simp, SaStore.slot_setSlot_same (by omega) _,
        fun i hi => SaStore.slot_setSlot_other _ hi _, by simp [hu], by simp [hu]⟩⟩
    all_goals exact absurd hid (SaStore.lookup_none hs.usedBelowLsi e k hu)
  · rcases st.lookupOrAllocate_spec cap id with ⟨j, e, -⟩ | ⟨j, -, a, h1, -, h3, h4⟩ | ⟨-, -, hfull⟩
    · rcases st.lookup_spec id with ⟨i, -, -, hu', hid'⟩ | ⟨e', -⟩
      · exact absurd hid' (hn _ hu')
      · rw [e] at e'
        cases e'
    · have hjk : j = k := by
        rcases Nat.lt_trichotomy j k with h | h | h
        · exact absurd (hall j h1 h) (by simp [h3])
        · exact h
        · exact absurd (h4 k hf h) (by simp [hfree])
      subst hjk
      refine ⟨_, a, SaStore.slot_set_same (by omega) _ _ _, fun sl' => ⟨by simp, SaStore.slot_setSlot_same (by simp; omega) _,
        fun i hi => ?_, by simp [hfree], by simp [hfree]⟩⟩
      rw [SaStore.slot_setSlot_other _ hi, SaStore.slot_set_other _ hi]
    · exact absurd (hfull k hf hk) (by simp [hfree])

/-! ### The frame -/

/-- A data frame is what PROCESS_PACKET views and classifies. -/
theorem State.DataFrame.view {s : State} {fcs rt : Bool} {len : Nat} {F : Bytes} {id : SaId}
    (h : s.DataFrame fcs rt len F id) :
    s.frameView fcs rt len = some F ∧ classifyFrame s.params.minCtLen F = .ok id := by
  obtain ⟨⟨-, hne, hv⟩, hd, h2, hl, hi⟩ := h
  constructor
  · simp only [State.frameView]
    rw [if_neg (by omega), hv]
  · simp only [classifyFrame, hd, hi, ne_eq, not_true_eq_false, if_false]
    rw [if_neg (by omega), if_neg (by omega)]

/-- PROCESS_PACKET on a data frame. -/
theorem execProcessPacket_data {s : State} {fcs rt : Bool} {len : Nat} {F : Bytes} {id : SaId}
    (h : s.DataFrame fcs rt len F id) (hs dec : Bool) :
    execProcessPacket fcs rt hs dec len s = .next (s.processData 0x40 fcs hs dec F id) := by
  have hb := h.views.bound
  simp only [execProcessPacket, h.view.1, h.view.2]
  rw [if_neg (by omega)]
  rfl

/-- A frame command leaves everything but its SA, the result registers and FRAME_OUT. -/
theorem finishFrame_frameOnly (s : State) (st : SaStore) (opc : Byte) (o : OutcomeCode) (r : ReasonCode) (x : Word)
    (y : Res1) (out : Bytes) : s.FrameOnly ((s.withStore st).finishFrame opc o r x y out) :=
  ⟨⟨rfl, rfl, rfl, rfl, rfl, rfl⟩, rfl, fun _ ha => readByte_finishFrame_other _ _ _ _ _ _ _ _ ha⟩

/-- PROCESS_PACKET on a frame that reaches slot `k`: everything it does is in what `dispatchFrame` makes of the slot. -/
theorem exec_reaches {s : State} {fcs rt : Bool} {len : Nat} {F : Bytes} {k : Nat} {sl : SaSlot}
    (h : s.Reaches fcs rt len F k sl) (hs dec : Bool) {r : FrameResult}
    (hr : dispatchFrame s.keys s.replayEn fcs hs dec F sl = r) :
    ∃ t, exec (.processPacket fcs rt hs dec len) s = .next t ∧
      t.Reports 0x40 r.outcome r.reason (slotWord k) (res1Word r.res1) (BitVec.ofNat 32 r.out.length) ∧
      s.store.Wrote t.store k r.slot ∧ s.FrameOnly t ∧ (r.out.length ≤ Config.frameBufLen → t.FrameOutHolds r.out) := by
  subst hr
  obtain ⟨hinv, id, hd, hsa⟩ := h
  obtain ⟨st, e, rfl, hw⟩ := SaStore.lookupOrAllocate_of_saFor hinv.store hsa
  refine ⟨_, execProcessPacket_data hd hs dec, ?_⟩
  simp only [State.processData, e]
  exact ⟨⟨rfl, rfl, rfl, rfl⟩, hw _, finishFrame_frameOnly _ _ _ _ _ _ _ _, fun hl => memRead_putFrameOut _ _ hl⟩

/-! ### The candidates (R113, R123) -/

/-- `IsWpa` by the three types it takes in. -/
theorem isWpa_eq (keys : List KeyEntry) :
    isWpa keys = fun j => (keys[j]?).any fun e => e.kind ∈ [.wpaPwd, .wpaPsk, .wpaPmk] := by
  have h : (fun e : KeyEntry => e.kind != .wep) = fun e => decide (e.kind ∈ [.wpaPwd, .wpaPsk, .wpaPmk]) := by
    funext e
    cases e.kind <;> rfl
  simp only [← h]
  rfl

theorem isWep_eq (keys : List KeyEntry) : isWep keys = fun j => (keys[j]?).any fun e => e.kind = .wep := by
  have h : (fun e : KeyEntry => e.kind == .wep) = fun e => decide (e.kind = .wep) := by
    funext e
    cases e.kind <;> rfl
  simp only [← h]
  rfl

/-- The order of R123, with the condition on the cached key as a proposition. -/
theorem candidates_eq (fits : Nat → Bool) (n : Nat) (sl : SaSlot) :
    candidates fits n sl =
      (if sl.ckValid = true ∧ fits sl.ckIndex.toNat = true then [sl.ckIndex.toNat] else []) ++ (List.range n).filter fits := by
  simp only [candidates, Bool.and_eq_true]

end Sys2Proof.Machine
end

