-- ==== Sys2Proof/Laws/PerInstr.lean ====
section
/-! SUPPORT. Per instruction: the three fields of its CMD word are its opcode, its flags and its operand
(spec/30_encoding.md R66, R67). -/

namespace Sys2Proof.Laws

/-- Bit `i` of a CMD word put together from IMM, FLAGS and OPC. -/
theorem getLsbD_word (imm : Half) (flags opc : Byte) (i : Nat) :
    (imm ++ flags ++ opc : Word).getLsbD i =
      if i < 8 then opc.getLsbD i else if i - 8 < 8 then flags.getLsbD (i - 8) else imm.getLsbD (i - 8 - 8) := by
  have e : (imm ++ flags ++ opc).getLsbD i =
      if i < 8 then opc.getLsbD i else if i - 8 < 8 then flags.getLsbD (i - 8) else imm.getLsbD (i - 8 - 8) := by
    rw [BitVec.getLsbD_append, BitVec.getLsbD_append]
  exact e

/-- The fields of a CMD word put together from IMM, FLAGS and OPC (R66). -/
theorem fields_of_word (imm : Half) (flags opc : Byte) :
    opcField (imm ++ flags ++ opc) = opc ∧ flagsField (imm ++ flags ++ opc) = flags ∧
      immField (imm ++ flags ++ opc) = imm.toNat := by
  have e := getLsbD_word imm flags opc
  refine ⟨?_, ?_, ?_⟩
  · apply BitVec.eq_of_getLsbD_eq
    intro i hi
    rw [opcField, BitVec.getLsbD_extractLsb', decide_eq_true hi, Bool.true_and]
    refine (e (0 + i)).trans ?_
    rw [if_pos (by omega), Nat.zero_add]
  · apply BitVec.eq_of_getLsbD_eq
    intro i hi
    rw [flagsField, BitVec.getLsbD_extractLsb', decide_eq_true hi, Bool.true_and]
    refine (e (8 + i)).trans ?_
    rw [if_neg (by omega), if_pos (by omega), Nat.add_sub_cancel_left]
  · refine congrArg BitVec.toNat (?_ : BitVec.extractLsb' 16 16 _ = imm)
    apply BitVec.eq_of_getLsbD_eq
    intro i hi
    rw [BitVec.getLsbD_extractLsb', decide_eq_true hi, Bool.true_and]
    refine (e (16 + i)).trans ?_
    rw [if_neg (by omega), if_neg (by omega), show 16 + i - 8 - 8 = i by omega]

namespace EncodedFields

/-- The fields of the encoded word are the instruction's own (R66, R67). -/
def Statement (i : Instr) : Prop :=
  opcField (encode i) = i.opcode ∧ flagsField (encode i) = i.flags ∧ (i.wellFormed = true → immField (encode i) = i.imm)

theorem of_fields (i : Instr) : Statement i := by
  obtain ⟨h1, h2, h3⟩ := fields_of_word (BitVec.ofNat 16 i.imm) i.flags i.opcode
  refine ⟨h1, h2, fun h => ?_⟩
  rw [encode, h3, BitVec.toNat_ofNat, Nat.mod_eq_of_lt]
  simpa [Instr.wellFormed] using h

theorem initStore : Statement .initStore := of_fields _

theorem destroyStore : Statement .destroyStore := of_fields _

theorem setKeys (n : Nat) : Statement (.setKeys n) := of_fields _

theorem getKeys (max : Nat) : Statement (.getKeys max) := of_fields _

theorem cleanKeys : Statement .cleanKeys := of_fields _

theorem keyValidate (k : Nat) : Statement (.keyValidate k) := of_fields _

theorem saLookup : Statement .saLookup := of_fields _

theorem saAllocate : Statement .saAllocate := of_fields _

theorem saRelease (slot : Nat) : Statement (.saRelease slot) := of_fields _

theorem saRead (slot : Nat) : Statement (.saRead slot) := of_fields _

theorem pskDerive : Statement .pskDerive := of_fields _

theorem ptkDerive : Statement .ptkDerive := of_fields _

theorem micCheck (len : Nat) : Statement (.micCheck len) := of_fields _

theorem wepDecrypt (fcs : Bool) (len : Nat) : Statement (.wepDecrypt fcs len) := of_fields _

theorem tkipDecrypt (fcs : Bool) (len : Nat) : Statement (.tkipDecrypt fcs len) := of_fields _

theorem ccmpDecrypt (fcs : Bool) (len : Nat) : Statement (.ccmpDecrypt fcs len) := of_fields _

theorem processPacket (fcs rt hs dec : Bool) (len : Nat) : Statement (.processPacket fcs rt hs dec len) := of_fields _

end EncodedFields

end Sys2Proof.Laws
end

