-- ==== Sys2Proof/Tests/Slice0.lean ====
section
/-! SUPPORT. Our own tests: the smoke test of `Instr.wellFormed`, the decoding of every command's word written out from the
encoding, published vectors, single steps with the results of spec/95_test_vectors.md, and for every statement with
hypotheses a state that meets them. Every expected value comes from the spec's tables or from a public standard. -/

namespace Sys2Proof.Tests

open Sys2Proof Sys2Proof.Machine

-- One theorem at a time: every kernel evaluation would otherwise hold a thread.
set_option Elab.async false

/-- `n` bytes, most significant first, of a number written in hexadecimal. -/
def hex (n w : Nat) : Bytes := (List.range n).map fun i => BitVec.ofNat 8 (w >>> (8 * (n - 1 - i)))

/-! ### Well-formedness: an operand that does not fit the 16 bits of IMM is refused (R67) -/

theorem test_wellFormed_bounds :
    [Instr.setKeys 65536, .getKeys 65536, .keyValidate 65536, .saRelease 65536, .saRead 65536, .micCheck 65536,
      .wepDecrypt true 65536, .tkipDecrypt false 65536, .ccmpDecrypt true 65536,
      .processPacket true false true false 65536].all (fun i => !i.wellFormed) = true := by decide

theorem test_wellFormed_accepts :
    [Instr.initStore, .setKeys 65535, .saRead 0, .micCheck 99, .processPacket true true true true 65535].all
      Instr.wellFormed = true := by decide

/-! ### Decoding: words written out from the bit positions (R66, R68, R69; spec/95_test_vectors.md 2.1.1) -/

theorem test_decode_store_words :
    decodeWord 0x00000001 = .ok .initStore ∧ decodeWord 0x00000002 = .ok .destroyStore ∧
      decodeWord 0x00000010 = .ok .saLookup ∧ decodeWord 0x00000011 = .ok .saAllocate ∧
      decodeWord 0x00010012 = .ok (.saRelease 1) ∧ decodeWord 0x00030013 = .ok (.saRead 3) := by decide

theorem test_decode_key_words :
    decodeWord 0x00030003 = .ok (.setKeys 3) ∧ decodeWord 0x00400004 = .ok (.getKeys 64) ∧
      decodeWord 0x00000005 = .ok .cleanKeys ∧ decodeWord 0x00010006 = .ok (.keyValidate 1) ∧
      decodeWord 0x00000020 = .ok .pskDerive ∧ decodeWord 0x00000021 = .ok .ptkDerive ∧
      decodeWord 0x00630022 = .ok (.micCheck 99) := by decide

theorem test_decode_frame_words :
    decodeWord 0x003C0030 = .ok (.wepDecrypt false 60) ∧ decodeWord 0x00400130 = .ok (.wepDecrypt true 64) ∧
      decodeWord 0x00480031 = .ok (.tkipDecrypt false 72) ∧ decodeWord 0x00440032 = .ok (.ccmpDecrypt false 68) ∧
      decodeWord 0x00830C40 = .ok (.processPacket false false true true 131) ∧
      decodeWord 0x00400D40 = .ok (.processPacket true false true true 64) ∧
      decodeWord 0x00540E40 = .ok (.processPacket false true true true 84) ∧
      decodeWord 0x003C0440 = .ok (.processPacket false false true false 60) ∧
      decodeWord 0x00180040 = .ok (.processPacket false false false false 24) := by decide

theorem test_decode_refusals :
    decodeWord 0x00000000 = .error (.badOpcode 0x00) ∧ decodeWord 0x00000041 = .error (.badOpcode 0x41) ∧
      decodeWord 0x00000101 = .error (.badField 0x01) ∧ decodeWord 0x00010001 = .error (.badField 0x01) ∧
      decodeWord 0x00000230 = .error (.badField 0x30) ∧ decodeWord 0x00001040 = .error (.badField 0x40) := by decide

theorem test_table_word : decodeTableWord 32 0x00440032 = some (.ccmpDecrypt false 68) := by decide

/-! ### Published vectors (spec/95_test_vectors.md 1.2) -/

theorem test_hmac_md5 :
    hmacMd5 (hex 4 0x4a656665) (hex 28 0x7768617420646f2079612077616e7420666f72206e6f7468696e673f) =
      hex 16 0x750c783e6ab0b503eaa86e310a5db738 := by decide +kernel

theorem test_hmac_sha1 :
    hmacSha1 (hex 4 0x4a656665) (hex 28 0x7768617420646f2079612077616e7420666f72206e6f7468696e673f) =
      hex 20 0xeffcdf6ae5eb2fa2d27416d5f184df9c259a7c79 := by decide +kernel

theorem test_aes128 :
    aes128 (hex 16 0x000102030405060708090a0b0c0d0e0f) (hex 16 0x00112233445566778899aabbccddeeff) =
      hex 16 0x69c4e0d86a7b0430d8cdb78070b4c55a := by decide +kernel

theorem test_crc32 : crc32 (hex 9 0x313233343536373839) = 0xCBF43926 := by decide +kernel

/-- The whole table of R156. -/
theorem test_tsb_table :
    (List.range 256).flatMap (fun x => be16Bytes (tsb (BitVec.ofNat 8 x))) =
      hex 32 0xC6A5F884EE99F68DFF0DD6BDDEB1915460500203CEA9567DE719B5624DE6EC9A ++
      hex 32 0x8F451F9D8940FA87EF15B2EB8EC9FB0B41ECB3675FFD45EA23BF53F7E4969B5B ++
      hex 32 0x75C2E11C3DAE4C6A6C5A7E41F502834F685C51F4D134F908E293AB7362532A3F ++
      hex 32 0x080C955246659D5E302837A10A0F2FB50E0924361B9BDF3DCD264E697FCDEA9F ++
      hex 32 0x121B1D9E5874342E362DDCB2B4EE5BFBA4F6764DB7617DCE527BDD3E5E711397 ++
      hex 32 0xA6F5B9680000C12C4060E31F79C8B6EDD4BE8D4667D9724B94DE98D4B0E8854A ++
      hex 32 0xBB6BC52A4FE5ED1686C59AD7665511948ACFE9100406FE81A0F0784425BA4BE3 ++
      hex 32 0xA2F35DFE80C0058A3FAD21BC7048F10463DF77C1AF7542632030E51AFD0EBF6D ++
      hex 32 0x814C18142635C32FBEE135A288CC2E39935755F2FC827A47C8ACBAE7322BE695 ++
      hex 32 0xC0A019989ED1A37F4466547E3BAB0B838CCAC7296BD3283CA779BCE2161DAD76 ++
      hex 32 0xDB3B6456744E141E92DB0C0A486CB8E49F5DBD6E43EFC4A639A831A4D337F28B ++
      hex 32 0xD5328B436E59DAB7018CB1649CD249E0D8B4ACFAF307CF25CAAFF48E47E91018 ++
      hex 32 0x6FD5F0884A6F5C72382457F173C79751CB23A17CE89C3E2196DD61DC0D860F85 ++
      hex 32 0xE0907C4271C4CCAA90D80605F7011C12C2A36A5FAEF969D0179199583A2727B9 ++
      hex 32 0xD938EB132BB32233D2BBA970078933A72DB63C221592C9208749AAFF5078A57A ++
      hex 32 0x038F59F809801A1765DAD73184C6D0B882C329B05A771E117BCBA8FC6DD62C3A := by decide +kernel

theorem test_tkip_mixing :
    phase1 (hex 16 0x000102030405060708090a0b0c0d0e0f) (hex 6 0x102233445566) 0 =
        ⟨0x3DD2, 0x016E, 0x76F4, 0x8697, 0xB2E8⟩ ∧
      phase2 (hex 16 0x000102030405060708090a0b0c0d0e0f) ⟨0x3DD2, 0x016E, 0x76F4, 0x8697, 0xB2E8⟩ 0 =
        hex 16 0x00200033ea8d2f60ca6d1374234a660b := by decide +kernel

/-- The CCMP frame of IEEE 802.11i: its AAD block and nonce. -/
def ccmpVector : Bytes :=
  hex 32 0x0848c32c0fd2e128a57c5030f1844408abaea5b8fcba80330ce70020769703b5 ++
    hex 28 0xf3d0a2fe9a3dbf2342a643e43246e80c3c04d0197845ce0b16f97623

theorem test_ccmp_vector :
    ccmpTry ccmpVector 24 (hex 16 0xc97c1f67ce371185514a8a19f2bdd52f) =
      .ok (hex 20 0xf8ba1a55d02f85ae967bb62fb6cda8eb7e78a050) := by decide +kernel

/-! ### Small states -/

/-- AP, the BSSID of spec/95_test_vectors.md. -/
def ap : Bytes := hex 6 0x020000000001

/-- STA. -/
def sta : Bytes := hex 6 0x020000000002

/-- Two slots, two keys and no minimum length: parameters that R5 admits. -/
def tiny : Params := ⟨2, 2, 0, true⟩

/-- Nothing stored. -/
def bare : State := { State.reset with params := tiny, store := SaStore.empty 2 }

/-- The SA of (AP, STA) in slot 0, with the keys `ks`, and `v` in a buffer. -/
def withSa (ks : List KeyEntry) (sl : SaSlot) (b : Buffer) (v : Bytes) : State :=
  ({ bare with keys := ks, store := ⟨[sl, SaSlot.zero], 1, 0⟩ } : State).memWrite b 0 v

/-- A new SA of (AP, STA). -/
def sa0 : SaSlot := freshSlot ⟨ap, sta⟩

/-- A WEP key entry of `n` bytes. -/
def wepEntry (n : Byte) (k : Bytes) : KeyEntry := ⟨.wep, n, 0, 0, k ++ zeros (32 - k.length), zeros 64, zeros 32⟩

/-- PSK_P, as a WPA_PMK entry. -/
def pmkEntry : KeyEntry :=
  ⟨.wpaPmk, 0, 0, 0, hex 32 0xf42c6fc52df0ebef9ebb4b90b38a5f902e83fe1b135a70e23aed762e9710a12e, zeros 64, zeros 32⟩

/-- The state after a step, for reading off its fields. -/
def after : Host.Outcome State Fault Refusal → State
  | .next t => t
  | .fault _ => bare
  | .refused _ => bare

/-- STATUS, RES0, RES1 and OUT_LEN after a command. -/
def words (i : Instr) (s : State) : List Word :=
  [(after (exec i s)).status, (after (exec i s)).res0, (after (exec i s)).res1, (after (exec i s)).outLen]

/-! ### Single steps (spec/95_test_vectors.md 2.2 to 2.6, P3, P5) -/

theorem test_initStore :
    words .initStore (withSa [] sa0 .param []) = [0x01010001, 0, 0, 0] ∧
      (after (exec .initStore (withSa [] sa0 .param []))).store = SaStore.empty 2 := by decide +kernel

theorem test_destroyStore :
    words .destroyStore (withSa [pmkEntry] sa0 .param []) = [0x02010001, 0, 0, 0] ∧
      (after (exec .destroyStore (withSa [pmkEntry] sa0 .param []))).keysNr = 0 := by decide +kernel

/-- A WEP40 record, as 2.3.2 stages it. -/
def wep40Record : Bytes := hex 13 0x02000000000000000102030405 ++ zeros 131

theorem test_setKeys :
    words (.setKeys 1) (withSa [] sa0 .keyStage wep40Record) = [0x03010001, 1, 0, 0] ∧
      (after (exec (.setKeys 1) (withSa [] sa0 .keyStage wep40Record))).keys = [wepEntry 5 (hex 5 0x0102030405)] := by
  decide +kernel

theorem test_setKeys_too_many :
    words (.setKeys 3) (withSa [pmkEntry] sa0 .param []) = [0x03010308, 0, 0, 0] ∧
      (after (exec (.setKeys 3) (withSa [pmkEntry] sa0 .param []))).keys = [pmkEntry] := by decide +kernel

theorem test_getKeys :
    words (.getKeys 64) (withSa [wepEntry 5 (hex 5 0x0102030405), pmkEntry] sa0 .param []) = [0x04010001, 2, 0, 0] ∧
      (after (exec (.getKeys 1) (withSa [wepEntry 5 (hex 5 0x0102030405)] sa0 .param []))).memRead .keyOut 0 14 =
        hex 14 0x0105000000000000010203040500 := by decide +kernel

theorem test_cleanKeys : words .cleanKeys (withSa [pmkEntry] sa0 .param []) = [0x05010001, 1, 0, 0] := by decide +kernel

theorem test_keyValidate :
    words (.keyValidate 0) (withSa [] sa0 .keyStage wep40Record) = [0x06010001, 1, 0, 0] ∧
      (after (exec (.keyValidate 0) (withSa [] sa0 .keyStage wep40Record))).memRead .result 0 13 =
        hex 13 0x01050000000000000102030405 := by decide +kernel

/-- A passphrase of 7 characters is rejected (P5 step 1). -/
theorem test_keyValidate_short_passphrase :
    words (.keyValidate 0) (withSa [] sa0 .keyStage (hex 4 0x04000701 ++ zeros 140)) = [0x0601050A, 0, 0, 0] := by
  decide +kernel

theorem test_saLookup :
    words .saLookup (withSa [] sa0 .param (ap ++ sta)) = [0x10010001, 0, 0, 0] ∧
      words .saLookup (withSa [] sa0 .param (sta ++ ap)) = [0x10010001, 0xFFFFFFFF, 0, 0] := by decide +kernel

theorem test_saAllocate :
    words .saAllocate (withSa [] sa0 .param (sta ++ ap)) = [0x11010001, 1, 0, 0] ∧
      (after (exec .saAllocate (withSa [] sa0 .param (sta ++ ap)))).store =
        ⟨[sa0, freshSlot ⟨sta, ap⟩], 2, 1⟩ := by decide +kernel

theorem test_saAllocate_duplicate :
    words .saAllocate (withSa [] sa0 .param (ap ++ sta)) = [0x11010A08, 0xFFFFFFFF, 0, 0] := by decide +kernel

/-- The released slot keeps its id (2.2). -/
theorem test_saRelease :
    words (.saRelease 0) (withSa [] sa0 .param []) = [0x12010001, 0, 0, 0] ∧
      (after (exec (.saRelease 0) (withSa [] sa0 .param []))).store =
        ⟨[{ sa0 with used := false }, SaSlot.zero], 0, -1⟩ := by decide +kernel

theorem test_saRelease_index : words (.saRelease 2) bare = [0x12010D0F, 0, 0, 0] := by decide +kernel

theorem test_saRead :
    words (.saRead 0) (withSa [] { sa0 with pn := 0x010203040506 } .param []) = [0x13010001, 121, 0, 0] ∧
      (after (exec (.saRead 0) (withSa [] { sa0 with pn := 0x010203040506 } .param []))).memRead .result 0 24 =
        hex 24 0x010000000000020000000001020000000002060504030201 := by decide +kernel

theorem test_pskDerive_lengths :
    words .pskDerive (withSa [] sa0 .param (hex 2 0x0700)) = [0x20010C0F, 0, 0, 0] ∧
      words .pskDerive (withSa [] sa0 .param (hex 2 0x0821)) = [0x20010C0F, 0, 0, 0] := by decide +kernel

/-- PARAM of P5 step 5. -/
def ptkParam : Bytes :=
  ap ++ sta ++ hex 32 0x000102030405060708090a0b0c0d0e0f101112131415161718191a1b1c1d1e1f ++
    hex 32 0x202122232425262728292a2b2c2d2e2f303132333435363738393a3b3c3d3e3f ++ pmkEntry.key

theorem test_ptkDerive :
    words .ptkDerive { withSa [] sa0 .param ptkParam with arg0 := 8 } = [0x21010001, 1, 0, 0] ∧
      (after (exec .ptkDerive { withSa [] sa0 .param ptkParam with arg0 := 8 })).memRead .result 0 1 = [0xdd] := by
  decide +kernel

theorem test_ptkDerive_lengths :
    words .ptkDerive { bare with arg0 := 520 } = [0x21010C0F, 0, 0, 0] ∧
      words .ptkDerive { bare with arg0 := 0x00010200 } = [0x21010C0F, 0, 0, 0] := by decide +kernel

/-- The MIC of no bytes at all, under HMAC-MD5 (2.4.1). -/
def micParam : Bytes := hex 32 0x000102030405060708090a0b0c0d0e0fc91e40247251f39bdfe6a7b72a5857f9

theorem test_micCheck :
    words (.micCheck 0) { withSa [] sa0 .param micParam with arg0 := 1 } = [0x22010001, 1, 0, 0] := by decide +kernel

theorem test_micCheck_mismatch :
    words (.micCheck 0) { withSa [] sa0 .param micParam with arg0 := 2 } = [0x2201020C, 0, 0, 0] := by decide +kernel

/-! ### Frames of spec/95_test_vectors.md -/

/-- P1 message 1. -/
def msg1Frame : Bytes :=
  hex 36 0x080200000200000000020200000000010200000000010000aaaa03000000888e0203005f ++ hex 13 0x02008a00100000000000000001 ++
    hex 32 0x000102030405060708090a0b0c0d0e0f101112131415161718191a1b1c1d1e1f ++ zeros 50

/-- P1 message 2. -/
def msg2Frame : Bytes :=
  hex 36 0x080100000200000000010200000000020200000000010000aaaa03000000888e02030075 ++ hex 13 0x02010a00100000000000000001 ++
    hex 32 0x202122232425262728292a2b2c2d2e2f303132333435363738393a3b3c3d3e3f ++ zeros 32 ++
    hex 40 0x46695503d1f89669442c1170f38da128001630140100000fac040100000fac040100000fac020000

/-- The PTK of P1 (2.3.4). -/
def ptkP1 : Bytes :=
  hex 64 0xddbd6993ddcef2e55f87a620a190ea20f5cc999d44a9959ee883d5bdf5e1798e7495c0aa22588288f3b758fb4318d00a8310240e8c1a370be89b91a9eb2c78cc

/-- The PTK of P4. -/
def ptkP4 : Bytes :=
  hex 64 0x2d994a33f28cd7821bd2f534deb1f18d3bc8335c3b6b2a80ff487b3d28fa4d4632baf83570291f89af74f8e567d5900278ec4a99ba5484c4bf8a708968395898

/-- A WEP frame with no data, under the key 01 02 03 04 05 (2.5). -/
def wepFrame : Bytes := hex 32 0x08420000020000000002020000000001020000000001500001020300465ba2a1

/-- A CCMP frame with no data, under the TK of P1 (2.7). -/
def ccmpFrame : Bytes := hex 40 0x08410000020000000001020000000002020000000001200002000020000000008fe93b64328cc070

/-- The TKIP frame of P4. -/
def tkipFrame : Bytes :=
  hex 72 0x084100000200000000010200000000020200000000013000002001200000000017e099c81975f10428ba5991db2031f59b2b9463be1878f28f1e5fa6793b2170b631cf81f9cb27aa

/-- The payload of the TKIP frame of P4. -/
def tkipPayload : Bytes := hex 28 0xaaaa030000000800450000140002000040000000c0a80002c0a80001

/-- The keystream of the WEP frame: its ciphertext, since the data is empty and its ICV is 0. -/
theorem wep_keystream : rc4Keystream (hex 8 0x0102030102030405) 4 = hex 4 0x465ba2a1 := by decide +kernel

theorem test_wepTry : wepTry wepFrame 24 (hex 5 0x0102030405) = .ok [] := by
  have e : slice wepFrame 24 3 ++ hex 5 0x0102030405 = hex 8 0x0102030102030405 := by decide +kernel
  have l : (wepFrame.drop 28).length = 4 := by decide +kernel
  simp only [wepTry, wepCore, rc4, e, l, wep_keystream]
  decide +kernel

/-- One changed bit of the ICV. -/
theorem test_wepTry_icv : wepTry (wepFrame.set 31 0xA0) 24 (hex 5 0x0102030405) = .error .icvMismatch := by
  have e : slice (wepFrame.set 31 0xA0) 24 3 ++ hex 5 0x0102030405 = hex 8 0x0102030102030405 := by decide +kernel
  have l : ((wepFrame.set 31 0xA0).drop 28).length = 4 := by decide +kernel
  simp only [wepTry, wepCore, rc4, e, l, wep_keystream]
  decide +kernel

/-- The RC4 seed of the TKIP frame. -/
def tkipFrameSeed : Bytes := hex 16 0x002001f8aeacc55c191832c106f2c337

theorem tkip_keystream :
    rc4Keystream tkipFrameSeed 40 =
      hex 40 0xbd4a9ac81975f9046dba5985db2231f5db2b94637eb078f04fb65fa7792a0343f264a9f692faf781 := by decide +kernel

theorem test_tkipTry : tkipTry tkipFrame 24 (slice ptkP4 32 16) = .ok tkipPayload := by
  have e : tkipSeed tkipFrame 24 (slice ptkP4 32 16) = tkipFrameSeed := by decide +kernel
  have l : (tkipFrame.drop 32).length = 40 := by decide +kernel
  simp only [tkipTry, wepCore, rc4, e, l, tkip_keystream]
  decide +kernel

theorem test_tkipTry_icv : tkipTry (tkipFrame.set 71 0xAB) 24 (slice ptkP4 32 16) = .error .icvMismatch := by
  have e : tkipSeed (tkipFrame.set 71 0xAB) 24 (slice ptkP4 32 16) = tkipFrameSeed := by decide +kernel
  have l : ((tkipFrame.set 71 0xAB).drop 32).length = 40 := by decide +kernel
  simp only [tkipTry, wepCore, rc4, e, l, tkip_keystream]
  decide +kernel

theorem test_ccmpTry : ccmpTry ccmpFrame 24 (slice ptkP1 32 16) = .ok [] := by decide +kernel

theorem test_ccmpTry_mic : ccmpTry (ccmpFrame.set 39 0x71) 24 (slice ptkP1 32 16) = .error .micMismatch := by
  decide +kernel

/-- PTK_P (2.3.4). -/
theorem test_derivePtk :
    derivePtk pmkEntry.key ap sta (slice msg1Frame 49 32) (slice msg2Frame 49 32) 512 = ptkP1 := by decide +kernel

/-- The MIC of P1 message 2 (2.4.2). -/
theorem test_micCompute :
    micCompute (slice ptkP1 0 16) (micData (msg2Frame.drop 32) 117) 2 = hex 16 0x46695503d1f89669442c1170f38da128 := by
  decide +kernel

/-- The standalone pipelines' common frame rule: too short, and an illegal HDR_LEN (2.5 to 2.7). -/
theorem test_wepDecrypt : words (.wepDecrypt false 31) { bare.memWrite .param 0 (hex 1 5) with arg0 := 32 } =
    [0x30010304, 0, 0, 0] := by decide +kernel

theorem test_tkipDecrypt : words (.tkipDecrypt true 43) { bare with arg0 := 40 } = [0x31010304, 0, 0, 0] := by decide +kernel

theorem test_ccmpDecrypt :
    words (.ccmpDecrypt false 40)
        { (withSa [] sa0 .frameIn ccmpFrame).memWrite .param 0 (slice ptkP1 32 16) with arg0 := 24 } =
      [0x32010001, 0, 0x600, 24] := by decide +kernel

/-- HDR_LEN under the header length of a QoS frame (2.7). -/
theorem test_ccmpDecrypt_header :
    words (.ccmpDecrypt false 40) { withSa [] sa0 .frameIn (ccmpFrame.set 0 0x88) with arg0 := 24 } =
      [0x32010C0F, 0, 0, 0] := by decide +kernel

theorem test_processPacket_message1 :
    words (.processPacket false false true true 131) (withSa [] sa0 .frameIn msg1Frame) = [0x40010002, 0, 0x1000, 0] := by
  decide +kernel

theorem test_processPacket_no_key :
    words (.processPacket false false false true 32) (withSa [] sa0 .frameIn wepFrame) = [0x40010708, 0, 0, 0] := by
  decide +kernel

/-! ### States that meet the hypotheses of the statements -/

/-- A decidable form of the invariant, for the slots of the table. -/
def slotsOk (s : State) : Bool :=
  (List.range s.params.saCap).all fun k =>
    decide ((s.store.slot k).bssid.length = 6 ∧ (s.store.slot k).sta.length = 6 ∧ (s.store.slot k).anonce.length = 32 ∧
        (s.store.slot k).ptk.length = 64) &&
      decide ((s.store.slot k).used = true → (k : Int) ≤ s.store.lsi) &&
      decide ((s.store.slot k).ckValid = true → (s.store.slot k).ckIndex.toNat < s.keys.length) &&
      decide ((s.store.slot k).ckValid = false → (s.store.slot k).ckIndex = 0) &&
      (List.range s.params.saCap).all fun j =>
        decide ((s.store.slot j).used = true → (s.store.slot k).used = true → (s.store.slot j).id = (s.store.slot k).id →
          j = k)

/-- A decidable form of the invariant, but for the memory. -/
def invOk (s : State) : Bool :=
  decide (1 ≤ s.params.saCap ∧ s.params.saCap ≤ 65535 ∧ 1 ≤ s.params.keysMax ∧ s.params.keysMax ≤ 64) &&
    decide (s.store.slots.length = s.params.saCap ∧ s.store.ffi ≤ s.params.saCap ∧ -1 ≤ s.store.lsi ∧
      s.store.lsi < s.params.saCap) &&
    slotsOk s && (List.range s.store.ffi).all (fun k => (s.store.slot k).used) && decide (s.keys.length ≤ s.params.keysMax) &&
    s.keys.all (fun e => decide (e.key.length = 32 ∧ e.pass.length = 64 ∧ e.ssid.length = 32) && e.lengthsLegal) &&
    decide (s.ctrl.extractLsb' 1 31 = 0 ∧ statusBusy s.status = false ∧ s.status.extractLsb' 18 6 = 0 ∧
      s.res1.extractLsb' 16 16 = 0)

theorem inv_of {s : State} (h : invOk s = true) (hm : memSound s.params s.mem) : s.Inv := by
  simp only [invOk, slotsOk, Bool.and_eq_true, decide_eq_true_eq, List.all_eq_true, List.mem_range] at h
  obtain ⟨⟨⟨⟨⟨⟨hp, hr⟩, hs⟩, hf⟩, hl⟩, hk⟩, hg⟩ := h
  have small : ∀ {k}, (s.store.slot k).used = true → k < s.params.saCap := fun hu => hr.1 ▸ SaStore.lt_of_used hu
  have zero : ∀ {k}, ¬ k < s.params.saCap → s.store.slot k = SaSlot.zero := fun hk =>
    SaStore.slot_eq_zero_of_le (by omega)
  refine ⟨hp, ⟨hr, fun k => ?_, fun k hu => (hs k (small hu)).1.1.1.2 hu,
    fun j k hj hk' he => (hs k (small hk')).2 j (small hj) hj hk' he, hf⟩, ⟨hl, fun e he => ?_⟩, fun k hc => ?_,
    fun k hc => ?_, hm, hg⟩
  · by_cases hk' : k < s.params.saCap
    · exact (hs k hk').1.1.1.1
    · rw [zero hk']
      exact SaSlot.zero_widths
  · have := hk e he
    exact ⟨this.1.1, this.1.2.1, this.1.2.2, this.2⟩
  · by_cases hk' : k < s.params.saCap
    · exact (hs k hk').1.1.2 hc
    · rw [zero hk'] at hc
      exact absurd hc (by decide)
  · by_cases hk' : k < s.params.saCap
    · exact (hs k hk').1.2 hc
    · rw [zero hk']
      rfl

theorem memSound_write (p : Params) (b : Buffer) (v : Bytes) (h : v.length ≤ b.size p) :
    memSound p (Memory.splice [] (b.base + 0) (b.base + 0) v) := by
  refine ⟨splice_wf nil_wf _ _ _, fun c hc => ⟨b, ?_⟩⟩
  rcases mem_splice hc with ⟨hn, -⟩ | hb
  · cases hn
  · simp only [Buffer.contains, decide_eq_true_eq]
    omega

theorem inv_withSa {ks : List KeyEntry} {sl : SaSlot} {b : Buffer} {v : Bytes} (h : invOk (withSa ks sl b v) = true)
    (hv : v.length ≤ b.size tiny) : (withSa ks sl b v).Inv := inv_of h (memSound_write tiny b v hv)

/-- The checks that make a frame reach slot 0. -/
def reachOk (ks : List KeyEntry) (sl : SaSlot) (F : Bytes) : Bool :=
  invOk (withSa ks sl .frameIn F) && sl.used &&
    decide (F.length ≤ 4096 ∧ frameType F = 2 ∧ 2 ≤ F.length ∧ hdrLen F ≤ F.length ∧ frameId F = some sl.id)

theorem reaches_of {ks : List KeyEntry} {sl : SaSlot} {F : Bytes} (h : reachOk ks sl F = true) :
    (withSa ks sl .frameIn F).Reaches false false F.length F 0 sl := by
  simp only [reachOk, Bool.and_eq_true, decide_eq_true_eq] at h
  obtain ⟨⟨hi, hu⟩, h1, h2, h3, h4, h5⟩ := h
  exact ⟨inv_withSa hi h1, sl.id, ⟨⟨h1, show 0 < F.length by omega, (memRead_memWrite _ .frameIn 0 F).symm⟩, h2, h3, h4, h5⟩,
    .inl ⟨show 0 < 2 by omega, hu, rfl, rfl⟩⟩

/-- The EAPOL frame behind a 24-byte header and the signature. -/
def eapolOf (F : Bytes) : Bytes := F.drop 32

/-- Its body. -/
def bodyOf (F : Bytes) : Bytes := slice (eapolOf F) 4 (be16 (eapolOf F) 2).toNat

theorem eapolKey_of {F : Bytes}
    (h : hdrLen F = 24 ∧ slice F 24 8 = eapolSignature ∧ 4 ≤ (eapolOf F).length ∧ byteAt (eapolOf F) 1 = 3 ∧
      4 + (be16 (eapolOf F) 2).toNat ≤ (eapolOf F).length) : EapolKey F (eapolOf F) (bodyOf F) := by
  obtain ⟨h1, h2, h3, h4, h5⟩ := h
  exact ⟨by rw [h1]; exact h2, by rw [h1]; rfl, h3, h4, h5, rfl⟩

/-- A cleartext EAPOL-Key frame from STA to AP with the body `K`. -/
def keyFrame (K : Bytes) : Bytes :=
  hex 34 0x080100000200000000010200000000020200000000010000aaaa03000000888e0203 ++ be16Bytes (BitVec.ofNat 16 K.length) ++ K

/-- A body of 95 bytes with the given descriptor type and Key Information, everything else 0. -/
def keyBodyOf (d hi lo : Byte) : Bytes := [d, hi, lo] ++ zeros 92

/-- The order of R123 over the keys that `fits`, as the statements write it. -/
def orderOf (fits : Nat → Bool) (n : Nat) (sl : SaSlot) : List Nat :=
  (if sl.ckValid = true ∧ fits sl.ckIndex.toNat = true then [sl.ckIndex.toNat] else []) ++ (List.range n).filter fits

/-- The WPA keys, and the WEP keys, as the statements write them. -/
def wpaIn (keys : List KeyEntry) (j : Nat) : Bool := (keys[j]?).any fun e => e.kind ∈ [.wpaPwd, .wpaPsk, .wpaPmk]
def wepIn (keys : List KeyEntry) (j : Nat) : Bool := (keys[j]?).any fun e => e.kind = .wep

theorem witness_DecodeEncodeRoundTrip : (Instr.processPacket true true true true 65535).wellFormed = true := by decide

theorem witness_EncodeDecodeRoundTrip : decodeWord 0xFFFF0040 = .ok (.processPacket false false false false 65535) := by
  decide

theorem witness_ReservedOpcodesAreIllegal : (opcField 0x00000000).toNat = 0x00 ∧ (opcField 0x41).toNat = 0x41 := by decide

theorem witness_ReservedFieldsAreIllegal :
    opcField 0x00000101 = 0x01#8 ∧ (0x00000101#32).extractLsb' 8 24 ≠ 0 ∧ opcField 0x00008003 = 0x03#8 ∧
      flagsField 0x00008003 ≠ 0 ∧ opcField 0x00000230 = 0x30#8 ∧ flagsField 0x00000230 &&& 0xFE#8 ≠ 0 ∧
      opcField 0x00001040 = 0x40#8 ∧ flagsField 0x00001040 &&& 0xF0#8 ≠ 0 ∧
      ({ bare with arg0 := 0x10000 } : State).arg0.extractLsb' 16 16 ≠ 0 ∧
      ({ bare with arg0 := 8 } : State).arg0.extractLsb' 3 29 ≠ 0 ∧
      ({ bare with arg0 := 256 } : State).arg0.extractLsb' 8 24 ≠ 0 := by decide

/-- A word that decodes, and one that does not. -/
theorem witness_StepRunsDecodedCommand :
    ({ bare with host := [.wr32 0x000 0x00000001] } : State).host = .wr32 0x000 0x00000001 :: [] ∧
      decodeWord 0x00000001 = .ok .initStore ∧
      ({ bare with host := [.wr32 0x000 0x00000041] } : State).host = .wr32 0x000 0x00000041 :: [] ∧
      decodeWord 0x00000041 = .error (.badOpcode 0x41) := by decide

theorem witness_RegisterReads :
    bare.params.minCtLen < 2 ^ 32 ∧ (0x028 % 4 = 0 ∧ 0x028 ≤ 0x028 ∧ 0x028 < 0x1000) ∧ 0xFFC % 4 = 0 ∧ 0xFFC < 0x1000 := by
  decide

theorem witness_RegisterWrites :
    (0x024 % 4 = 0 ∧ 0x024 ∈ [0x008, 0x00C, 0x010, 0x014, 0x018, 0x020, 0x024]) ∧ 0xFFC % 4 = 0 ∧ 0xFFC < 0x1000 := by
  decide

/-- The first and the last word of every buffer, with two key records. -/
theorem witness_HostWordsAreLittleEndian :
    paramsLegal tiny ∧
      (∀ a ∈ [0x1000, 0x1FFC, 0x2000, 0x2FFC, 0x3000, 0x311C, 0x6000, 0x611C, 0x9000, 0x90FC, 0x9100, 0x91FC],
        bufferOffset tiny a ∧ a % 4 = 0) ∧
      ∀ a ∈ [0x1000, 0x1FFC, 0x3000, 0x311C, 0x9000, 0x90FC], writableOffset tiny a ∧ a % 4 = 0 := by
  simp only [paramsLegal, bufferOffset, writableOffset, show tiny.saCap = 2 from rfl, show tiny.keysMax = 2 from rfl]
  decide

theorem witness_ReadOnlyAndReservedOffsets :
    (∀ b : Buffer, b.hostWritable = true → b.contains tiny 0x2000 = false) ∧
      (∀ b : Buffer, b.contains tiny 0x3120 = false) ∧ ∀ b : Buffer, b.contains tiny 0xFFFC = false := by
  refine ⟨fun b => ?_, fun b => ?_, fun b => ?_⟩ <;> cases b <;> decide

theorem witness_RefusedAccessesExactly :
    (HostAccess.rd8 0x1000).legal ∧ (HostAccess.rd8 0xFFFF).legal ∧ (HostAccess.wr32 0xFFFC 0).legal ∧
      HostAccess.reset.legal ∧ ¬ (HostAccess.rd8 0x0FFF).legal ∧ ¬ (HostAccess.wr8 0x10000 0).legal ∧
      ¬ (HostAccess.rd32 0x1002).legal ∧ ¬ (HostAccess.otherWidth 16 0x1000).legal := by
  simp [HostAccess.legal]

/-- A byte and a word at a writable offset, at read-only and at reserved ones, and the registers. -/
theorem witness_HostAccessesDoNothingElse :
    (HostAccess.rd32 0xFFC).legal ∧ (HostAccess.rd8 0xFFFF).legal ∧ paramsLegal tiny ∧
      (∀ a ∈ [0x1000, 0x1FFF, 0x3000, 0x311F, 0x9000, 0x90FF], writableOffset tiny a) ∧
      ∀ a ∈ [0x004, 0x01C, 0xFFC, 0x2000, 0x2FFC, 0x3120, 0x6000, 0x9100, 0xFFFC],
        ¬ writableOffset tiny a ∧ 0x000 < a ∧ a < 0x10000 ∧ a % 4 = 0 := by
  simp only [HostAccess.legal, paramsLegal, writableOffset, show tiny.saCap = 2 from rfl,
    show tiny.keysMax = 2 from rfl]
  decide

theorem bare_inv : (withSa [] sa0 .param (ap ++ sta)).Inv := inv_withSa (by decide +kernel) (by decide +kernel)

theorem witness_StepKeepsTheInvariant :
    (withSa [] sa0 .param (ap ++ sta)).Inv ∧ ∃ t, step (withSa [] sa0 .param (ap ++ sta)) = .next t := ⟨bare_inv, _, rfl⟩

theorem witness_PlatformResetFromAnyState : ({ bare with host := [.reset] } : State).host = .reset :: [] := rfl

/-- For every statement about a next state: each command completes somewhere. -/
theorem witness_commands_complete :
    (∃ t, runCommand 0x00000001 bare = .next t) ∧ (∃ t, exec (.getKeys 1) bare = .next t) ∧
      ∃ t, exec (.saRelease 0) (withSa [] sa0 .param []) = .next t := ⟨⟨_, rfl⟩, ⟨_, rfl⟩, ⟨_, rfl⟩⟩

theorem witness_IllegalCommandChangesNothing :
    statusOutcome (after (runCommand 0x00000041 bare)).status = 0x0F := by decide +kernel

theorem witness_KeysChangeOnlyAsAWhole :
    (Instr.setKeys 2 = .setKeys 2 ∧ 2 ≤ bare.params.keysMax) ∧ bare.params.keysMax < 3 := by decide

theorem witness_StoreChangesOnlyByItsCommands :
    Instr.getKeys 1 ∉ [Instr.initStore, .destroyStore, .cleanKeys, .saAllocate] ∧
      (∀ n, Instr.getKeys 1 = .setKeys n → bare.params.keysMax < n) ∧ (∀ k, Instr.getKeys 1 ≠ .saRelease k) ∧
      ∀ fcs rt hs dec len, Instr.getKeys 1 ≠ .processPacket fcs rt hs dec len := by
  refine ⟨by decide, ?_, ?_, ?_⟩ <;> intros <;> simp_all

theorem witness_OutLenOnlyOnDecryption :
    decodeWord 0x00280032 = .ok (.ccmpDecrypt false 40) ∧
      (after (exec (.ccmpDecrypt false 40)
        { (withSa [] sa0 .frameIn ccmpFrame).memWrite .param 0 (slice ptkP1 32 16) with arg0 := 24 })).outLen ≠ 0 := by
  refine ⟨by decide, ?_⟩
  have h := test_ccmpDecrypt
  simp only [words, List.cons.injEq, and_true] at h
  rw [h.2.2.2]
  decide

theorem witness_StoreResetEmptiesTheStore : 1 ≤ bare.params.saCap := by decide

theorem witness_SaLookupResult :
    (withSa [] sa0 .param (ap ++ sta)).Inv ∧ (sa0.used = true ∧ sa0.bssid = (withSa [] sa0 .param (ap ++ sta)).param 0 6 ∧
      sa0.sta = (withSa [] sa0 .param (ap ++ sta)).param 6 6) := ⟨bare_inv, by decide +kernel⟩

theorem witness_SaLookupResult_miss :
    (withSa [] { sa0 with used := false } .param (ap ++ sta)).store.slots.all (fun sl => !sl.used) = true := by
  decide +kernel

/-- A table with both slots used, and PARAM naming a third id. -/
def fullState : State :=
  { withSa [] sa0 .param (ap ++ ap) with store := ⟨[sa0, freshSlot ⟨sta, ap⟩], 2, 1⟩ }

theorem fullState_inv : fullState.Inv := inv_of (by decide +kernel) (memSound_write tiny .param (ap ++ ap) (by decide +kernel))

theorem used_lt_two {s : State} (hl : s.store.slots.length = 2) {P : Nat → Prop} (h0 : P 0) (h1 : P 1) (k : Nat)
    (hu : (s.store.slot k).used = true) : P k := by
  have := SaStore.lt_of_used hu
  have : k = 0 ∨ k = 1 := by omega
  rcases this with rfl | rfl
  · exact h0
  · exact h1

theorem witness_SaAllocateResult_full :
    fullState.Inv ∧ (∀ k, (fullState.store.slot k).used = true →
        ¬ ((fullState.store.slot k).bssid = fullState.param 0 6 ∧ (fullState.store.slot k).sta = fullState.param 6 6)) ∧
      ∀ k, k < fullState.params.saCap → (fullState.store.slot k).used = true := by
  refine ⟨fullState_inv, used_lt_two (by decide) (by decide +kernel) (by decide +kernel), by decide +kernel⟩

theorem witness_SaAllocateResult_free :
    (withSa [] sa0 .param (sta ++ ap)).Inv ∧
      (∀ k, ((withSa [] sa0 .param (sta ++ ap)).store.slot k).used = true →
        ¬ (((withSa [] sa0 .param (sta ++ ap)).store.slot k).bssid = (withSa [] sa0 .param (sta ++ ap)).param 0 6 ∧
          ((withSa [] sa0 .param (sta ++ ap)).store.slot k).sta = (withSa [] sa0 .param (sta ++ ap)).param 6 6)) ∧
      (withSa [] sa0 .param (sta ++ ap)).store.ffi ≤ 1 ∧ 1 < (withSa [] sa0 .param (sta ++ ap)).params.saCap ∧
      ((withSa [] sa0 .param (sta ++ ap)).store.slot 1).used = false ∧
      ∀ j, (withSa [] sa0 .param (sta ++ ap)).store.ffi ≤ j → j < 1 →
        ((withSa [] sa0 .param (sta ++ ap)).store.slot j).used = true :=
  ⟨inv_withSa (by decide +kernel) (by decide +kernel), used_lt_two (by decide) (by decide +kernel) (by decide +kernel),
    by decide, by decide, by decide +kernel, fun j h1 h2 => absurd h1 (by simp [withSa]; omega)⟩

theorem witness_SaReleaseResult :
    (withSa [] sa0 .param (ap ++ sta)).Inv ∧ 1 < (withSa [] sa0 .param (ap ++ sta)).params.saCap ∧
      (withSa [] sa0 .param (ap ++ sta)).params.saCap ≤ 2 := ⟨bare_inv, by decide, by decide⟩

theorem witness_ReleasedIdIsNotFound :
    (withSa [] sa0 .param (ap ++ sta)).Inv ∧ ((withSa [] sa0 .param (ap ++ sta)).store.slot 0).used = true :=
  ⟨bare_inv, rfl⟩

theorem witness_ReleasedIdIsNotFound_back :
    (withSa [] sa0 .param (sta ++ ap)).store.lookup ⟨sta, ap⟩ = none ∧
      (after (exec .saAllocate (withSa [] sa0 .param (sta ++ ap)))).store.lookup ⟨sta, ap⟩ = some 1 := by decide +kernel

theorem witness_KeyValidateResult :
    0 < (withSa [] sa0 .keyStage wep40Record).params.keysMax ∧
      validate ((withSa [] sa0 .keyStage wep40Record).stageRec 0) = some (wepEntry 5 (hex 5 0x0102030405)) ∧
      validate ((withSa [] sa0 .keyStage (zeros 144)).stageRec 0) = none := by decide +kernel

theorem witness_ValidationFollowsTheTable :
    wep40Record.length = 144 ∧ validate wep40Record = some (wepEntry 5 (hex 5 0x0102030405)) := by decide +kernel

theorem witness_GetKeysResult :
    (withSa [pmkEntry] sa0 .param []).Inv ∧ (withSa [pmkEntry] sa0 .param []).keys[0]? = some pmkEntry ∧ 0 < 1 :=
  ⟨inv_withSa (by decide +kernel) (by decide +kernel), by decide +kernel, by decide⟩

theorem witness_PskDeriveResult :
    8 ≤ ((withSa [] sa0 .param (hex 2 0x0820)).readByte 0x9000).toNat ∧
      ((withSa [] sa0 .param (hex 2 0x0820)).readByte 0x9001).toNat ≤ 32 ∧
      ¬ 8 ≤ ((withSa [] sa0 .param (hex 2 0x0700)).readByte 0x9000).toNat := by decide +kernel

theorem witness_PtkDeriveResult :
    ({ bare with arg0 := 512 } : State).arg0.extractLsb' 16 16 = 0 ∧
      (({ bare with arg0 := 512 } : State).arg0.extractLsb' 0 16).toNat = 512 ∧
      ({ bare with arg0 := 520 } : State).arg0.extractLsb' 16 16 = 0 := by decide

theorem witness_PtkSymmetryAndPrefix : ap.length = 6 ∧ sta.length = 6 ∧ (zeros 32).length = 32 ∧ 8 % 8 = 0 ∧ 8 ≤ 512 := by
  decide

theorem witness_MicCheckResult :
    ({ withSa [] sa0 .param micParam with arg0 := 1 } : State).arg0.extractLsb' 3 29 = 0 ∧
      hmacMd5 ((withSa [] sa0 .param micParam).memRead .param 0 16) [] = (withSa [] sa0 .param micParam).memRead .param 16 16 ∧
      slice (hmacSha1 ((withSa [] sa0 .param micParam).memRead .param 0 16) []) 0 16 ≠
        (withSa [] sa0 .param micParam).memRead .param 16 16 := by decide +kernel

/-! #### The handshake -/

theorem witness_HandshakeMessage1 :
    (withSa [] sa0 .frameIn msg1Frame).Reaches false false msg1Frame.length msg1Frame 0 sa0 ∧
      frameProtected msg1Frame = false ∧ EapolKey msg1Frame (eapolOf msg1Frame) (bodyOf msg1Frame) ∧
      PairwiseBody (bodyOf msg1Frame) ∧ kiInstall (keyInfo (bodyOf msg1Frame)) = false ∧
      kiAck (keyInfo (bodyOf msg1Frame)) = true ∧ kiMic (keyInfo (bodyOf msg1Frame)) = false :=
  ⟨reaches_of (by decide +kernel), by decide +kernel, eapolKey_of (by decide +kernel),
    ⟨by decide +kernel, by decide +kernel, by decide +kernel⟩, by decide +kernel⟩

/-- The slot before message 2. -/
def sa1 : SaSlot := { sa0 with anonce := slice msg1Frame 49 32, keyVer := 2, stage := .msg1 }

theorem message2_mic :
    micCompute (slice (derivePtk (pmkOf [pmkEntry] 0) sa1.bssid sa1.sta sa1.anonce (slice (bodyOf msg2Frame) 13 32) 512) 0 16)
        (slice (eapolOf msg2Frame) 0 81 ++ zeros 16 ++ slice (eapolOf msg2Frame) 97 ((bodyOf msg2Frame).length - 93))
        ((keyInfo (bodyOf msg2Frame)).extractLsb' 0 3) = hex 16 0x46695503d1f89669442c1170f38da128 := by
  rw [show pmkOf [pmkEntry] 0 = pmkEntry.key by decide +kernel, show sa1.bssid = ap from rfl, show sa1.sta = sta from rfl,
    show sa1.anonce = slice msg1Frame 49 32 from rfl,
    show slice (bodyOf msg2Frame) 13 32 = slice msg2Frame 49 32 by decide +kernel, test_derivePtk,
    show (bodyOf msg2Frame).length = 117 by decide +kernel,
    show (keyInfo (bodyOf msg2Frame)).extractLsb' 0 3 = 2 by decide +kernel]
  exact test_micCompute

theorem witness_HandshakeMessage2Verified :
    (withSa [pmkEntry] sa1 .frameIn msg2Frame).Reaches false false msg2Frame.length msg2Frame 0 sa1 ∧
      frameProtected msg2Frame = false ∧ EapolKey msg2Frame (eapolOf msg2Frame) (bodyOf msg2Frame) ∧
      PairwiseBody (bodyOf msg2Frame) ∧
      (kiInstall (keyInfo (bodyOf msg2Frame)) = false ∧ kiAck (keyInfo (bodyOf msg2Frame)) = false ∧
        kiMic (keyInfo (bodyOf msg2Frame)) = true ∧ kiSecure (keyInfo (bodyOf msg2Frame)) = false ∧
        (be16 (bodyOf msg2Frame) 93).toNat ≠ 0 ∧ orderOf (wpaIn [pmkEntry]) 1 sa1 = [] ++ 0 :: []) ∧
      micCompute (slice (derivePtk (pmkOf [pmkEntry] 0) sa1.bssid sa1.sta sa1.anonce (slice (bodyOf msg2Frame) 13 32) 512) 0 16)
          (slice (eapolOf msg2Frame) 0 81 ++ zeros 16 ++ slice (eapolOf msg2Frame) 97 ((bodyOf msg2Frame).length - 93))
          ((keyInfo (bodyOf msg2Frame)).extractLsb' 0 3) = slice (bodyOf msg2Frame) 77 16 :=
  ⟨reaches_of (by decide +kernel), by decide +kernel, eapolKey_of (by decide +kernel),
    ⟨by decide +kernel, by decide +kernel, by decide +kernel⟩, by decide +kernel,
    message2_mic.trans (by decide +kernel)⟩

/-- The same frame with another MIC: no candidate verifies it. -/
theorem witness_HandshakeRejections_mic :
    (withSa [pmkEntry] sa1 .frameIn (msg2Frame.set 113 0)).Reaches false false (msg2Frame.set 113 0).length
        (msg2Frame.set 113 0) 0 sa1 ∧
      EapolKey (msg2Frame.set 113 0) (eapolOf (msg2Frame.set 113 0)) (bodyOf (msg2Frame.set 113 0)) ∧
      PairwiseBody (bodyOf (msg2Frame.set 113 0)) ∧ orderOf (wpaIn [pmkEntry]) 1 sa1 = [0] ∧
      micCompute (slice (derivePtk (pmkOf [pmkEntry] 0) sa1.bssid sa1.sta sa1.anonce
          (slice (bodyOf (msg2Frame.set 113 0)) 13 32) 512) 0 16)
          (slice (eapolOf (msg2Frame.set 113 0)) 0 81 ++ zeros 16 ++
            slice (eapolOf (msg2Frame.set 113 0)) 97 ((bodyOf (msg2Frame.set 113 0)).length - 93))
          ((keyInfo (bodyOf (msg2Frame.set 113 0))).extractLsb' 0 3) ≠ slice (bodyOf (msg2Frame.set 113 0)) 77 16 := by
  refine ⟨reaches_of (by decide +kernel), eapolKey_of (by decide +kernel),
    ⟨by decide +kernel, by decide +kernel, by decide +kernel⟩, by decide +kernel, ?_⟩
  rw [show slice (bodyOf (msg2Frame.set 113 0)) 13 32 = slice (bodyOf msg2Frame) 13 32 by decide +kernel,
    show slice (eapolOf (msg2Frame.set 113 0)) 0 81 = slice (eapolOf msg2Frame) 0 81 by decide +kernel,
    show slice (eapolOf (msg2Frame.set 113 0)) 97 ((bodyOf (msg2Frame.set 113 0)).length - 93) =
      slice (eapolOf msg2Frame) 97 ((bodyOf msg2Frame).length - 93) by decide +kernel,
    show keyInfo (bodyOf (msg2Frame.set 113 0)) = keyInfo (bodyOf msg2Frame) by decide +kernel, message2_mic]
  decide +kernel

/-- The cleartext frame of the body `K` reaches slot 0 with an EAPOL-Key body, and `P` holds of the body. -/
def keyFrameOk (K : Bytes) (P : Bytes → Bool) : Bool :=
  reachOk [] sa0 (keyFrame K) && !frameProtected (keyFrame K) &&
    decide (hdrLen (keyFrame K) = 24 ∧ slice (keyFrame K) 24 8 = eapolSignature ∧ 4 ≤ (eapolOf (keyFrame K)).length ∧
      byteAt (eapolOf (keyFrame K)) 1 = 3 ∧ 4 + (be16 (eapolOf (keyFrame K)) 2).toNat ≤ (eapolOf (keyFrame K)).length) &&
    P (bodyOf (keyFrame K))

theorem keyFrame_reaches {K : Bytes} {P : Bytes → Bool} (h : keyFrameOk K P = true) :
    (withSa [] sa0 .frameIn (keyFrame K)).Reaches false false (keyFrame K).length (keyFrame K) 0 sa0 ∧
      frameProtected (keyFrame K) = false ∧ EapolKey (keyFrame K) (eapolOf (keyFrame K)) (bodyOf (keyFrame K)) ∧
      P (bodyOf (keyFrame K)) = true := by
  simp only [keyFrameOk, Bool.and_eq_true, Bool.not_eq_true', decide_eq_true_eq] at h
  exact ⟨reaches_of h.1.1.1, h.1.1.2, eapolKey_of h.1.2, h.2⟩

/-- A pairwise body of the four bits INSTALL, ACK, MIC and SECURE. -/
def bitsOk (install ack mic secure : Bool) (K : Bytes) : Bool :=
  decide (95 ≤ K.length) && byteAt K 0 == 2 && kiPairwise (keyInfo K) && kiInstall (keyInfo K) == install &&
    kiAck (keyInfo K) == ack && kiMic (keyInfo K) == mic && kiSecure (keyInfo K) == secure

/-- Message 3, and both forms of message 4. -/
theorem witness_HandshakeMessages3And4 :
    keyFrameOk (keyBodyOf 2 0x13 0xCA) (bitsOk true true true true) = true ∧
      keyFrameOk (keyBodyOf 2 0x03 0x0A) (bitsOk false false true true) = true ∧
      keyFrameOk (keyBodyOf 2 0x01 0x0A) (bitsOk false false true false) = true := by decide +kernel

/-- A body of 94 bytes, a descriptor type 3, a group message, the three shapes of row 6, and a message 2 with no key. -/
theorem witness_HandshakeRejections :
    keyFrameOk ((keyBodyOf 2 0 0x8A).take 94) (fun K => decide (K.length = 94)) = true ∧
      keyFrameOk (keyBodyOf 3 0 0x8A) (fun K => byteAt K 0 == 3) = true ∧
      keyFrameOk (keyBodyOf 2 0 0x82) (fun K => !kiPairwise (keyInfo K)) = true ∧
      keyFrameOk (keyBodyOf 2 0 0xCA) (bitsOk true true false false) = true ∧
      keyFrameOk (keyBodyOf 2 0 0x0A) (bitsOk false false false false) = true ∧
      keyFrameOk (keyBodyOf 2 0x01 0x4A) (bitsOk true false true false) = true ∧
      keyFrameOk ((keyBodyOf 2 0x01 0x0A).set 94 1) (bitsOk false false true false) = true ∧
      orderOf (wpaIn []) 0 sa0 = [] := by decide +kernel

theorem witness_SessionKeysComeFromTheHandshake :
    (withSa [] sa0 .frameIn (keyFrame (keyBodyOf 2 0x03 0x0A))).store.slots.all (fun sl => !sl.validKey) = true ∧
      ((after (exec (.processPacket false false true false 131)
        (withSa [] sa0 .frameIn (keyFrame (keyBodyOf 2 0x03 0x0A))))).store.slot 0).validKey = true := by decide +kernel

/-! #### The pipelines and the packet processor -/

theorem witness_WepAndTkipRoundTrip :
    (hex 3 0x010203).length = 3 ∧ 1 ≤ (hex 5 0x0102030405).length ∧ (hex 5 0x0102030405).length ≤ 32 ∧
      24 ≤ (tkipFrame.take 24).length ∧ (zeros 8).length = 8 ∧ (zeros 16).length = 16 := by decide +kernel

theorem witness_CcmpRoundTrip :
    hdrLen (ccmpFrame.take 24) ≤ (ccmpFrame.take 24).length ∧ (slice ccmpFrame 24 8).length = 8 ∧
      (slice ptkP1 32 16).length = 16 := by decide +kernel

/-- The WEP frame is an encrypted frame, and the index of its last byte is in range. -/
theorem witness_WepChangedByteFails :
    wepEncrypt (wepFrame.take 24) (hex 3 0x010203) (hex 5 0x0102030405) [] 0 = wepFrame ∧
      (wepFrame.take 24).length + 4 ≤ 31 ∧ 31 < wepFrame.length ∧ byteAt wepFrame 31 ≠ 0xA0 := by
  refine ⟨?_, by decide +kernel⟩
  have e : hex 3 0x010203 ++ hex 5 0x0102030405 = hex 8 0x0102030102030405 := by decide +kernel
  have l : ([] ++ le32Bytes (crc32 [])).length = 4 := rfl
  simp only [wepEncrypt, rc4, e, l, wep_keystream]
  decide +kernel

theorem witness_OutputFrameContents : 2 ≤ 24 ∧ 24 ≤ ccmpFrame.length := by decide +kernel

/-- `F` in FRAME_IN, `P` in PARAM and HDR_LEN 24: the hypotheses of a standalone pipeline command on `F`. -/
def pipelineOk (F P : Bytes) : Bool :=
  let s : State := { (withSa [] sa0 .frameIn F).memWrite .param 0 P with arg0 := 24 }
  decide (s.arg0.extractLsb' 8 24 = 0 ∧ (s.arg0.extractLsb' 0 8).toNat = 24 ∧ F.length ≤ 4096 ∧ 24 ≤ F.length ∧
    s.memRead .frameIn 0 F.length = F ∧ s.memRead .param 0 P.length = P ∧ (s.readByte 0x9000) = byteAt P 0)

/-- The three frames with the keys that decrypt them. -/
theorem witness_DecryptCommandsSucceed :
    (pipelineOk wepFrame (hex 6 0x050102030405) = true ∧ pipelineOk tkipFrame (slice ptkP4 32 16) = true ∧
        pipelineOk ccmpFrame (slice ptkP1 32 16) = true ∧ hdrLen ccmpFrame ≤ 24) ∧
      wepTry wepFrame 24 (hex 5 0x0102030405) = .ok [] ∧ tkipTry tkipFrame 24 (slice ptkP4 32 16) = .ok tkipPayload ∧
      ccmpTry ccmpFrame 24 (slice ptkP1 32 16) = .ok [] :=
  ⟨by decide +kernel, test_wepTry, test_tkipTry, test_ccmpTry⟩

/-- The failures of the three pipelines; the illegal operands are those of the single-step tests. -/
theorem witness_DecryptCommandsFail :
    wepTry (wepFrame.set 31 0xA0) 24 (hex 5 0x0102030405) = .error .icvMismatch ∧
      wepTry (wepFrame.take 31) 24 (hex 5 0x0102030405) = .error .wrongDataSize ∧
      tkipTry (tkipFrame.set 71 0xAB) 24 (slice ptkP4 32 16) = .error .icvMismatch ∧
      tkipTry (tkipFrame.take 43) 24 (slice ptkP4 32 16) = .error .wrongDataSize ∧
      ccmpTry (ccmpFrame.set 39 0x71) 24 (slice ptkP1 32 16) = .error .micMismatch ∧
      ccmpTry (ccmpFrame.take 39) 24 (slice ptkP1 32 16) = .error .wrongDataSize ∧ 24 < hdrLen (ccmpFrame.set 0 0x88) :=
  ⟨test_wepTry_icv, by decide +kernel, test_tkipTry_icv, by decide +kernel, test_ccmpTry_mic, by decide +kernel,
    by decide +kernel⟩

/-- A frame of a third id, DS = 1, and a full table. -/
theorem witness_PacketsStoppedBeforeTheSa :
    (({ fullState with mem := [] } : State).memWrite .frameIn 0 (ccmpFrame.set 15 1)).Inv ∧
      (({ fullState with mem := [] } : State).memWrite .frameIn 0 (ccmpFrame.set 15 1)).DataFrame false false 40
        (ccmpFrame.set 15 1) ⟨ap, ap⟩ ∧
      (∀ k, (fullState.store.slot k).used = true → (fullState.store.slot k).id ≠ ⟨ap, ap⟩) ∧
      ∀ k, k < fullState.params.saCap → (fullState.store.slot k).used = true :=
  ⟨inv_of (by decide +kernel) (memSound_write tiny .frameIn (ccmpFrame.set 15 1) (by decide +kernel)),
    ⟨⟨by decide, by decide, (memRead_memWrite _ .frameIn 0 (ccmpFrame.set 15 1)).symm⟩, by decide +kernel, by decide +kernel,
      by decide +kernel, by decide +kernel⟩,
    used_lt_two (by decide) (by decide +kernel) (by decide +kernel), by decide +kernel⟩

/-- One frame for each earlier stop: a beacon, a frame of one byte, of 23 bytes, and a frame with four addresses. -/
theorem witness_PacketsStoppedBeforeTheSa_frames :
    frameType (ccmpFrame.set 0 0x80) ≠ 2 ∧ frameType (ccmpFrame.take 1) = 2 ∧ (ccmpFrame.take 1).length < 2 ∧
      (ccmpFrame.take 23).length < hdrLen (ccmpFrame.take 23) ∧ frameDs (ccmpFrame.set 1 0x43) = 3 ∧
      hdrLen (ccmpFrame.set 1 0x43) ≤ (ccmpFrame.set 1 0x43).length := by decide +kernel

theorem witness_CleartextPacketsWithoutHandshake :
    (withSa [] sa0 .frameIn (ccmpFrame.set 1 0x01)).Reaches false false 40 (ccmpFrame.set 1 0x01) 0 sa0 ∧
      frameProtected (ccmpFrame.set 1 0x01) = false ∧ ¬ ∃ E K, EapolKey (ccmpFrame.set 1 0x01) E K :=
  ⟨reaches_of (ks := []) (sl := sa0) (F := ccmpFrame.set 1 0x01) (by decide +kernel), by decide +kernel,
    fun ⟨_, _, h⟩ => absurd h.signature (by decide +kernel)⟩

/-- A slot that a first message allocates: slot 0 is free, and so is the id. -/
theorem witness_Reaches_fresh :
    ({ bare with mem := cellsFrom 0x1000 msg1Frame } : State).store.saFor 2 ⟨ap, sta⟩ 0 (freshSlot ⟨ap, sta⟩) := by
  refine .inr ⟨fun j hu => absurd (SaStore.slot_empty 2 j ▸ hu) (by decide), by decide, by decide, fun j h1 h2 => ?_, by decide, rfl⟩
  omega

theorem witness_WepPacketDecrypts :
    (withSa [wepEntry 5 (hex 5 0x0102030405)] sa0 .frameIn wepFrame).Reaches false false 32 wepFrame 0 sa0 ∧
      frameProtected wepFrame = true ∧ hdrLen wepFrame + 4 ≤ wepFrame.length ∧ extIv wepFrame (hdrLen wepFrame) = false ∧
      orderOf (wepIn [wepEntry 5 (hex 5 0x0102030405)]) 1 sa0 = [] ++ 0 :: [] ∧
      wepTry wepFrame (hdrLen wepFrame) (wepKeyOf [wepEntry 5 (hex 5 0x0102030405)] 0) = .ok [] := by
  refine ⟨reaches_of (sl := sa0) (F := wepFrame) (by decide +kernel), by decide +kernel, by decide +kernel, by decide +kernel,
    by decide +kernel, ?_⟩
  rw [show hdrLen wepFrame = 24 by decide +kernel,
    show wepKeyOf [wepEntry 5 (hex 5 0x0102030405)] 0 = hex 5 0x0102030405 by decide +kernel]
  exact test_wepTry

/-- Two WEP keys that both verify, the second cached: it is tried first. -/
theorem witness_WepPacketDecrypts_cached :
    (withSa [wepEntry 5 (hex 5 0x0102030405), wepEntry 5 (hex 5 0x0102030405)] { sa0 with ckValid := true, ckIndex := 1 }
        .frameIn wepFrame).Reaches false false 32 wepFrame 0 { sa0 with ckValid := true, ckIndex := 1 } ∧
      orderOf (wepIn [wepEntry 5 (hex 5 0x0102030405), wepEntry 5 (hex 5 0x0102030405)]) 2
          { sa0 with ckValid := true, ckIndex := 1 } = [] ++ 1 :: [0, 1] ∧
      wepTry wepFrame 24 (wepKeyOf [wepEntry 5 (hex 5 0x0102030405), wepEntry 5 (hex 5 0x0102030405)] 1) = .ok [] := by
  refine ⟨reaches_of (sl := { sa0 with ckValid := true, ckIndex := 1 }) (F := wepFrame) (by decide +kernel),
    by decide +kernel, ?_⟩
  rw [show wepKeyOf [wepEntry 5 (hex 5 0x0102030405), wepEntry 5 (hex 5 0x0102030405)] 1 = hex 5 0x0102030405 by
    decide +kernel]
  exact test_wepTry

/-- The slot after a handshake, with a PTK and a key version. -/
def sa4 (ptk : Bytes) (ver : BitVec 3) : SaSlot :=
  { sa0 with ckValid := true, validKey := true, stage := .msg4, keyVer := ver, ptk := ptk }

theorem witness_RsnaPacketDecrypts_tkip :
    (withSa [pmkEntry] (sa4 ptkP4 1) .frameIn tkipFrame).Reaches false false 72 tkipFrame 0 (sa4 ptkP4 1) ∧
      frameProtected tkipFrame = true ∧ hdrLen tkipFrame + 4 ≤ tkipFrame.length ∧
      extIv tkipFrame (hdrLen tkipFrame) = true ∧
      tkipTry tkipFrame (hdrLen tkipFrame) (slice (sa4 ptkP4 1).ptk 32 16) = .ok tkipPayload := by
  refine ⟨reaches_of (sl := sa4 ptkP4 1) (F := tkipFrame) (by decide +kernel), by decide +kernel, by decide +kernel,
    by decide +kernel, ?_⟩
  rw [show hdrLen tkipFrame = 24 by decide +kernel]
  exact test_tkipTry

/-- CCMP, with the replay check off and on; and a replayed packet number. -/
theorem witness_RsnaPacketDecrypts_ccmp :
    (withSa [pmkEntry] (sa4 ptkP1 2) .frameIn ccmpFrame).Reaches false false 40 ccmpFrame 0 (sa4 ptkP1 2) ∧
      frameProtected ccmpFrame = true ∧ hdrLen ccmpFrame + 4 ≤ ccmpFrame.length ∧
      extIv ccmpFrame (hdrLen ccmpFrame) = true ∧
      ccmpTry ccmpFrame (hdrLen ccmpFrame) (slice (sa4 ptkP1 2).ptk 32 16) = .ok [] ∧
      (withSa [pmkEntry] (sa4 ptkP1 2) .frameIn ccmpFrame).replayEn = false ∧
      ({ withSa [pmkEntry] (sa4 ptkP1 2) .frameIn ccmpFrame with ctrl := 1 } : State).replayEn = true ∧
      (sa4 ptkP1 2).pnValid = false ∧ (ccmpPn ccmpFrame (hdrLen ccmpFrame)).toNat ≤ 2 := by
  refine ⟨reaches_of (sl := sa4 ptkP1 2) (F := ccmpFrame) (by decide +kernel), by decide +kernel, by decide +kernel,
    by decide +kernel, ?_, by decide +kernel⟩
  rw [show hdrLen ccmpFrame = 24 by decide +kernel]
  exact test_ccmpTry

/-- The failures that end before a pipeline runs: no data after the header, no WEP key, no cached key, no valid key. -/
theorem witness_ProtectedPacketFailures :
    reachOk [] sa0 (ccmpFrame.take 27) = true ∧ frameProtected (ccmpFrame.take 27) = true ∧
      (ccmpFrame.take 27).length < hdrLen (ccmpFrame.take 27) + 4 ∧ reachOk [] sa0 wepFrame = true ∧
      orderOf (wepIn []) 0 sa0 = [] ∧ reachOk [] sa0 ccmpFrame = true ∧ sa0.ckValid = false ∧
      reachOk [pmkEntry] { sa4 ptkP1 2 with validKey := false } ccmpFrame = true := by decide +kernel

/-- The failures of the pipelines: the frames of `witness_DecryptCommandsFail` reach the same slots. -/
theorem witness_ProtectedPacketFailures_pipelines :
    reachOk [wepEntry 5 (hex 5 0x0102030405)] sa0 (wepFrame.set 31 0xA0) = true ∧
      orderOf (wepIn [wepEntry 5 (hex 5 0x0102030405)]) 1 sa0 = [] ++ [0] ∧
      reachOk [pmkEntry] (sa4 ptkP4 1) (tkipFrame.set 71 0xAB) = true ∧
      reachOk [pmkEntry] (sa4 ptkP1 2) (ccmpFrame.set 39 0x71) = true ∧
      reachOk [pmkEntry] { sa4 ptkP1 2 with pn := 2, pnValid := true } ccmpFrame = true ∧
      (ccmpPn ccmpFrame 24).toNat ≤ (2#48).toNat := by decide +kernel

/-- A data frame whose id slot 0 holds, one whose id no slot holds, with every slot used, and no data frame at all. -/
theorem witness_PacketTouchesOneSlot :
    (∃ id, (withSa [] sa0 .frameIn ccmpFrame).DataFrame false false 40 ccmpFrame id ∧
        (withSa [] sa0 .frameIn ccmpFrame).store.lookupOrAllocate 2 id = some (0, (withSa [] sa0 .frameIn ccmpFrame).store)) ∧
      ((({ fullState with mem := [] } : State).memWrite .frameIn 0 (ccmpFrame.set 15 1)).DataFrame false false 40
          (ccmpFrame.set 15 1) ⟨ap, ap⟩ ∧
        fullState.store.lookupOrAllocate 2 ⟨ap, ap⟩ = none) ∧
      ∀ F id, ¬ bare.DataFrame false false 0 F id := by
  have h := reaches_of (ks := []) (sl := sa0) (F := ccmpFrame) (by decide +kernel)
  obtain ⟨id, hd, -⟩ := h.frame
  refine ⟨⟨id, hd, ?_⟩, ⟨witness_PacketsStoppedBeforeTheSa.2.1, by decide +kernel⟩, fun F id h => ?_⟩
  · have hid : id = sa0.id := Option.some.inj (hd.ident.symm.trans (by decide +kernel))
    subst hid
    decide +kernel
  · exact absurd h.views.nonempty (by decide)

end Sys2Proof.Tests
end

/-! The state after reset (spec/00_scope.md R5, spec/70_reset_and_hazards.md R212). -/

namespace Sys2Proof.Machine

/-- The table has the SA_CAP = 256 slots of this hardware (R5, log 7). -/
theorem State.reset_store : State.reset.store = SaStore.empty 256 := rfl

/-- In the store after reset every slot is the zero slot; an index past the table reads it too (log 18). -/
theorem State.reset_slot (k : Nat) : State.reset.store.slot k = SaSlot.zero := by
  rw [State.reset_store, SaStore.slot_empty]

theorem State.reset_keysNr : State.reset.keysNr = 0 := rfl

/-- Settles O13: the registers are read off `State.reset`, the store's part is that of an empty store of 256 slots. -/
theorem resetValues : Obligations.ResetValues := by
  have hslots : State.reset.store.slots.length = 256 := by rw [State.reset_store, SaStore.empty_length]
  have hffi : State.reset.store.ffi = 0 := by rw [State.reset_store, SaStore.empty_ffi]
  have hlsi : State.reset.store.lsi = -1 := by rw [State.reset_store, SaStore.empty_lsi]
  exact ⟨rfl, rfl, rfl, rfl, rfl, rfl, rfl, hslots, State.reset_slot, hffi, hlsi, State.reset_keysNr, rfl⟩

end Sys2Proof.Machine

/-! The SA store's soundness (R40) through each operation that changes the store. -/

namespace Sys2Proof.Machine

/-- A slot of a table in which slot `k` was replaced: the new contents, or what was there. -/
theorem SaStore.slot_set_cases (st : SaStore) (k j : Nat) (sl : SaSlot) (ffi : Nat) (lsi : Int) :
    (j = k ∧ SaStore.slot ⟨st.slots.set k sl, ffi, lsi⟩ j = sl) ∨
      SaStore.slot ⟨st.slots.set k sl, ffi, lsi⟩ j = st.slot j := by
  by_cases hj : j = k
  · subst hj
    by_cases hlen : j < st.slots.length
    · exact .inl ⟨rfl, SaStore.slot_set_same hlen _ _ _⟩
    · refine .inr ?_
      rw [SaStore.slot_eq_zero_of_le (by simpa using hlen), SaStore.slot_eq_zero_of_le (by omega)]
  · exact .inr (SaStore.slot_set_other st hj _ _ _)

/-- What holds of every slot and of the new contents holds of every slot afterwards. -/
theorem SaStore.forall_slot_set {P : SaSlot → Prop} {st : SaStore} {k : Nat} {sl : SaSlot} (hst : ∀ j, P (st.slot j))
    (hsl : P sl) (ffi : Nat) (lsi : Int) (j : Nat) : P (SaStore.slot ⟨st.slots.set k sl, ffi, lsi⟩ j) := by
  rcases st.slot_set_cases k j sl ffi lsi with ⟨-, e⟩ | e
  · rwa [e]
  · rw [e]
    exact hst j

theorem SaStore.forall_slot_setSlot (P : SaSlot → Prop) {st : SaStore} {k : Nat} {sl : SaSlot}
    (hst : ∀ j, P (st.slot j)) (hsl : P sl) (j : Nat) : P ((st.setSlot k sl).slot j) :=
  SaStore.forall_slot_set hst hsl _ _ j

theorem SaStore.forall_slot_release (P : SaSlot → Prop) {st : SaStore} {k : Nat} (hst : ∀ j, P (st.slot j))
    (hsl : P { st.slot k with used := false }) (j : Nat) : P ((st.release k).slot j) :=
  SaStore.forall_slot_set hst hsl _ _ j

theorem SaStore.empty_sound (cap : Nat) : (SaStore.empty cap).Sound cap where
  inRange := ⟨SaStore.empty_length cap, Nat.zero_le cap, Int.le_refl _, by rw [SaStore.empty_lsi]; omega⟩
  widths k := by
    rw [SaStore.slot_empty]
    exact SaSlot.zero_widths
  usedBelowLsi k h := by simp at h
  idsDistinct j k h := by simp at h
  usedBelowFfi k h := absurd h (Nat.not_lt_zero k)

/-- New contents with the same USED and the same id keep the store sound. -/
theorem SaStore.Sound.setSlot {st : SaStore} {cap : Nat} (hs : st.Sound cap) {k : Nat} {sl : SaSlot}
    (hw : sl.widths) (hu : sl.used = (st.slot k).used) (hid : sl.id = (st.slot k).id) : (st.setSlot k sl).Sound cap := by
  have hused (j : Nat) : ((st.setSlot k sl).slot j).used = (st.slot j).used := by
    rcases st.slot_set_cases k j sl st.ffi st.lsi with ⟨rfl, e⟩ | e
    · exact (congrArg SaSlot.used e).trans hu
    · exact congrArg SaSlot.used e
  have hids (j : Nat) : ((st.setSlot k sl).slot j).id = (st.slot j).id := by
    rcases st.slot_set_cases k j sl st.ffi st.lsi with ⟨rfl, e⟩ | e
    · exact (congrArg SaSlot.id e).trans hid
    · exact congrArg SaSlot.id e
  exact
    { inRange := by
        obtain ⟨hlen, hffi, hlow, hhigh⟩ := hs.inRange
        exact ⟨by simpa using hlen, hffi, hlow, hhigh⟩
      widths := SaStore.forall_slot_setSlot SaSlot.widths hs.widths hw
      usedBelowLsi := fun j h => hs.usedBelowLsi j (hused j ▸ h)
      idsDistinct := fun i j hi hj h => hs.idsDistinct i j (hused i ▸ hi) (hused j ▸ hj) (by rwa [hids, hids] at h)
      usedBelowFfi := fun j h => (hused j).trans (hs.usedBelowFfi j h) }

/-- An allocation of an id that no used slot holds, in the first free slot from FFI on, keeps the store sound (R104). -/
theorem SaStore.Sound.insert {st : SaStore} {cap : Nat} (hs : st.Sound cap) {id : SaId} {k : Nat}
    (hb : id.bssid.length = 6) (hsta : id.sta.length = 6) (hnew : ∀ j, (st.slot j).used = true → (st.slot j).id ≠ id)
    (hk : k < cap) (hall : ∀ j, st.ffi ≤ j → j < k → (st.slot j).used = true) :
    SaStore.Sound ⟨st.slots.set k (freshSlot id), k + 1, max st.lsi k⟩ cap := by
  obtain ⟨hlen, hffi, hlow, hhigh⟩ := hs.inRange
  have hcases (j : Nat) := st.slot_set_cases k j (freshSlot id) (k + 1) (max st.lsi k)
  have same := SaStore.slot_set_same (hlen ▸ hk) (freshSlot id) (k + 1) (max st.lsi k)
  constructor
  case inRange => exact ⟨by simpa using hlen, hk, by simp only; omega, by simp only; omega⟩
  case widths => exact SaStore.forall_slot_set hs.widths (freshSlot_widths hb hsta) _ _
  case usedBelowLsi =>
    intro j hj
    rcases hcases j with ⟨rfl, -⟩ | e
    · exact le_max_right _ _
    · exact le_max_of_le_left (hs.usedBelowLsi j (e ▸ hj))
  case idsDistinct =>
    intro i j hi hj h
    rcases hcases i with ⟨rfl, ei⟩ | ei <;> rcases hcases j with ⟨rfl, ej⟩ | ej <;> rw [ei] at hi h <;> rw [ej] at hj h
    · exact absurd h.symm (hnew j hj)
    · exact absurd h (hnew i hi)
    · exact hs.idsDistinct i j hi hj h
  case usedBelowFfi =>
    intro j hj
    by_cases hjk : j = k
    · rw [hjk, same, freshSlot_used]
    · rw [SaStore.slot_set_other st hjk]
      by_cases hf : j < st.ffi
      · exact hs.usedBelowFfi j hf
      · exact hall j (by omega) (by simp only at hj; omega)

/-- A release keeps the store sound (R105): a slot at LSI takes LSI down with it, one below FFI takes FFI down. -/
theorem SaStore.Sound.release {st : SaStore} {cap : Nat} (hs : st.Sound cap) {k : Nat} (hk : k < cap) :
    (st.release k).Sound cap := by
  obtain ⟨hlen, hffi, hlow, hhigh⟩ := hs.inRange
  have same := SaStore.release_slot_same (hlen ▸ hk : k < st.slots.length)
  have free {j : Nat} (h : ((st.release k).slot j).used = true) : j ≠ k := by
    rintro rfl
    rw [same] at h
    cases h
  have other {j : Nat} (h : ((st.release k).slot j).used = true) : (st.release k).slot j = st.slot j :=
    SaStore.release_slot_other st (free h)
  constructor
  case inRange =>
    refine ⟨by simpa using hlen, ?_, ?_, ?_⟩
    · rw [SaStore.release_ffi]
      split <;> omega
    · rw [SaStore.release_lsi]
      split <;> omega
    · rw [SaStore.release_lsi]
      split <;> omega
  case widths => exact SaStore.forall_slot_release SaSlot.widths hs.widths (hs.widths k)
  case usedBelowLsi =>
    intro j hj
    have hne := free hj
    have hle := hs.usedBelowLsi j (other hj ▸ hj)
    rw [SaStore.release_lsi]
    split <;> omega
  case idsDistinct =>
    intro i j hi hj h
    rw [other hi, other hj] at h
    exact hs.idsDistinct i j (other hi ▸ hi) (other hj ▸ hj) h
  case usedBelowFfi =>
    intro j hj
    rw [SaStore.release_ffi] at hj
    have hj' : j ≠ k ∧ j < st.ffi := by
      split at hj <;> omega
    rw [SaStore.release_slot_other st hj'.1]
    exact hs.usedBelowFfi j hj'.2

end Sys2Proof.Machine

/-! The invariant of the whole machine through each operation on the state. -/

namespace Sys2Proof.Machine

/-! ### Slots and the keys they cache -/

/-- A cached key index below the number of live keys, and 0 where nothing is cached: R78 and R121 for one slot. -/
def SaSlot.CacheSound (sl : SaSlot) (keysNr : Nat) : Prop :=
  (sl.ckValid = true → sl.ckIndex.toNat < keysNr) ∧ (sl.ckValid = false → sl.ckIndex = 0)

theorem SaSlot.cacheSound_of_uncached {sl : SaSlot} (hv : sl.ckValid = false) (hi : sl.ckIndex = 0) (n : Nat) :
    sl.CacheSound n := ⟨fun h => absurd h (by simp [hv]), fun _ => hi⟩

theorem forall_cacheSound_iff {st : SaStore} {keys : List KeyEntry} :
    (∀ k, (st.slot k).CacheSound keys.length) ↔ cachedKeysLive st keys ∧ uncachedZero st :=
  ⟨fun h => ⟨fun k => (h k).1, fun k => (h k).2⟩, fun h k => ⟨h.1 k, h.2 k⟩⟩

/-- A candidate of a collection of at most 64 keys, as the byte that caches it (R31). -/
theorem SaSlot.cacheSound_of_candidate {sl : SaSlot} {k n : Nat} (hk : k < n) (hn : n ≤ 64) (hv : sl.ckValid = true)
    (hi : sl.ckIndex = BitVec.ofNat 8 k) : sl.CacheSound n := by
  refine ⟨fun _ => ?_, fun h => absurd h (by simp [hv])⟩
  rw [hi, BitVec.toNat_ofNat]
  omega

/-- What a frame makes of a slot: the same used slot of the same SA, its widths and its cached key sound. -/
structure SaSlot.Continues (sl sl' : SaSlot) (keysNr : Nat) : Prop where
  used : sl'.used = sl.used
  id : sl'.id = sl.id
  widths : sl'.widths
  cache : sl'.CacheSound keysNr

/-- Whatever a frame does to a slot, the slot stays sound (R172). -/
theorem FrameCase.continues {keys : List KeyEntry} {replayEn fcs hs dec : Bool} {F : Bytes} {sl : SaSlot} {r : FrameResult}
    (h : FrameCase keys replayEn fcs hs dec F sl r) (hn : keys.length ≤ 64) (hw : sl.widths)
    (hc : sl.CacheSound keys.length) : sl.Continues r.slot keys.length := by
  obtain ⟨hb, hsta, han, hptk⟩ := hw
  cases h with
  | plain o r _ => exact ⟨rfl, rfl, ⟨hb, hsta, han, hptk⟩, hc⟩
  | msg1 _ K hK => exact ⟨rfl, rfl, ⟨hb, hsta, length_slice_of_le (by omega), hptk⟩, hc⟩
  | msg2 _ k sn hk =>
    exact ⟨rfl, rfl, ⟨hb, hsta, han, length_candidatePtk _ _ _ _⟩,
      SaSlot.cacheSound_of_candidate (isWpa_lt (mem_wpaCandidates hk)) hn rfl rfl⟩
  | msg3 _ => exact ⟨rfl, rfl, ⟨hb, hsta, han, hptk⟩, hc⟩
  | msg4 _ => exact ⟨rfl, rfl, ⟨hb, hsta, han, hptk⟩, hc⟩
  | wep _ k P hk _ =>
    exact ⟨rfl, rfl, ⟨hb, hsta, han, hptk⟩,
      SaSlot.cacheSound_of_candidate (isWep_lt (mem_wepCandidates hk)) hn rfl rfl⟩
  | tkip _ P _ _ _ => exact ⟨rfl, rfl, ⟨hb, hsta, han, hptk⟩, hc⟩
  | ccmp _ P _ _ _ =>
    cases replayEn <;> exact ⟨rfl, rfl, ⟨hb, hsta, han, hptk⟩, hc⟩

/-! ### Reaching an SA -/

/-- The slots after `LookupOrAllocate`: as before, but for the slot that was allocated. -/
theorem SaStore.slot_lookupOrAllocate {st st' : SaStore} {cap : Nat} {id : SaId} {k : Nat}
    (h : st.lookupOrAllocate cap id = some (k, st')) (j : Nat) : st'.slot j = st.slot j ∨ st'.slot j = freshSlot id := by
  rcases st.lookupOrAllocate_spec cap id with ⟨i, -, e⟩ | ⟨i, -, e, -⟩ | ⟨-, e, -⟩ <;> rw [e] at h <;> cases h
  · exact .inl rfl
  · exact (st.slot_set_cases k j _ _ _).symm.imp_right And.right

theorem SaStore.Sound.lookupOrAllocate {st st' : SaStore} {cap : Nat} (hs : st.Sound cap) {id : SaId} {k : Nat}
    (hb : id.bssid.length = 6) (hsta : id.sta.length = 6) (h : st.lookupOrAllocate cap id = some (k, st')) :
    st'.Sound cap := by
  rcases st.lookupOrAllocate_spec cap id with ⟨i, -, e⟩ | ⟨i, hmiss, e, -, hi, -, hall⟩ | ⟨-, e, -⟩ <;> rw [e] at h <;>
    cases h
  · exact hs
  · exact hs.insert hb hsta (SaStore.lookup_none hs.usedBelowLsi hmiss) hi hall

/-- After a miss `LookupOrAllocate` is `Allocate` (R108). -/
theorem SaStore.lookupOrAllocate_of_miss {st : SaStore} {id : SaId} (h : st.lookup id = none) (cap : Nat) :
    st.lookupOrAllocate cap id = st.allocate cap id := by simp only [SaStore.lookupOrAllocate, h]

/-! ### The buffers' memory -/

/-- Bytes put inside one buffer keep the memory canonical and within the buffers (R52). -/
theorem memSound_splice {p : Params} {m : Memory} (h : memSound p m) {b : Buffer} {lo hi : Nat} {bs : Bytes}
    (hlo : b.base ≤ lo) (hhi : lo + bs.length ≤ b.base + b.size p) : memSound p (Memory.splice m lo hi bs) := by
  refine ⟨splice_wf h.1 _ _ _, fun c hc => ?_⟩
  rcases mem_splice hc with ⟨hm, -⟩ | ⟨h1, h2⟩
  · exact h.2 c hm
  · exact ⟨b, contains_iff.2 ⟨by omega, by omega⟩⟩

/-! ### The invariant -/

theorem keysSound_nil (p : Params) : keysSound p [] := ⟨Nat.zero_le _, fun _ h => nomatch h⟩

namespace State.Inv

variable {s : State}

theorem cacheSound (h : s.Inv) : ∀ k, (s.store.slot k).CacheSound s.keys.length :=
  forall_cacheSound_iff.2 ⟨h.cached, h.uncached⟩

theorem keys_le (h : s.Inv) : s.keys.length ≤ 64 := Nat.le_trans h.keys.1 h.params.2.2.2

/-- CMD, ARG0, the host's queue and its last read value are free. -/
theorem withFree (h : s.Inv) (cmd arg0 : Word) (host : List HostAccess) (hostData : Option Word) :
    State.Inv { s with cmd := cmd, arg0 := arg0, host := host, hostData := hostData } :=
  ⟨h.params, h.store, h.keys, h.cached, h.uncached, h.mem, h.registers⟩

/-- The end of a command writes STATUS with its reserved bits 0; RES1 has to come with them 0. -/
theorem finish (h : s.Inv) (opc : Byte) (o : OutcomeCode) (r : ReasonCode) (res0 : Word) {res1 : Word} (outLen : Word)
    (h1 : res1.extractLsb' 16 16 = 0) : (s.finish opc o r res0 res1 outLen).Inv :=
  ⟨h.params, h.store, h.keys, h.cached, h.uncached, h.mem,
    h.registers.1, statusBusy_statusWord opc o r, statusWord_reserved opc o r, h1⟩

theorem finish_zero (h : s.Inv) (opc : Byte) (o : OutcomeCode) (r : ReasonCode) (res0 outLen : Word) :
    (s.finish opc o r res0 0 outLen).Inv := h.finish opc o r res0 outLen (by decide)

theorem illegal (h : s.Inv) (opc : Byte) (r : ReasonCode) : (s.illegal opc r).Inv := h.finish_zero opc _ r _ _

theorem memWrite (h : s.Inv) {b : Buffer} {o : Nat} {v : Bytes} (hv : o + v.length ≤ b.size s.params) :
    (s.memWrite b o v).Inv :=
  ⟨h.params, h.store, h.keys, h.cached, h.uncached, memSound_splice (b := b) h.mem (by omega) (by omega), h.registers⟩

theorem putFrameOut (h : s.Inv) (out : Bytes) : (s.putFrameOut out).Inv := by
  have hlen : (out.take Config.frameBufLen).length ≤ Config.frameBufLen := List.length_take_le _ _
  exact ⟨h.params, h.store, h.keys, h.cached, h.uncached,
    memSound_splice (b := .frameOut) h.mem (Nat.le_refl _) (Nat.add_le_add_left hlen _), h.registers⟩

theorem finishFrame (h : s.Inv) (opc : Byte) (o : OutcomeCode) (r : ReasonCode) (res0 : Word) (res1 : Res1) (out : Bytes) :
    (s.finishFrame opc o r res0 res1 out).Inv :=
  (h.putFrameOut out).finish opc o r res0 _ (res1Word_reserved res1)

theorem withStore (h : s.Inv) {st : SaStore} (hst : st.Sound s.params.saCap)
    (hc : ∀ k, (st.slot k).CacheSound s.keys.length) : (s.withStore st).Inv :=
  ⟨h.params, hst, h.keys, (forall_cacheSound_iff.1 hc).1, (forall_cacheSound_iff.1 hc).2, h.mem, h.registers⟩

/-- A sound collection over an empty store: no slot caches a key of the old one (R99). -/
theorem resetKeys (h : s.Inv) {ks : List KeyEntry} (hk : keysSound s.params ks) : (s.withKeys ks).storeReset.Inv := by
  have hc : ∀ k, ((SaStore.empty s.params.saCap).slot k).CacheSound ks.length := fun k => by
    rw [SaStore.slot_empty]
    exact SaSlot.cacheSound_of_uncached rfl rfl _
  obtain ⟨hcached, huncached⟩ := forall_cacheSound_iff.1 hc
  exact ⟨h.params, SaStore.empty_sound _, hk, hcached, huncached, h.mem, h.registers⟩

/-- A host write that stays in the buffer it begins in. -/
theorem hostStore (h : s.Inv) {a : Nat} {v : Bytes}
    (hv : ∀ b : Buffer, b.contains s.params a = true → a + v.length ≤ b.base + b.size s.params) : (s.hostStore a v).Inv := by
  rcases hostStore_cases s a v with e | ⟨b, -, hb, e⟩ <;> rw [e]
  · exact h
  · have hle := hv b hb
    have hbase := (contains_iff.1 hb).1
    exact h.memWrite (by omega)

theorem writeRegister (h : s.Inv) (off : Nat) (v : Word) : (s.writeRegister off v).Inv := by
  rcases writeRegister_cases s off v with e | e | e <;> rw [e]
  · exact h.withFree s.cmd v s.host s.hostData
  · have hctrl : (v &&& 1).extractLsb' 1 31 = 0 := by
      rw [BitVec.extractLsb'_and]
      exact BitVec.and_zero
    exact ⟨h.params, h.store, h.keys, h.cached, h.uncached, h.mem, hctrl, h.registers.2⟩
  · exact h

/-- The state after a reset, at power-up or later, meets the invariant for the parameters at hand (R212, R214). -/
theorem platformReset (hp : paramsLegal s.params) : s.platformReset.Inv := by
  have hc : ∀ k, (s.platformReset.store.slot k).CacheSound s.platformReset.keys.length := fun k => by
    rw [State.platformReset_store, SaStore.slot_empty]
    exact SaSlot.cacheSound_of_uncached rfl rfl _
  obtain ⟨hcached, huncached⟩ := forall_cacheSound_iff.1 hc
  exact ⟨hp, SaStore.empty_sound _, keysSound_nil _, hcached, huncached, ⟨nil_wf, fun _ h => nomatch h⟩,
    by simp [registersSound, statusBusy]⟩

end State.Inv

/-! ### Commands and steps -/

/-- The collection SET_KEYS stores is sound: every entry was validated, and there are no more than were staged (R118). -/
theorem admittedKeys_sound (s : State) {n : Nat} (hn : n ≤ s.params.keysMax) : keysSound s.params (s.admittedKeys n) := by
  constructor
  · calc (s.admittedKeys n).length ≤ (List.range n).length := List.length_filterMap_le _ _
      _ = n := List.length_range
      _ ≤ s.params.keysMax := hn
  · intro e he
    obtain ⟨i, -, hi⟩ := List.mem_filterMap.1 he
    obtain ⟨e', hv, rfl⟩ := Option.map_eq_some_iff.1 hi
    exact KeyEntry.accept_sound e' (validate_sound (length_stageRec s i) hv)

theorem ExecCase.keepsInv {i : Instr} {s t : State} (h : ExecCase i s t) (hs : s.Inv) : t.Inv := by
  cases h with
  | illegal r => exact hs.illegal _ r
  | report o r x => exact hs.finish_zero _ o r x 0
  | result b v x _ _ _ hv => exact (hs.memWrite (by rw [Nat.zero_add]; exact (hv hs).2)).finish_zero _ _ _ _ _
  | resets ks x hks =>
    refine (hs.resetKeys ?_).finish_zero _ _ _ _ _
    rcases hks with ⟨-, rfl⟩ | ⟨-, rfl⟩ | ⟨-, rfl⟩ | ⟨n, -, hn, rfl⟩
    · exact hs.keys
    · exact keysSound_nil _
    · exact keysSound_nil _
    · exact admittedKeys_sound s hn
  | allocates k st _ hl ha =>
    rw [← SaStore.lookupOrAllocate_of_miss hl] at ha
    refine (hs.withStore (hs.store.lookupOrAllocate (length_param s 0 6) (length_param s 6 6) ha) fun j => ?_).finish_zero
      _ _ _ _ _
    rcases SaStore.slot_lookupOrAllocate ha j with e | e <;> rw [e]
    · exact hs.cacheSound j
    · exact SaSlot.cacheSound_of_uncached rfl rfl _
  | releases k _ hk =>
    have hc := SaStore.forall_slot_release (·.CacheSound s.keys.length) hs.cacheSound (hs.cacheSound k)
    exact (hs.withStore (hs.store.release hk) hc).finish_zero _ _ _ _ _
  | pipeFails o r => exact hs.finishFrame ..
  | pipeRuns x c out => exact hs.finishFrame ..
  | packetStops e => exact hs.finishFrame ..
  | packet fcs rt hm dec len F id k st r _ hd ha hr =>
    have hF : 24 ≤ F.length := by
      have := hdrLen_ge F
      have := hd.long
      omega
    obtain ⟨hb, hsta⟩ := frameId_lengths hd.ident hF
    have hst := hs.store.lookupOrAllocate hb hsta ha
    have hc (j : Nat) : (st.slot j).CacheSound s.keys.length := by
      rcases SaStore.slot_lookupOrAllocate ha j with e | e <;> rw [e]
      · exact hs.cacheSound j
      · exact SaSlot.cacheSound_of_uncached rfl rfl _
    obtain ⟨hused, hid, hwidths, hcache⟩ := hr.continues hs.keys_le (hst.widths k) (hc k)
    have hc' := SaStore.forall_slot_setSlot (·.CacheSound s.keys.length) (k := k) hc hcache
    exact (hs.withStore (hst.setSlot hwidths hused hid) hc').finishFrame ..

/-- Every word is illegal, or runs the command it decodes to: what running it can do, once. -/
theorem runCommand_cases (w : Word) (s : State) :
    (∃ e, decodeWord w = .error e ∧ runCommand w s = .next (s.undecoded e)) ∨
      ∃ i t, decodeWord w = .ok i ∧ runCommand w s = .next t ∧ ExecCase i s t := by
  cases hd : decodeWord w with
  | error e => exact .inl ⟨e, rfl, by simp only [runCommand, hd]⟩
  | ok i =>
    obtain ⟨t, ht, hc⟩ := exec_cases i s
    exact .inr ⟨i, t, rfl, by simp only [runCommand, hd, ht], hc⟩

theorem runCommand_keepsInv {w : Word} {s t : State} (hs : s.Inv) (h : runCommand w s = .next t) : t.Inv := by
  rcases runCommand_cases w s with ⟨e, -, hr⟩ | ⟨i, t', -, hr, hc⟩ <;> rw [hr] at h <;> cases h
  · exact hs.illegal _ _
  · exact hc.keepsInv hs

/-- A host access that is admitted and is no command keeps the invariant. -/
theorem legalAccess_keepsInv {s t : State} {a : HostAccess} (hs : s.Inv) (ha : accessRefusal s.params a = none)
    (h : legalAccess s a = .done t) : t.Inv := by
  cases a with
  | rd8 off =>
    cases h
    exact hs.withFree _ _ _ _
  | rd32 off =>
    cases h
    exact hs.withFree _ _ _ _
  | wr8 off v =>
    cases h
    exact hs.hostStore fun b hb => (contains_iff.1 hb).2
  | wr32 off v =>
    have h4 : off % 4 = 0 := by
      simp only [accessRefusal] at ha
      split at ha
      · cases ha
      split at ha
      · cases ha
      · omega
    simp only [legalAccess] at h
    split at h
    · cases h
    split at h <;> cases h
    · exact hs.writeRegister off v
    · refine hs.hostStore fun b hb => ?_
      have hlast := contains_iff.1 ((contains_word h4 (by omega : 3 < 4)).trans hb)
      rw [length_le32Bytes]
      omega
  | otherWidth bits off => cases h
  | reset =>
    cases h
    exact State.Inv.platformReset hs.params

/-- Settles O15: the invariant goes through every host access, and through every command by the cases of `exec_cases`. -/
theorem stepKeepsTheInvariant : Obligations.StepKeepsTheInvariant := by
  intro s t hs h
  rcases step_cases s with ⟨-, e⟩ | ⟨a, rest, -, ⟨r, -, e⟩ | ⟨ha, ⟨w, -, e⟩ | ⟨-, t', ht, e⟩⟩⟩ <;> rw [e] at h
  · cases h
    exact hs
  · cases h
  · exact runCommand_keepsInv (hs.withFree w s.arg0 rest s.hostData) h
  · cases h
    exact legalAccess_keepsInv (hs.withFree s.cmd s.arg0 rest s.hostData) ha ht

/-- Settles O14: the engine after power-up is one after a reset at run time, the draws and the host's part aside. -/
theorem resetMeetsTheInvariant : Obligations.ResetMeetsTheInvariant := by
  have hp : paramsLegal State.reset.params := by simp [paramsLegal, State.reset, Params.hardware]
  obtain ⟨h1, h2, h3, h4, h5, h6, h7⟩ := State.Inv.platformReset hp
  exact ⟨h1, h2, h3, h4, h5, h6, h7⟩

end Sys2Proof.Machine

/-! What every command does to the control state, the keys, the store and OUT_LEN, read off `exec_cases`; the words that
are no command. -/

namespace Sys2Proof.Machine

/-! ### Words and opcodes (R66, R70, R71) -/

/-- The OPC of a row is the OPC of every command it makes. -/
theorem opcode_build : ∀ r ∈ opcodeRows, ∀ w, (r.build w).opcode = opcField r.pattern := by
  simp only [opcodeRows, List.forall_mem_cons]
  exact ⟨fun _ => rfl, fun _ => rfl, fun _ => rfl, fun _ => rfl, fun _ => rfl, fun _ => rfl, fun _ => rfl, fun _ => rfl,
    fun _ => rfl, fun _ => rfl, fun _ => rfl, fun _ => rfl, fun _ => rfl, fun _ => rfl, fun _ => rfl, fun _ => rfl,
    fun _ => rfl, fun _ h => nomatch h⟩

theorem opcode_of_decodeWord {w : Word} {i : Instr} (h : decodeWord w = .ok i) : i.opcode = opcField w := by
  simp only [decodeWord] at h
  split at h
  · cases h
  · rename_i r hr
    split at h <;> cases h
    rw [opcode_build r (List.mem_of_find?_eq_some hr) w]
    simpa using List.find?_some hr

theorem decodeReason_of_decodeWord {w : Word} {e : DecodeError} (h : decodeWord w = .error e) :
    (decodeReason e).1 = opcField w := by
  simp only [decodeWord] at h
  split at h
  · cases h
    rfl
  · split at h <;> cases h
    rfl

/-- A word with a row's opcode and a bit above OPC that the row fixes at 0 set is a bad field (R70 step 2, R72). -/
theorem decodeWord_badField {w m : Word} {start len : Nat}
    (hr : (rowOf (opcField w)).map (fun r => (r.mask, r.pattern)) = some (m, (opcField w).setWidth 32))
    (hstart : 8 ≤ start) (hw : w.extractLsb' start len &&& m.extractLsb' start len ≠ 0) :
    decodeWord w = .error (.badField (opcField w)) := by
  obtain ⟨r, hrow, hrm⟩ := Option.map_eq_some_iff.1 hr
  obtain ⟨rfl, hpat⟩ := Prod.mk.inj hrm
  have hzero : r.pattern.extractLsb' start len = 0 := by
    rw [hpat]
    apply BitVec.eq_of_getLsbD_eq
    intro j hj
    have hge : (opcField w).getLsbD (start + j) = false := BitVec.getLsbD_of_ge _ _ (by omega)
    simp [hge]
  have hne : w &&& r.mask ≠ r.pattern := fun he => hw (by rw [← BitVec.extractLsb'_and, he, hzero])
  simp only [decodeWord, hrow, if_neg hne]

/-! ### Illegal commands (R70, R199) -/

theorem State.illegal_reports (s : State) (opc : Byte) (r : ReasonCode) :
    (s.illegal opc r).Reports opc .illegalCommand r 0 0 0 := ⟨rfl, rfl, rfl, rfl⟩

theorem State.illegal_sameButResults (s : State) (opc : Byte) (r : ReasonCode) : s.SameButResults (s.illegal opc r) :=
  ⟨⟨rfl, rfl, rfl, rfl, rfl, rfl⟩, rfl, rfl, fun _ => rfl⟩

theorem runCommand_badField {w m : Word} {start len : Nat} (s : State)
    (hr : (rowOf (opcField w)).map (fun r => (r.mask, r.pattern)) = some (m, (opcField w).setWidth 32))
    (hstart : 8 ≤ start) (hw : w.extractLsb' start len &&& m.extractLsb' start len ≠ 0) :
    ∃ t, runCommand w s = .next t ∧ t.Reports (opcField w) .illegalCommand .badField 0 0 0 ∧ s.SameButResults t :=
  ⟨s.illegal (opcField w) .badField, by simp only [runCommand, decodeWord_badField hr hstart hw]; rfl,
    s.illegal_reports _ _, s.illegal_sameButResults _ _⟩

/-- The rows that take neither IMM nor FLAGS fix every bit (R68). -/
theorem rowOf_noOperands : ∀ o ∈ [0x01#8, 0x02#8, 0x05#8, 0x10#8, 0x11#8, 0x20#8, 0x21#8],
    (rowOf o).map (fun r => (r.mask, r.pattern)) = some (0xFFFFFFFF, o.setWidth 32) := by decide

/-- The rows that take an IMM and no FLAGS (R68). -/
theorem rowOf_immOnly : ∀ o ∈ [0x03#8, 0x04#8, 0x06#8, 0x12#8, 0x13#8, 0x22#8],
    (rowOf o).map (fun r => (r.mask, r.pattern)) = some (0x0000FFFF, o.setWidth 32) := by decide

/-- The rows of the standalone pipelines take an IMM and FLAGS bit 0 (R68, R69). -/
theorem rowOf_pipelines : ∀ o ∈ [0x30#8, 0x31#8, 0x32#8],
    (rowOf o).map (fun r => (r.mask, r.pattern)) = some (0x0000FEFF, o.setWidth 32) := by decide

/-- The row of PROCESS_PACKET takes an IMM and four FLAGS bits (R68, R69). -/
theorem rowOf_processPacket :
    (rowOf 0x40#8).map (fun r => (r.mask, r.pattern)) = some (0x0000F0FF, (0x40#8).setWidth 32) := by decide

/-- A standalone pipeline refuses a reserved ARG0 bit before anything else (R70, R168). -/
theorem pipelineCommand_reservedArg0 {s : State} (h : s.arg0.extractLsb' 8 24 ≠ 0) (opc : Byte) (cipher : Cipher)
    (fcs : Bool) (len : Nat) (operandOk : Bool) (frameOk : Bytes → Nat → Bool)
    (run : Bytes → Nat → Except PipeFail Bytes) :
    s.pipelineCommand opc cipher fcs len operandOk frameOk run = s.illegal opc .badField := by
  have hz : s.hdrLenReservedZero = false := by simpa [State.hdrLenReservedZero] using h
  simp [State.pipelineCommand, hz]

/-- Settles O5: the masks of the opcode table for the word's own fields, the commands' first check for those of ARG0. -/
theorem reservedFieldsAreIllegal : Obligations.ReservedFieldsAreIllegal := by
  constructor
  · rintro w s (⟨ho, h⟩ | ⟨ho, h⟩ | ⟨ho, h⟩ | ⟨ho, h⟩)
    · refine runCommand_badField s (rowOf_noOperands _ ho) (start := 8) (len := 24) (by decide) ?_
      rwa [show (0xFFFFFFFF : Word).extractLsb' 8 24 = BitVec.allOnes 24 by decide, BitVec.and_allOnes]
    · refine runCommand_badField s (rowOf_immOnly _ ho) (start := 8) (len := 8) (by decide) ?_
      rwa [show (0x0000FFFF : Word).extractLsb' 8 8 = BitVec.allOnes 8 by decide, BitVec.and_allOnes]
    · exact runCommand_badField s (rowOf_pipelines _ ho) (start := 8) (len := 8) (by decide) h
    · exact runCommand_badField s (m := 0x0000F0FF) (by rw [ho, rowOf_processPacket]) (start := 8) (len := 8) (by decide) h
  · have illegal (i : Instr) (s : State) (h : exec i s = .next (s.illegal i.opcode .badField)) :
        ∃ t, exec i s = .next t ∧ t.Reports i.opcode .illegalCommand .badField 0 0 0 ∧ s.SameButResults t :=
      ⟨_, h, s.illegal_reports _ _, s.illegal_sameButResults _ _⟩
    rintro i s (⟨rfl, h⟩ | ⟨len, rfl, h⟩ | ⟨fcs, len, rfl | rfl | rfl, h⟩) <;> apply illegal
    · have hz : s.nbitsReservedZero = false := by simpa [State.nbitsReservedZero] using h
      simp [exec, execPtkDerive, hz]
    · have hz : s.verReservedZero = false := by simpa [State.verReservedZero] using h
      simp [exec, execMicCheck, hz]
    · exact congrArg _ (pipelineCommand_reservedArg0 h ..)
    · exact congrArg _ (pipelineCommand_reservedArg0 h ..)
    · exact congrArg _ (pipelineCommand_reservedArg0 h ..)

/-! ### Every command (R17 to R25, R42, R76) -/

/-- STATUS is written whole, and the control state is left alone. -/
theorem ExecCase.reports {i : Instr} {s t : State} (h : ExecCase i s t) :
    (∃ o r, t.status = statusWord i.opcode o r) ∧ s.SameControl t := by
  cases h with
  | packet fcs rt hm dec len F id k st r hi => exact ⟨⟨_, _, rfl⟩, rfl, rfl, rfl, rfl, rfl, rfl⟩
  | _ => exact ⟨⟨_, _, rfl⟩, rfl, rfl, rfl, rfl, rfl, rfl⟩

/-- The same for every word, a command or none. -/
theorem runCommand_reports (w : Word) (s : State) :
    ∃ t, runCommand w s = .next t ∧ (∃ o r, t.status = statusWord (opcField w) o r) ∧ s.SameControl t := by
  rcases runCommand_cases w s with ⟨e, hd, hr⟩ | ⟨i, t, hd, hr, hc⟩
  · exact ⟨_, hr, ⟨_, _, by rw [← decodeReason_of_decodeWord hd]; rfl⟩, rfl, rfl, rfl, rfl, rfl, rfl⟩
  · exact ⟨t, hr, opcode_of_decodeWord hd ▸ hc.reports⟩

/-- Settles O17: STATUS is a status word of the word's OPC, whose fields the laws of `statusWord` read off. -/
theorem everyCommandReports : Obligations.EveryCommandReports := by
  intro w s
  obtain ⟨t, ht, ⟨o, r, hst⟩, -⟩ := runCommand_reports w s
  refine ⟨t, ht, ?_⟩
  rw [hst]
  exact ⟨statusDone_statusWord _ _ _, statusBusy_statusWord _ _ _, statusWord_reserved _ _ _,
    statusLastOpc_statusWord _ _ _, ⟨o, statusOutcome_statusWord _ _ _⟩, r, statusReason_statusWord _ _ _⟩

/-- Settles O18: the frame half of `runCommand_reports`. -/
theorem commandsKeepControlState : Obligations.CommandsKeepControlState := by
  intro w s t h
  obtain ⟨t', ht, -, hc⟩ := runCommand_reports w s
  rw [ht] at h
  cases h
  exact hc

theorem ExecCase.of_exec {i : Instr} {s t : State} (h : exec i s = .next t) : ExecCase i s t := by
  obtain ⟨t', ht, hc⟩ := exec_cases i s
  rw [ht] at h
  cases h
  exact hc

/-- The commands that reset the store (R99, R216), each with the key collection it leaves. -/
def Resets (i : Instr) (s : State) (ks : List KeyEntry) : Prop :=
  (i = .initStore ∧ ks = s.keys) ∨ (i = .destroyStore ∧ ks = []) ∨ (i = .cleanKeys ∧ ks = []) ∨
    ∃ n, i = .setKeys n ∧ n ≤ s.params.keysMax ∧ ks = s.admittedKeys n

/-- The commands that do not: SET_KEYS beyond the capacity is one of them (R118). -/
def NoReset (i : Instr) (s : State) : Prop :=
  i ∉ [Instr.initStore, .destroyStore, .cleanKeys] ∧ ∀ n, i = .setKeys n → s.params.keysMax < n

/-- A command resets the store and leaves a whole collection, or it leaves the keys alone, and then the store too unless it
is SA_ALLOCATE, SA_RELEASE or PROCESS_PACKET. -/
theorem ExecCase.resets_or_keeps {i : Instr} {s t : State} (h : ExecCase i s t) :
    (Resets i s t.keys ∧ t.store = SaStore.empty s.params.saCap) ∨
      (NoReset i s ∧ t.keys = s.keys ∧
        (t.store = s.store ∨ i = .saAllocate ∨ (∃ k, i = .saRelease k) ∨
          ∃ fcs rt hs dec len, i = .processPacket fcs rt hs dec len)) := by
  cases h with
  | illegal r _ hi hn => exact .inr ⟨⟨hi, fun n e => absurd e (hn n)⟩, rfl, .inl rfl⟩
  | report o r x _ _ hi hn => exact .inr ⟨⟨hi, hn⟩, rfl, .inl rfl⟩
  | result b v x _ hi hn => exact .inr ⟨⟨hi, fun n e => absurd e (hn n)⟩, rfl, .inl rfl⟩
  | resets ks x hks => exact .inl ⟨hks, rfl⟩
  | allocates k st hi =>
    subst hi
    exact .inr ⟨⟨by decide, fun n e => nomatch e⟩, rfl, .inr (.inl rfl)⟩
  | releases k hi =>
    subst hi
    exact .inr ⟨⟨by simp, fun n e => nomatch e⟩, rfl, .inr (.inr (.inl ⟨k, rfl⟩))⟩
  | pipeFails o r _ _ hi =>
    obtain ⟨fcs, len, rfl | rfl | rfl⟩ := hi <;> exact .inr ⟨⟨by simp, fun n e => nomatch e⟩, rfl, .inl rfl⟩
  | pipeRuns x c out _ hi =>
    obtain ⟨fcs, len, rfl | rfl | rfl⟩ := hi <;> exact .inr ⟨⟨by simp, fun n e => nomatch e⟩, rfl, .inl rfl⟩
  | packetStops e _ hi =>
    obtain ⟨fcs, rt, hm, dec, len, rfl⟩ := hi
    exact .inr ⟨⟨by simp, fun n e => nomatch e⟩, rfl, .inl rfl⟩
  | packet fcs rt hm dec len F id k st r hi =>
    subst hi
    exact .inr ⟨⟨by simp, fun n e => nomatch e⟩, rfl, .inr (.inr (.inr ⟨_, _, _, _, _, rfl⟩))⟩

/-- Settles O21: a command resets, each with its own collection, or keeps the keys (`ExecCase.resets_or_keeps`). -/
theorem keysChangeOnlyAsAWhole : Obligations.KeysChangeOnlyAsAWhole := by
  intro i s t h
  rcases (ExecCase.of_exec h).resets_or_keeps with ⟨⟨rfl, e⟩ | ⟨rfl, e⟩ | ⟨rfl, e⟩ | ⟨n, rfl, hn, e⟩, -⟩ | ⟨⟨hi, hn⟩, e, -⟩ <;> rw [e]
  · rfl
  · rfl
  · rfl
  · exact (if_pos hn).symm
  · simp only [List.mem_cons, List.not_mem_nil, or_false, not_or] at hi
    obtain ⟨-, hd, hc⟩ := hi
    rw [if_neg (by simp [hd, hc])]
    cases i with
    | setKeys n => exact (if_neg (by have := hn n rfl; omega)).symm
    | _ => rfl

/-- Settles O22 by the same two cases; the three commands that change the store without a reset are left out. -/
theorem storeChangesOnlyByItsCommands : Obligations.StoreChangesOnlyByItsCommands := by
  intro i s t h
  rcases (ExecCase.of_exec h).resets_or_keeps with ⟨hr, e⟩ | ⟨⟨hi, hn⟩, -, hst⟩
  · refine ⟨fun _ => e, fun hi hn _ _ => ?_⟩
    rcases hr with ⟨rfl, -⟩ | ⟨rfl, -⟩ | ⟨rfl, -⟩ | ⟨n, rfl, hle, -⟩
    · exact absurd hi (by simp)
    · exact absurd hi (by simp)
    · exact absurd hi (by simp)
    · exact absurd hle (by have := hn n rfl; omega)
  · constructor
    · rintro (hmem | ⟨n, rfl, hle⟩)
      · exact absurd hmem hi
      · exact absurd hle (by have := hn n rfl; omega)
    · intro hni _ hrel hpkt
      rcases hst with e | rfl | ⟨k, rfl⟩ | ⟨fcs, rt, hs, dec, len, rfl⟩
      · exact e
      · exact absurd hni (by simp)
      · exact absurd rfl (hrel k)
      · exact absurd rfl (hpkt fcs rt hs dec len)

/-! ### OUT_LEN (R22, R150) -/

/-- A frame decrypts into an output frame with OUTCOME OK that is shorter than its `len` bytes, or gives none. -/
theorem FrameCase.out_nil_or_ok {keys : List KeyEntry} {replayEn fcs hs dec : Bool} {F : Bytes} {sl : SaSlot}
    {r : FrameResult} (h : FrameCase keys replayEn fcs hs dec F sl r) :
    r.out = [] ∨ (r.outcome = .ok ∧ r.out.length < F.length + fcsLen fcs) := by
  have short {P : Bytes} {n : Nat} (hP : P.length + hdrLen F + n = F.length) (hn : 0 < n) :
      (outputFrame F (hdrLen F) P fcs).length < F.length + fcsLen fcs := by
    rw [length_outputFrame]
    omega
  cases h with
  | plain o r _ => exact .inl rfl
  | msg1 _ K _ => exact .inl rfl
  | msg2 _ k sn _ => exact .inl rfl
  | msg3 _ => exact .inl rfl
  | msg4 _ => exact .inl rfl
  | wep _ k P _ hP => exact .inr ⟨rfl, short hP (by decide)⟩
  | tkip _ P _ _ hP => exact .inr ⟨rfl, short hP (by decide)⟩
  | ccmp _ P _ _ hP => exact .inr ⟨rfl, short hP (by decide)⟩

/-- The frame view leaves out the FCS (R175). -/
theorem State.Views.length_add_fcs {s : State} {fcs rt : Bool} {len : Nat} {F : Bytes} (h : s.Views fcs rt len F) :
    F.length + fcsLen fcs ≤ Config.frameBufLen := by
  obtain ⟨hb, hne, rfl⟩ := h
  rw [length_frameIn]
  omega

/-- OUT_LEN is 0 but after a decryption that succeeded. -/
theorem ExecCase.outLen {i : Instr} {s t : State} (h : ExecCase i s t) :
    t.outLen = 0 ∨
      ((∃ r, t.status = statusWord i.opcode .ok r) ∧ i.opcode ∈ [0x30#8, 0x31#8, 0x32#8, 0x40#8] ∧
        t.outLen.toNat < 4096) := by
  cases h with
  | pipeRuns x c out hl hi =>
    refine .inr ⟨⟨_, rfl⟩, ?_, ?_⟩
    · obtain ⟨fcs, len, rfl | rfl | rfl⟩ := hi <;> simp [Instr.opcode]
    · rw [State.finishFrame_outLen, BitVec.toNat_ofNat]
      omega
  | packet fcs rt hm dec len F id k st r hi hd _ hr =>
    subst hi
    rw [State.finishFrame_outLen, State.finishFrame_status]
    rcases hr.out_nil_or_ok with e | ⟨e, hl⟩
    · exact .inl (by rw [e]; rfl)
    · have hle : F.length + fcsLen fcs ≤ 4096 := hd.views.length_add_fcs
      refine .inr ⟨⟨_, by rw [e]⟩, by simp [Instr.opcode], ?_⟩
      rw [BitVec.toNat_ofNat]
      omega
  | _ => exact .inl rfl

/-- Settles O24: `ExecCase.outLen`, with the OPC of the word for the opcode of its command. -/
theorem outLenOnlyOnDecryption : Obligations.OutLenOnlyOnDecryption := by
  intro w s t h hne
  rcases runCommand_cases w s with ⟨e, -, hr⟩ | ⟨i, t', hd, hr, hc⟩ <;> rw [hr] at h <;> cases h
  · exact absurd rfl hne
  · rcases hc.outLen with h0 | ⟨⟨r, hst⟩, hopc, hlt⟩
    · exact absurd h0 hne
    · exact ⟨by rw [hst, statusOutcome_statusWord]; rfl, opcode_of_decodeWord hd ▸ hopc, hlt⟩

end Sys2Proof.Machine

/-! The candidate loops of PROCESS_PACKET run to the first key that verifies, and where session keys come from
(spec/43_handshake.md R141 to R147; spec/45_packet_processor.md R187). -/

namespace Sys2Proof.Machine

/-! ### The first key that verifies (R123) -/

/-- The message 2 loop answers the first candidate whose MIC matches (R142). -/
theorem msg2Search_first {keys : List KeyEntry} {sl : SaSlot} {sn d claimed : Bytes} {ver : BitVec 3} {c : Nat}
    (hc : micCompute (slice (candidatePtk keys sl sn c) 0 16) d ver = claimed) (others : List Nat) {tried : List Nat}
    (ht : ∀ j ∈ tried, micCompute (slice (candidatePtk keys sl sn j) 0 16) d ver ≠ claimed) :
    msg2Search keys sl sn d claimed ver (tried ++ c :: others) = some (c, candidatePtk keys sl sn c) := by
  induction tried with
  | nil => simp [msg2Search, micMatches, hc]
  | cons j tried ih =>
    obtain ⟨hj, ht⟩ := List.forall_mem_cons.1 ht
    simpa [msg2Search, micMatches, hj] using ih ht

/-- The WEP loop answers the first candidate that verifies, with its payload (R187). -/
theorem wepLoop_first {keys : List KeyEntry} {W : Bytes} {h c : Nat} {P : Bytes}
    (hc : wepTry W h (wepKeyOf keys c) = .ok P) (others : List Nat) {tried : List Nat}
    (ht : ∀ j ∈ tried, ∃ e, wepTry W h (wepKeyOf keys j) = .error e) (last : PipeFail) :
    wepLoop keys W h last (tried ++ c :: others) = .ok (c, P) := by
  induction tried generalizing last with
  | nil => simp only [List.nil_append, wepLoop, hc]
  | cons j tried ih =>
    obtain ⟨⟨e, hj⟩, ht⟩ := List.forall_mem_cons.1 ht
    simpa only [List.cons_append, wepLoop, hj] using ih ht e

/-- The RES1 word that reports key `k` of a handshake message 2 (R21). -/
theorem res1Word_msg2 (k : Byte) : res1Word ⟨k, true, .none, 2⟩ = 0x00002#20 ++ 0x1#4 ++ k :=
  congrArg (fun x : BitVec 24 => x ++ k)
    (show 0#16 ++ 2#4 ++ 0#3 ++ BitVec.ofBool true = (0x00002#20 ++ 0x1#4 : BitVec 24) by decide)

/-- The RES1 word that reports key `k` of a WEP decryption (R21). -/
theorem res1Word_wep (k : Byte) : res1Word ⟨k, true, .wep, 0⟩ = 0x00000#20 ++ 0x3#4 ++ k :=
  congrArg (fun x : BitVec 24 => x ++ k)
    (show 0#16 ++ 0#4 ++ 1#3 ++ BitVec.ofBool true = (0x00000#20 ++ 0x3#4 : BitVec 24) by decide)

/-! ### Message 2 (R138 to R143) -/

/-- A body that passes the checks of R138, in a frame with HS = 1, is handled by its class. -/
theorem dispatchFrame_pairwise {F E K : Bytes} (hclear : frameProtected F = false) (hE : EapolKey F E K)
    (hK : PairwiseBody K) (keys : List KeyEntry) (replayEn fcs dec : Bool) (sl : SaSlot) :
    dispatchFrame keys replayEn fcs true dec F sl = hsMessage keys sl E K.length ∧ keyBody E K.length = K := by
  obtain ⟨hsig, rfl, hhead, htype, hfits, hbody⟩ := hE
  obtain ⟨hlong, hdesc, hpair⟩ := hK
  have hlen : K.length = eapolBodyLen (F.drop (hdrLen F + 8)) := by
    rw [hbody]
    exact length_slice_of_le hfits
  have hkey : keyBody (F.drop (hdrLen F + 8)) K.length = K := by
    rw [hlen]
    exact hbody.symm
  have hF := List.length_drop (i := hdrLen F + 8) (l := F)
  have hshape : eapolKeyShape F (hdrLen F) = true := by
    have hb : eapolBodyLen (F.drop (hdrLen F + 8)) ≤ F.length - (hdrLen F + 12) := by
      simp only [eapolBodyLen]
      omega
    simp only [eapolKeyShape, Bool.and_eq_true, decide_eq_true_eq, beq_iff_eq]
    exact ⟨⟨⟨⟨by omega, hsig⟩, by omega⟩, htype⟩, hb⟩
  have hdesc' : descriptorAccepted K = true := by
    simpa [descriptorAccepted, descriptorType] using hdesc
  refine ⟨?_, hkey⟩
  simp only [dispatchFrame, hclear, cleartextPath, hshape, handshake, ← hlen, hkey, hdesc', hpair]
  simp [show ¬ K.length < 95 by omega]

/-- Settles O44: the frame reaches the message 2 loop, which stops at the first candidate whose MIC matches. -/
theorem handshakeMessage2Verified : Obligations.HandshakeMessage2Verified := by
  intro s fcs rt dec len F E K k sl hreach hclear hE hK hinstall hack hmic hsecure hkdl wpa candidates pmk ptk mic
    tried c others hcand htried hc
  obtain ⟨hdispatch, hbody⟩ := dispatchFrame_pairwise hclear hE hK s.keys s.replayEn fcs dec sl
  have hclass : bodyClass K = .msg2 := by
    simp [bodyClass, classify, hinstall, hack, hmic, hsecure, keyDataLen, hkdl]
  have hL : wpaCandidates s.keys sl = tried ++ c :: others := by
    rw [wpaCandidates, candidates_eq, isWpa_eq]
    exact hcand
  have hsearch : msg2Search s.keys sl (keyNonce K) (micData E K.length) (keyMic K) (kiVersion (keyInfo K))
      (tried ++ c :: others) = some (c, ptk c) := msg2Search_first hc others htried
  have hresult : dispatchFrame s.keys s.replayEn fcs true dec F sl =
      ⟨msg2Slot sl c (ptk c), .handshakeStepOk, .none, ⟨BitVec.ofNat 8 c, true, .none, 2⟩, []⟩ := by
    rw [hdispatch]
    simp only [hsMessage, hsMessage2, hbody, hclass, hL, hsearch]
    simp
  obtain ⟨t, ht, hrep, hwrote, honly, -⟩ := exec_reaches hreach true dec hresult
  rw [res1Word_msg2] at hrep
  exact ⟨t, ht, hrep, hwrote, honly⟩

/-! ### WEP (R184 to R187) -/

/-- Settles O57: the frame reaches the WEP loop, which stops at the first candidate that verifies. -/
theorem wepPacketDecrypts : Obligations.WepPacketDecrypts := by
  intro s fcs rt hs len F k sl hreach hprot hlong hext wep candidates wepKey tried c others P hcand htried hc
  have hL : wepCandidates s.keys sl = tried ++ c :: others := by
    rw [wepCandidates, candidates_eq, isWep_eq]
    exact hcand
  have hloop : wepLoop s.keys F (hdrLen F) .icvMismatch (tried ++ c :: others) = .ok (c, P) :=
    wepLoop_first hc others htried _
  have hresult : dispatchFrame s.keys s.replayEn fcs hs true F sl =
      ⟨{ sl with ckValid := true, ckIndex := BitVec.ofNat 8 c }, .ok, .none, ⟨BitVec.ofNat 8 c, true, .wep, 0⟩,
        outputFrame F (hdrLen F) P fcs⟩ := by
    simp only [dispatchFrame, hprot, protectedPath, hext, wepPath, hL, hloop]
    simp [show ¬ F.length < hdrLen F + 4 by omega]
  obtain ⟨t, ht, hrep, hwrote, honly, hout⟩ := exec_reaches hreach hs true hresult
  have hfits : (outputFrame F (hdrLen F) P fcs).length ≤ Config.frameBufLen := by
    obtain ⟨id, hd, -⟩ := hreach.frame
    have hF := hd.views.length_add_fcs
    have hcase := dispatchFrame_cases s.keys s.replayEn fcs hs true F sl
    rw [hresult] at hcase
    rcases hcase.out_nil_or_ok with e | ⟨-, hlt⟩
    · exact (congrArg List.length e).trans_le (Nat.zero_le _)
    · exact Nat.le_of_lt (Nat.lt_of_lt_of_le hlt hF)
  rw [res1Word_wep] at hrep
  exact ⟨t, ht, hrep, hout hfits, hwrote, honly⟩

/-! ### Session keys (R33, R36, R147) -/

/-- VALID_KEY is not raised, and the PTK is kept or zeroed. -/
structure SaSlot.GainsNoKey (sl sl' : SaSlot) : Prop where
  validKey : sl'.validKey = true → sl.validKey = true
  ptk : sl'.ptk = sl.ptk ∨ sl'.ptk = zeros 64

theorem SaSlot.GainsNoKey.refl (sl : SaSlot) : sl.GainsNoKey sl := ⟨fun h => h, .inl rfl⟩

theorem SaSlot.gainsNoKey_zero (sl : SaSlot) : sl.GainsNoKey SaSlot.zero := ⟨fun h => absurd h (by decide), .inr rfl⟩

theorem SaSlot.gainsNoKey_fresh (sl : SaSlot) (id : SaId) : sl.GainsNoKey (freshSlot id) :=
  ⟨fun h => absurd h (by simp), .inr rfl⟩

theorem SaSlot.gainsNoKey_released (sl : SaSlot) : sl.GainsNoKey { sl with used := false } := ⟨fun h => h, .inl rfl⟩

/-- A frame gives a slot VALID_KEY by a message 4 only, and a PTK by a message 2 only. -/
theorem FrameCase.sessionKeys {keys : List KeyEntry} {replayEn fcs hs dec : Bool} {F : Bytes} {sl : SaSlot}
    {r : FrameResult} (h : FrameCase keys replayEn fcs hs dec F sl r) :
    (r.slot.validKey = sl.validKey ∨ (hs = true ∧ r.res1.hsMsg = 4)) ∧
      (r.slot.ptk = sl.ptk ∨ (hs = true ∧ r.res1.hsMsg = 2)) := by
  cases h with
  | plain o r _ => exact ⟨.inl rfl, .inl rfl⟩
  | msg1 _ K _ => exact ⟨.inl rfl, .inl rfl⟩
  | msg2 hm k sn _ => exact ⟨.inl rfl, .inr ⟨hm, rfl⟩⟩
  | msg3 _ => exact ⟨.inl rfl, .inl rfl⟩
  | msg4 hm => exact ⟨.inr ⟨hm, rfl⟩, .inl rfl⟩
  | wep _ k P _ _ => exact ⟨.inl rfl, .inl rfl⟩
  | tkip _ P _ _ _ => exact ⟨.inl rfl, .inl rfl⟩
  | ccmp _ P _ _ _ =>
    cases replayEn <;> exact ⟨.inl rfl, .inl rfl⟩

/-- A command gives no slot a session key, or it is a packet whose frame does. -/
theorem ExecCase.sessionKeys {i : Instr} {s t : State} (h : ExecCase i s t) (j : Nat) :
    (s.store.slot j).GainsNoKey (t.store.slot j) ∨
      ∃ fcs rt hs dec len F sl r, i = .processPacket fcs rt hs dec len ∧ (s.store.slot j).GainsNoKey sl ∧
        FrameCase s.keys s.replayEn fcs hs dec F sl r ∧ t.store.slot j = r.slot ∧ t.res1 = res1Word r.res1 := by
  have reached {st : SaStore} {cap k : Nat} {id : SaId} (e : s.store.lookupOrAllocate cap id = some (k, st)) (j : Nat) :
      (s.store.slot j).GainsNoKey (st.slot j) := by
    rcases SaStore.slot_lookupOrAllocate e j with e | e <;> rw [e]
    · exact .refl _
    · exact SaSlot.gainsNoKey_fresh _ _
  cases h with
  | resets ks x _ =>
    refine .inl ?_
    rw [State.finish_store, State.storeReset_store, SaStore.slot_empty]
    exact SaSlot.gainsNoKey_zero _
  | allocates k st _ hl ha =>
    rw [← SaStore.lookupOrAllocate_of_miss hl] at ha
    exact .inl (reached ha j)
  | releases k _ _ =>
    refine .inl ?_
    rcases s.store.slot_set_cases k j { s.store.slot k with used := false } _ _ with ⟨rfl, e⟩ | e
    · exact (congrArg (s.store.slot j).GainsNoKey e).mpr (SaSlot.gainsNoKey_released _)
    · exact (congrArg (s.store.slot j).GainsNoKey e).mpr (.refl _)
  | packet fcs rt hs dec len F id k st r hi _ ha hr =>
    rcases st.slot_set_cases k j r.slot st.ffi st.lsi with ⟨rfl, e⟩ | e
    · exact .inr ⟨fcs, rt, hs, dec, len, F, st.slot j, r, hi, reached ha j, hr, e, rfl⟩
    · exact .inl ((congrArg (s.store.slot j).GainsNoKey e).mpr (reached ha j))
  | _ => exact .inl (.refl _)

/-- Settles O47: only a frame can give a slot a session key, and RES1 reports which message did. -/
theorem sessionKeysComeFromTheHandshake : Obligations.SessionKeysComeFromTheHandshake := by
  intro i s t k h
  rcases (ExecCase.of_exec h).sessionKeys k with hno | ⟨fcs, rt, hs, dec, len, F, sl, r, rfl, hno, hr, hslot, hres⟩
  · refine ⟨fun hold hnew => ?_, fun hne => .inl (hno.ptk.resolve_left hne)⟩
    rw [hno.validKey hnew] at hold
    cases hold
  · rw [hslot, hres, res1Word_hsMsg]
    obtain ⟨hvalid, hptk⟩ := hr.sessionKeys
    constructor
    · intro hold hnew
      rcases hvalid with e | ⟨rfl, hmsg⟩
      · rw [hno.validKey (e ▸ hnew)] at hold
        cases hold
      · exact ⟨⟨_, _, _, _, rfl⟩, hmsg⟩
    · intro hne
      rcases hptk with e | ⟨rfl, hmsg⟩
      · rw [e] at hne ⊢
        exact .inl (hno.ptk.resolve_left hne)
      · exact .inr ⟨⟨_, _, _, _, rfl⟩, hmsg⟩

end Sys2Proof.Machine

/-! The host's accesses, one step lemma per kind and place, and the statements on reads and writes of the window
(spec/10_state.md R16 to R26; spec/20_memory.md R43 to R56). -/

namespace Sys2Proof.Machine

/-! ### One access, one step -/

section
variable (s : State) (rest : List HostAccess) {a : Nat}

theorem step_rd8 (h1 : 0x1000 ≤ a) (h2 : a < 0x10000) :
    step { s with host := .rd8 a :: rest } =
      .next { s with host := rest, hostData := some ((s.hostByte a).setWidth 32) } :=
  step_pending s _ rest (accessRefusal_rd8 _ h1 h2)

theorem step_rd32_register (h : a < 0x1000) (h4 : a % 4 = 0) :
    step { s with host := .rd32 a :: rest } = .next { s with host := rest, hostData := some (s.readRegister a) } := by
  rw [step_pending s _ rest (accessRefusal_rd32 _ (by omega) h4)]
  simp only [legalAccess, if_pos h]
  rfl

theorem step_rd32_window (h1 : 0x1000 ≤ a) (h2 : a < 0x10000) (h4 : a % 4 = 0) :
    step { s with host := .rd32 a :: rest } = .next { s with host := rest, hostData := some (s.hostWord a) } := by
  rw [step_pending s _ rest (accessRefusal_rd32 _ h2 h4)]
  simp only [legalAccess, if_neg (Nat.not_lt.2 h1)]
  rfl

theorem step_wr8 (h1 : 0x1000 ≤ a) (h2 : a < 0x10000) (v : Byte) :
    step { s with host := .wr8 a v :: rest } = .next (State.hostStore { s with host := rest } a [v]) :=
  step_pending s _ rest (accessRefusal_wr8 _ h1 h2 v)

theorem step_wr32_register (h0 : a ≠ 0) (h : a < 0x1000) (h4 : a % 4 = 0) (v : Word) :
    step { s with host := .wr32 a v :: rest } = .next (State.writeRegister { s with host := rest } a v) := by
  rw [step_pending s _ rest (accessRefusal_wr32 _ (by omega) h4 v)]
  simp only [legalAccess, if_neg h0, if_pos h]

theorem step_wr32_window (h1 : 0x1000 ≤ a) (h2 : a < 0x10000) (h4 : a % 4 = 0) (v : Word) :
    step { s with host := .wr32 a v :: rest } = .next (State.hostStore { s with host := rest } a (le32Bytes v)) := by
  rw [step_pending s _ rest (accessRefusal_wr32 _ h2 h4 v)]
  simp only [legalAccess, if_neg (Nat.not_lt.2 h1), if_neg (show a ≠ 0x000 by omega)]

end

/-- Settles O6: an aligned write of offset 0 is never refused, and a command leaves CMD and the host's queue alone. -/
theorem stepRunsDecodedCommand : Obligations.StepRunsDecodedCommand := by
  intro s w rest h
  have hstep : step s = runCommand w { s with host := rest, cmd := w } :=
    step_access h (accessRefusal_wr32 s.params (by decide) (by decide) w)
  refine ⟨hstep, fun i hi => by rw [hstep, runCommand, hi], ?_⟩
  obtain ⟨t, ht, -, hcontrol⟩ := runCommand_reports w { s with host := rest, cmd := w }
  exact ⟨t, hstep.trans ht, hcontrol.cmd, hcontrol.host⟩

/-! ### Registers (R16 to R26) -/

theorem State.readRegister_reserved (s : State) {off : Nat} (h : off = 0x008 ∨ 0x028 ≤ off) : s.readRegister off = 0 := by
  simp only [State.readRegister]
  repeat rw [if_neg (by omega)]

/-- Settles O7: one step lemma, read at each offset of the register file. -/
theorem registerReads : Obligations.RegisterReads := by
  intro s rest reads
  have register {off : Nat} (h : off < 0x1000) (h4 : off % 4 = 0) : reads off (s.readRegister off) :=
    step_rd32_register s rest h h4
  refine ⟨register (by decide) (by decide), register (by decide) (by decide), register (by decide) (by decide),
    register (by decide) (by decide), register (by decide) (by decide), register (by decide) (by decide),
    register (by decide) (by decide), register (off := 0x020) (by decide) (by decide),
    fun _ => register (off := 0x024) (by decide) (by decide), fun off h4 h => ?_⟩
  rw [← s.readRegister_reserved (off := off) (by omega)]
  exact register (by omega) h4

/-- Bit 0 of a word with zeros above (R23). -/
theorem and_one_eq_extract (v : Word) : v &&& 1 = (v.extractLsb' 0 1).setWidth 32 := by
  apply BitVec.eq_of_getLsbD_eq
  intro i hi
  by_cases h : i = 0
  · subst h
    simp
  · simp [BitVec.getLsbD_one, h]

theorem State.writeRegister_ignored (s : State) {off : Nat} (h4 : off ≠ 0x004) (hc : off ≠ 0x01C) (v : Word) :
    s.writeRegister off v = s := by simp only [State.writeRegister, if_neg h4, if_neg hc]

/-- Settles O8: one step lemma, with what `writeRegister` does at ARG0, at CTRL and elsewhere. -/
theorem registerWrites : Obligations.RegisterWrites := by
  intro s rest v writes
  refine ⟨step_wr32_register s rest (by decide) (by decide) (by decide) v, ?_, fun off h4 h => ?_⟩
  · refine (step_wr32_register s rest (by decide) (by decide) (by decide) v).trans ?_
    rw [← and_one_eq_extract]
    rfl
  · have hoff : off ≠ 0 ∧ off < 0x1000 ∧ off ≠ 0x004 ∧ off ≠ 0x01C := by
      simp only [List.mem_cons, List.not_mem_nil, or_false] at h
      omega
    obtain ⟨h0, hlt, hne4, hnec⟩ := hoff
    refine (step_wr32_register s rest h0 hlt h4 v).trans ?_
    rw [State.writeRegister_ignored _ hne4 hnec]

/-! ### Bytes and words (R47, R49) -/

theorem getElem_le32Bytes (v : Word) (k : Nat) (h : k < (le32Bytes v).length) :
    (le32Bytes v)[k] = v.extractLsb' (8 * k) 8 := by
  rw [length_le32Bytes] at h
  interval_cases k <;> rfl

/-- A word is its four bytes. -/
theorem word_eq_bytes (v : Word) :
    v.extractLsb' 24 8 ++ v.extractLsb' 16 8 ++ v.extractLsb' 8 8 ++ v.extractLsb' 0 8 = v := by
  apply BitVec.eq_of_getLsbD_eq
  intro i hi
  refine (BitVec.getLsbD_append (x := v.extractLsb' 24 8 ++ v.extractLsb' 16 8 ++ v.extractLsb' 8 8)
    (y := v.extractLsb' 0 8) (i := i)).trans ?_
  simp only [BitVec.getLsbD_append, BitVec.getLsbD_extractLsb']
  by_cases h8 : i < 8
  · simp [h8]
  by_cases h16 : i < 16
  · simp [h8, show i - 8 < 8 by omega, show 8 + (i - 8) = i by omega]
  by_cases h24 : i < 24
  · simp [h8, show ¬ i - 8 < 8 by omega, show i - 8 - 8 < 8 by omega, show 16 + (i - 8 - 8) = i by omega]
  · simp [h8, show ¬ i - 8 < 8 by omega, show ¬ i - 8 - 8 < 8 by omega, show i - 8 - 8 - 8 < 8 by omega,
      show 24 + (i - 8 - 8 - 8) = i by omega]

/-- Above the registers and in no buffer a read sees 0 (R52). -/
theorem State.hostByte_reserved {s : State} {a : Nat} (h1 : 0x1000 ≤ a) (h2 : a < 0x10000)
    (h : ∀ b : Buffer, b.contains s.params a = false) : s.hostByte a = 0 := by
  rcases regionOf_cases s.params h1 h2 with ⟨b, -, hb⟩ | ⟨e, -⟩
  · rw [h b] at hb
    cases hb
  · simp only [State.hostByte, e]

theorem State.hostWord_reserved {s : State} {a : Nat} (h1 : 0x1000 ≤ a) (h2 : a < 0x10000) (h4 : a % 4 = 0)
    (h : ∀ b : Buffer, b.contains s.params a = false) : s.hostWord a = 0 := by
  have hbyte : ∀ k, k < 4 → s.hostByte (a + k) = 0 := fun k hk =>
    State.hostByte_reserved (by omega) (by omega) fun b => by rw [contains_word h4 hk, h b]
  simp only [State.hostWord, hbyte 3 (by omega), hbyte 2 (by omega), hbyte 1 (by omega),
    State.hostByte_reserved h1 h2 h]
  rfl

/-- A host write outside the registers touches the memory only. -/
theorem State.hostStore_frame (s : State) (a : Nat) (v : Bytes) : ∃ m, s.hostStore a v = { s with mem := m } := by
  rcases hostStore_cases s a v with e | ⟨b, -, -, e⟩
  · exact ⟨s.mem, e⟩
  · exact ⟨_, e⟩

theorem State.hostStore_params (s : State) (a : Nat) (v : Bytes) : (s.hostStore a v).params = s.params := by
  obtain ⟨m, e⟩ := s.hostStore_frame a v
  rw [e]

theorem State.hostStore_host (s : State) (a : Nat) (v : Bytes) : (s.hostStore a v).host = s.host := by
  obtain ⟨m, e⟩ := s.hostStore_frame a v
  rw [e]

theorem bufferOffset_of_writableOffset {p : Params} {a : Nat} (h : writableOffset p a) : bufferOffset p a := by
  obtain ⟨b, -, hb⟩ := writableOffset_iff.1 h
  exact bufferOffset_iff.2 ⟨b, hb⟩

theorem bufferOffset_range {p : Params} (hp : paramsLegal p) {a : Nat} (h : bufferOffset p a) :
    0x1000 ≤ a ∧ a < 0x10000 := by
  obtain ⟨b, hb⟩ := bufferOffset_iff.1 h
  exact contains_range hp hb

/-- The four bytes of an aligned word in a buffer are bytes of a buffer. -/
theorem bufferOffset_word {p : Params} {a k : Nat} (h : bufferOffset p a) (h4 : a % 4 = 0) (hk : k < 4) :
    bufferOffset p (a + k) := by
  obtain ⟨b, hb⟩ := bufferOffset_iff.1 h
  exact bufferOffset_iff.2 ⟨b, (contains_word h4 hk).trans hb⟩

/-- Reads of a buffer return its bytes (R47, R52). -/
theorem step_rd8_buffer (s : State) (rest : List HostAccess) {a : Nat} (hp : paramsLegal s.params)
    (h : bufferOffset s.params a) :
    step { s with host := .rd8 a :: rest } =
      .next { s with host := rest, hostData := some ((s.readByte a).setWidth 32) } := by
  obtain ⟨h1, h2⟩ := bufferOffset_range hp h
  rw [step_rd8 s rest h1 h2, hostByte_of_bufferOffset hp h]

theorem step_rd32_buffer (s : State) (rest : List HostAccess) {a : Nat} (hp : paramsLegal s.params)
    (h : bufferOffset s.params a) (h4 : a % 4 = 0) :
    step { s with host := .rd32 a :: rest } = .next { s with
      host := rest
      hostData := some (s.readByte (a + 3) ++ s.readByte (a + 2) ++ s.readByte (a + 1) ++ s.readByte a) } := by
  obtain ⟨h1, h2⟩ := bufferOffset_range hp h
  rw [step_rd32_window s rest h1 h2 h4, hostWord_of_bufferOffset hp h h4]

/-- The bytes of a word written at a writable offset, each where R47 puts it. -/
theorem readByte_hostStore_word {s : State} (hp : paramsLegal s.params) {a : Nat} (h : writableOffset s.params a) (v : Word)
    {k : Nat} (hk : k < 4) : (s.hostStore a (le32Bytes v)).readByte (a + k) = v.extractLsb' (8 * k) 8 :=
  (readByte_hostStore_same hp h (le32Bytes v) k hk).trans (getElem_le32Bytes v k hk)

/-- Settles O9: after the write, the state's bytes are known, and the two read lemmas apply to it. -/
theorem hostWordsAreLittleEndian : Obligations.HostWordsAreLittleEndian := by
  intro s rest a hp
  refine ⟨fun h => ⟨step_rd8_buffer s rest hp h, step_rd32_buffer s rest hp h⟩, fun h h4 v => ?_⟩
  have hbuf := bufferOffset_of_writableOffset h
  obtain ⟨h1, h2⟩ := bufferOffset_range hp hbuf
  refine ⟨_, step_wr32_window s rest h1 h2 h4 v, ?_⟩
  have hparams := State.hostStore_params { s with host := rest } a (le32Bytes v)
  have hbytes {k : Nat} (hk : k < 4) :
      (State.hostStore { s with host := rest } a (le32Bytes v)).readByte (a + k) = v.extractLsb' (8 * k) 8 :=
    readByte_hostStore_word (s := { s with host := rest }) hp h v hk
  have hother (x : Nat) (hx : x < a ∨ a + 4 ≤ x) :
      (State.hostStore { s with host := rest } a (le32Bytes v)).readByte x = s.readByte x :=
    readByte_hostStore_other { s with host := rest } a (le32Bytes v) x hx
  generalize State.hostStore { s with host := rest } a (le32Bytes v) = t at hparams hbytes hother ⊢
  have hpt : paramsLegal t.params := hparams ▸ hp
  have hbt : bufferOffset t.params a := hparams ▸ hbuf
  refine ⟨fun k hk => hbytes hk, hother, ?_, fun k hk => ?_⟩
  · have hword : t.readByte (a + 3) ++ t.readByte (a + 2) ++ t.readByte (a + 1) ++ t.readByte a = v := by
      rw [hbytes (by decide : 3 < 4), hbytes (by decide : 2 < 4), hbytes (by decide : 1 < 4),
        show t.readByte a = v.extractLsb' (8 * 0) 8 from hbytes (by decide : 0 < 4)]
      exact word_eq_bytes v
    rw [step_rd32_buffer t rest hpt hbt h4, hword]
  · rw [step_rd8_buffer t rest hpt (bufferOffset_word hbt h4 hk), hbytes hk]

/-- Settles O10: no writable offset, no store; no buffer, no byte but 0. -/
theorem readOnlyAndReservedOffsets : Obligations.ReadOnlyAndReservedOffsets := by
  intro s rest a h1 h2
  constructor
  · intro h
    have hno : ¬ writableOffset s.params a := fun hw => by
      obtain ⟨b, hb, hc⟩ := writableOffset_iff.1 hw
      rw [h b hb] at hc
      cases hc
    have hignored (v : Bytes) : State.hostStore { s with host := rest } a v = { s with host := rest } :=
      hostStore_ignored (s := { s with host := rest }) hno v
    exact ⟨fun v => by rw [step_wr8 s rest h1 h2, hignored], fun h4 v => by rw [step_wr32_window s rest h1 h2 h4, hignored]⟩
  · intro h
    refine ⟨?_, fun h4 => ?_⟩
    · rw [step_rd8 s rest h1 h2, State.hostByte_reserved h1 h2 h]
      rfl
    · rw [step_rd32_window s rest h1 h2 h4, State.hostWord_reserved h1 h2 h4 h]

/-! ### What a write leaves alone, and that it can be repeated (R54 to R56) -/

/-- A legal read answers the same value whatever the host read before, and changes nothing else. -/
theorem step_read (s : State) {a : HostAccess} (rest : List HostAccess) (ha : a.legal)
    (hr : ∃ off, a = .rd8 off ∨ a = .rd32 off) :
    ∃ v, ∀ d, step { s with host := a :: rest, hostData := d } = .next { s with host := rest, hostData := some v } := by
  obtain ⟨off, rfl | rfl⟩ := hr
  · exact ⟨(s.hostByte off).setWidth 32, fun d => step_rd8 { s with hostData := d } rest ha.1 ha.2⟩
  · by_cases hoff : off < 0x1000
    · exact ⟨s.readRegister off, fun d => step_rd32_register { s with hostData := d } rest hoff ha.2⟩
    · exact ⟨s.hostWord off, fun d => step_rd32_window { s with hostData := d } rest (Nat.not_lt.1 hoff) ha.1 ha.2⟩

/-- Nothing but ARG0, CTRL and the buffers differs, and the host's queue is `rest`. -/
def State.KeepsButHostWritten (s t : State) (rest : List HostAccess) : Prop :=
  t.cmd = s.cmd ∧ t.status = s.status ∧ t.res0 = s.res0 ∧ t.res1 = s.res1 ∧ t.outLen = s.outLen ∧ t.store = s.store ∧
    t.keys = s.keys ∧ t.params = s.params ∧ t.hostData = s.hostData ∧ t.host = rest

theorem State.hostStore_keeps (s : State) (rest : List HostAccess) (a : Nat) (v : Bytes) :
    s.KeepsButHostWritten (State.hostStore { s with host := rest } a v) rest ∧
      (State.hostStore { s with host := rest } a v).arg0 = s.arg0 ∧
      (State.hostStore { s with host := rest } a v).ctrl = s.ctrl := by
  obtain ⟨m, e⟩ := State.hostStore_frame { s with host := rest } a v
  rw [e]
  exact ⟨⟨rfl, rfl, rfl, rfl, rfl, rfl, rfl, rfl, rfl, rfl⟩, rfl, rfl⟩

theorem State.writeRegister_keeps (s : State) (rest : List HostAccess) (off : Nat) (v : Word) :
    s.KeepsButHostWritten (State.writeRegister { s with host := rest } off v) rest := by
  rcases writeRegister_cases { s with host := rest } off v with e | e | e <;> rw [e] <;>
    exact ⟨rfl, rfl, rfl, rfl, rfl, rfl, rfl, rfl, rfl, rfl⟩

theorem State.writeRegister_host (s : State) (off : Nat) (v : Word) : (s.writeRegister off v).host = s.host := by
  rcases writeRegister_cases s off v with e | e | e <;> rw [e]

theorem State.writeRegister_arg0 (s : State) (off : Nat) (v : Word) :
    (s.writeRegister off v).arg0 = if off = 0x004 then v else s.arg0 := by
  simp only [State.writeRegister]
  split
  · rfl
  · split <;> rfl

theorem State.writeRegister_ctrl (s : State) (off : Nat) (v : Word) :
    (s.writeRegister off v).ctrl = if off = 0x01C then (v.extractLsb' 0 1).setWidth 32 else s.ctrl := by
  rw [← and_one_eq_extract]
  simp only [State.writeRegister]
  split
  · rw [if_neg (by omega)]
  · split <;> rfl

theorem State.readByte_writeRegister (s : State) (off : Nat) (v : Word) (x : Nat) :
    (s.writeRegister off v).readByte x = s.readByte x := by
  rcases writeRegister_cases s off v with e | e | e <;> rw [e] <;> rfl

theorem State.writeRegister_writeRegister (s : State) (off : Nat) (v : Word) :
    (s.writeRegister off v).writeRegister off v = s.writeRegister off v := by
  by_cases h4 : off = 0x004
  · subst h4
    rfl
  by_cases hc : off = 0x01C
  · subst hc
    rfl
  · rw [s.writeRegister_ignored h4 hc, s.writeRegister_ignored h4 hc]

/-- A state whose queue is `rest` already. -/
theorem State.with_host_eq {t : State} {rest : List HostAccess} (h : t.host = rest) : { t with host := rest } = t := by
  subst h
  rfl

/-- Settles O12: reads by `step_read`; a write is a register write or a buffer write, each with what it keeps, what it stores
and that it can be repeated. -/
theorem hostAccessesDoNothingElse : Obligations.HostAccessesDoNothingElse := by
  unfold Obligations.HostAccessesDoNothingElse
  intro keeps
  refine ⟨fun s a rest ha hr => ?_, fun s rest a v h1 h2 => ?_, fun s rest a v h0 h2 h4 => ?_⟩
  · obtain ⟨v, hv⟩ := step_read s rest ha hr
    exact ⟨v, hv s.hostData, hv (some v)⟩
  · obtain ⟨hkeeps, harg0, hctrl⟩ := s.hostStore_keeps rest a [v]
    refine ⟨_, step_wr8 s rest h1 h2 v, hkeeps, harg0, hctrl, fun x hx => ?_, fun hp => ⟨fun hw => ?_, fun hw => ?_⟩, ?_⟩
    · exact readByte_hostStore_other { s with host := rest } a [v] x (by simp only [List.length_singleton]; omega)
    · exact readByte_hostStore_same (s := { s with host := rest }) hp hw [v] 0 (by simp)
    · rw [hostStore_ignored (s := { s with host := rest }) hw]
      rfl
    · rw [step_wr8 _ rest h1 h2 v, State.with_host_eq (State.hostStore_host _ _ _), hostStore_hostStore]
  · by_cases hreg : a < 0x1000
    · refine ⟨_, step_wr32_register s rest (by omega) hreg h4 v, s.writeRegister_keeps rest a v,
        State.writeRegister_arg0 _ _ _, State.writeRegister_ctrl _ _ _, fun x _ => State.readByte_writeRegister _ _ _ _,
        fun _ => ⟨fun hw => ?_, fun _ x => State.readByte_writeRegister _ _ _ _⟩, ?_⟩
      · simp only [writableOffset] at hw
        omega
      · rw [step_wr32_register _ rest (by omega) hreg h4 v, State.with_host_eq (State.writeRegister_host _ _ _),
          State.writeRegister_writeRegister]
    · have h1 : 0x1000 ≤ a := Nat.not_lt.1 hreg
      obtain ⟨hkeeps, harg0, hctrl⟩ := s.hostStore_keeps rest a (le32Bytes v)
      refine ⟨_, step_wr32_window s rest h1 h2 h4 v, hkeeps, ?_, ?_,
        readByte_hostStore_other { s with host := rest } a (le32Bytes v),
        fun hp => ⟨fun hw k hk => readByte_hostStore_word (s := { s with host := rest }) hp hw v hk, fun hw x => ?_⟩, ?_⟩
      · rw [harg0, if_neg (by omega)]
      · rw [hctrl, if_neg (by omega)]
      · rw [hostStore_ignored (s := { s with host := rest }) hw]
        rfl
      · rw [step_wr32_window _ rest h1 h2 h4 v, State.with_host_eq (State.hostStore_host _ _ _), hostStore_hostStore]

end Sys2Proof.Machine

/-! Which host accesses are refused (spec/20_memory.md R54, R55), which buffer bytes a command may write (R61, R64), and
where the ids of the SA store come from (R62, R109, R111). -/

namespace Sys2Proof.Machine

/-! ### Refused accesses (R54, R55) -/

theorem regionOf_outside (p : Params) {a : Nat} (h : 0x10000 ≤ a) : regionOf p a = .outside := by
  simp only [regionOf, if_pos h]

theorem regionOf_register (p : Params) {a : Nat} (h : a < 0x1000) : regionOf p a = .register := by
  simp only [regionOf, if_pos h]
  rw [if_neg (by omega)]

theorem accessRefusal_rd8_iff {p : Params} {off : Nat} :
    accessRefusal p (.rd8 off) = none ↔ 0x1000 ≤ off ∧ off < 0x10000 := by
  refine ⟨fun h => ?_, fun h => accessRefusal_rd8 p h.1 h.2⟩
  by_contra hc
  have hregion : off < 0x1000 ∨ 0x10000 ≤ off := by omega
  rcases hregion with hlow | hhigh
  · simp [accessRefusal, regionOf_register p hlow] at h
  · simp [accessRefusal, regionOf_outside p hhigh] at h

theorem accessRefusal_rd32_iff {p : Params} {off : Nat} :
    accessRefusal p (.rd32 off) = none ↔ off < 0x10000 ∧ off % 4 = 0 := by
  refine ⟨fun h => ?_, fun h => accessRefusal_rd32 p h.1 h.2⟩
  simp only [accessRefusal] at h
  split at h
  · cases h
  split at h
  · cases h
  · omega

/-- The engine admits the accesses that R55 calls legal and no others; a write is admitted where a read is. -/
theorem accessRefusal_eq_none_iff {p : Params} {a : HostAccess} : accessRefusal p a = none ↔ a.legal := by
  cases a with
  | rd8 off => exact accessRefusal_rd8_iff
  | rd32 off => exact accessRefusal_rd32_iff
  | wr8 off v => exact accessRefusal_rd8_iff (p := p) (off := off)
  | wr32 off v => exact accessRefusal_rd32_iff (p := p) (off := off)
  | otherWidth bits off => exact ⟨(fun h => nomatch h), False.elim⟩
  | reset => exact ⟨fun _ => trivial, fun _ => rfl⟩

/-- Settles O11: a step is refused where `accessRefusal` says so and nowhere else, since every command completes. -/
theorem refusedAccessesExactly : Obligations.RefusedAccessesExactly := by
  intro s a rest h
  rcases step_cases s with ⟨hnil, -⟩ | ⟨a', rest', hcons, hstep⟩
  · rw [h] at hnil
    cases hnil
  rw [h] at hcons
  cases hcons
  rw [← accessRefusal_eq_none_iff (p := s.params)]
  rcases hstep with ⟨r, hr, e⟩ | ⟨hr, he⟩
  · exact ⟨fun hl => absurd (hr.symm.trans hl) (Option.some_ne_none r), fun _ => ⟨r, e⟩⟩
  · refine ⟨fun _ => ?_, fun hl => absurd hr hl⟩
    rcases he with ⟨w, -, e⟩ | ⟨-, t, -, e⟩
    · obtain ⟨t, ht, -⟩ := runCommand_reports w { s with host := rest, cmd := w }
      exact ⟨t, e.trans ht⟩
    · exact ⟨t, e⟩

/-! ### The rows of R64 -/

theorem State.SameBuffers.but {s t : State} (h : s.SameBuffers t) (lo n : Nat) : s.SameBuffersBut t lo n :=
  fun a _ => h a

/-- The row of a standalone pipeline command is FRAME_OUT. -/
theorem bufferRow_pipeline {i : Instr} (s : State)
    (hi : ∃ fcs len, i = .wepDecrypt fcs len ∨ i = .tkipDecrypt fcs len ∨ i = .ccmpDecrypt fcs len) :
    bufferRow i s = (Buffer.base .frameOut, Config.frameBufLen) := by
  obtain ⟨fcs, len, rfl | rfl | rfl⟩ := hi <;> rfl

/-- A command leaves the bytes outside its row alone: it writes no buffer, the bytes of its row, or FRAME_OUT. -/
theorem ExecCase.sameBuffersBut {i : Instr} {s t : State} (h : ExecCase i s t) (hs : s.Inv) :
    s.SameBuffersBut t (bufferRow i s).1 (bufferRow i s).2 := by
  cases h with
  | illegal r => exact State.SameBuffers.but (fun _ => rfl) _ _
  | report o r x => exact State.SameBuffers.but (fun _ => rfl) _ _
  | result b v x _ _ _ hv =>
    rw [(hv hs).1]
    exact fun a ha => readByte_memWrite_other s b 0 v a ha
  | resets ks x => exact State.SameBuffers.but (fun _ => rfl) _ _
  | allocates k st => exact State.SameBuffers.but (fun _ => rfl) _ _
  | releases k => exact State.SameBuffers.but (fun _ => rfl) _ _
  | pipeFails o r _ _ hi =>
    rw [bufferRow_pipeline s hi]
    exact readByte_finishFrame_other s _ _ _ _ _ _
  | pipeRuns x c out _ hi =>
    rw [bufferRow_pipeline s hi]
    exact readByte_finishFrame_other s _ _ _ _ _ _
  | packetStops e _ hi =>
    obtain ⟨fcs, rt, hm, dec, len, rfl⟩ := hi
    exact readByte_finishFrame_other s _ _ _ _ _ _
  | packet fcs rt hm dec len F id k st r hi =>
    subst hi
    exact (finishFrame_frameOnly s _ _ _ _ _ _ _).buffers

/-- Settles O23 by the cases of `exec_cases`. -/
theorem commandsWriteOnlyTheirBufferRow : Obligations.CommandsWriteOnlyTheirBufferRow :=
  fun _ _ _ hs h => (ExecCase.of_exec h).sameBuffersBut hs

/-! ### The ids of the store (R62, R109, R111) -/

/-- In a store that meets I1, `Lookup` misses exactly the ids that no used slot holds. -/
theorem SaStore.lookup_eq_none_iff {st : SaStore} {id : SaId} (hb : st.usedBelowLsi) :
    st.lookup id = none ↔ ∀ j, (st.slot j).used = true → (st.slot j).id ≠ id := by
  refine ⟨SaStore.lookup_none hb, fun h => ?_⟩
  rcases st.lookup_spec id with ⟨k, -, -, hu, hid⟩ | ⟨e, -⟩
  · exact absurd hid (h k hu)
  · exact e

/-- An id that `Lookup` finds is held by a used slot. -/
theorem SaStore.holds_of_lookup {st : SaStore} {id : SaId} (h : st.lookup id ≠ none) : ∃ j, st.holds id j = true := by
  rcases st.lookup_spec id with ⟨k, -, -, hu, hid⟩ | ⟨e, -⟩
  · exact ⟨k, SaStore.holds_iff.2 ⟨hu, hid⟩⟩
  · exact absurd e h

/-- A slot still used after a release is one of the others, unchanged (R105). -/
theorem SaStore.release_slot_of_used {st : SaStore} {k j : Nat} (h : ((st.release k).slot j).used = true) :
    (st.release k).slot j = st.slot j := by
  rcases st.slot_set_cases k j { st.slot k with used := false } _ _ with ⟨-, e⟩ | e
  · exact absurd ((congrArg SaSlot.used e).symm.trans h) Bool.false_ne_true
  · exact e

theorem SaStore.holds_of_holds_release {st : SaStore} {k j : Nat} {id : SaId} (h : (st.release k).holds id j = true) :
    st.holds id j = true := by
  have e := SaStore.release_slot_of_used (SaStore.holds_iff.1 h).1
  rwa [SaStore.holds, e] at h

/-- New contents with the same USED and the same id leave the ids where they are. -/
theorem SaStore.holds_setSlot {st : SaStore} {k : Nat} {sl : SaSlot} (hu : sl.used = (st.slot k).used)
    (hid : sl.id = (st.slot k).id) (id : SaId) (j : Nat) : (st.setSlot k sl).holds id j = st.holds id j := by
  have hslot : ((st.setSlot k sl).slot j).used = (st.slot j).used ∧ ((st.setSlot k sl).slot j).id = (st.slot j).id := by
    rcases st.slot_set_cases k j sl st.ffi st.lsi with ⟨rfl, e⟩ | e
    · exact ⟨(congrArg SaSlot.used e).trans hu, (congrArg SaSlot.id e).trans hid⟩
    · exact ⟨congrArg SaSlot.used e, congrArg SaSlot.id e⟩
  rw [SaStore.holds, SaStore.holds, hslot.1, hslot.2]

/-- Reaching an SA adds its id to the store and no other (R108). -/
theorem SaStore.holds_lookupOrAllocate {st st' : SaStore} {cap j k : Nat} {id id' : SaId}
    (ha : st.lookupOrAllocate cap id = some (k, st')) (h : st'.holds id' j = true) : st.holds id' j = true ∨ id = id' := by
  obtain ⟨hu, hid⟩ := SaStore.holds_iff.1 h
  rcases SaStore.slot_lookupOrAllocate ha j with e | e <;> rw [e] at hu hid
  · exact .inl (SaStore.holds_iff.2 ⟨hu, hid⟩)
  · exact .inr hid

/-- By I2 the id of a released slot is held by no used slot any more. -/
theorem SaStore.Sound.lookup_release {st : SaStore} {cap k : Nat} (hs : st.Sound cap) (hu : (st.slot k).used = true) :
    (st.release k).lookup (st.slot k).id = none := by
  have hk : k < st.slots.length := SaStore.lt_of_used hu
  have hsound : (st.release k).Sound cap := hs.release (hs.inRange.1 ▸ hk)
  refine (SaStore.lookup_eq_none_iff hsound.usedBelowLsi).2 fun j hj hid => ?_
  have e := SaStore.release_slot_of_used hj
  obtain rfl : j = k := hs.idsDistinct j k (e ▸ hj) hu (e ▸ hid)
  rw [SaStore.release_slot_same hk] at hj
  cases hj

theorem exec_saRelease {s : State} {k : Nat} (hk : k < s.params.saCap) :
    exec (.saRelease k) s =
      .next ((s.withStore (s.store.release k)).finish (Instr.opcode (.saRelease k)) .ok .none 0 0 0) := by
  simp only [exec, execSaRelease, if_neg (Nat.not_le.2 hk)]

/-- A frame leaves USED and the id of its slot (R172). -/
theorem FrameCase.sameSa {keys : List KeyEntry} {replayEn fcs hs dec : Bool} {F : Bytes} {sl : SaSlot} {r : FrameResult}
    (h : FrameCase keys replayEn fcs hs dec F sl r) : r.slot.used = sl.used ∧ r.slot.id = sl.id := by
  cases h with
  | ccmp _ P _ _ _ => cases replayEn <;> exact ⟨rfl, rfl⟩
  | _ => exact ⟨rfl, rfl⟩

/-- An id that slot `j` holds after a command was there before, or was named by the SA_ALLOCATE or by the data frame that the
command was given. -/
theorem ExecCase.holds {i : Instr} {s t : State} {id : SaId} {j : Nat} (h : ExecCase i s t)
    (hj : t.store.holds id j = true) :
    s.store.holds id j = true ∨ (i = .saAllocate ∧ s.paramId = id) ∨
      ∃ fcs rt hs dec len F, i = .processPacket fcs rt hs dec len ∧ s.DataFrame fcs rt len F id := by
  cases h with
  | resets ks x _ =>
    have hu := (SaStore.holds_iff.1 hj).1
    rw [State.finish_store, State.storeReset_store, SaStore.slot_empty] at hu
    cases hu
  | allocates k st hi hl ha =>
    rw [← SaStore.lookupOrAllocate_of_miss hl] at ha
    exact (SaStore.holds_lookupOrAllocate ha hj).imp_right fun e => .inl ⟨hi, e⟩
  | releases k _ _ => exact .inl (SaStore.holds_of_holds_release hj)
  | packet fcs rt hs dec len F fid k st r hi hd ha hr =>
    have hst : st.holds id j = true := by
      obtain ⟨hu, hid⟩ := hr.sameSa
      rwa [State.finishFrame_store, State.withStore_store, SaStore.holds_setSlot hu hid] at hj
    exact (SaStore.holds_lookupOrAllocate ha hst).imp_right fun (e : fid = id) =>
      .inr ⟨fcs, rt, hs, dec, len, F, hi, e ▸ hd⟩
  | _ => exact .inl hj

/-- Settles O31: a released id is gone by I2, and the cases of `exec_cases` say which commands bring an id into the store. -/
theorem releasedIdIsNotFound : Obligations.ReleasedIdIsNotFound := by
  constructor
  · intro s t k hs hu h
    have hk : k < s.params.saCap := hs.store.inRange.1 ▸ SaStore.lt_of_used hu
    rw [exec_saRelease hk] at h
    cases h
    exact hs.store.lookup_release hu
  · intro i t u id ht hmiss h hfound
    obtain ⟨j, hj⟩ := SaStore.holds_of_lookup hfound
    refine ((ExecCase.of_exec h).holds hj).resolve_left fun hold => ?_
    obtain ⟨hu, hid⟩ := SaStore.holds_iff.1 hold
    exact SaStore.lookup_none ht.store.usedBelowLsi hmiss j hu hid

end Sys2Proof.Machine

/-! The encoding of commands (spec/30_encoding.md R66 to R72): `decodeWord` and `encode` are inverse to each other, which
words are no command, and what an illegal command leaves; then the class of an EAPOL-Key body and the addresses of a data
frame (R81, R90). -/

namespace Sys2Proof.Machine

/-! ### The fields of a word (R66, R67) -/

/-- A word is its IMM, FLAGS and OPC fields, from high to low. -/
theorem word_eq_fields (w : Word) : w.extractLsb' 16 16 ++ flagsField w ++ opcField w = w := by
  apply BitVec.eq_of_getLsbD_eq
  intro i hi
  rw [Laws.getLsbD_word]
  by_cases h8 : i < 8
  · simp [opcField, h8]
  by_cases h16 : i - 8 < 8
  · simp [flagsField, h8, h16, show 8 + (i - 8) = i by omega]
  · simp [h8, h16, show i - 8 - 8 < 16 by omega, show 16 + (i - 8 - 8) = i by omega]

theorem immField_lt (w : Word) : immField w < 2 ^ 16 := BitVec.isLt _

/-- A word whose three fields are those of a command is the encoding of that command, which is then well formed. -/
theorem encode_eq_of_fields {i : Instr} {w : Word} (hopc : i.opcode = opcField w) (hflags : i.flags = flagsField w)
    (himm : i.imm = immField w) : i.wellFormed = true ∧ encode i = w := by
  refine ⟨decide_eq_true (himm ▸ immField_lt w), ?_⟩
  rw [encode, hopc, hflags, himm, immField, BitVec.ofNat_toNat, BitVec.setWidth_eq, word_eq_fields]

theorem immField_encode {i : Instr} (h : i.wellFormed = true) : immField (encode i) = i.imm :=
  (Laws.EncodedFields.of_fields i).2.2 h

theorem flagBit_encode (i : Instr) (k : Nat) : flagBit (encode i) k = i.flags.getLsbD k := by
  rw [flagBit, (Laws.EncodedFields.of_fields i).2.1]

/-! ### The rows of the opcode table (R68, R69, R71) -/

theorem fields_and_mask (imm : Half) (flags opc fm : Byte) :
    (imm ++ flags ++ opc) &&& (0#16 ++ fm ++ BitVec.allOnes 8) = 0#16 ++ (flags &&& fm) ++ opc := by
  simp only [BitVec.and_append, BitVec.and_zero, BitVec.and_allOnes]

/-- A mask that leaves IMM free has its fixed bits 0 but for OPC exactly when the word has the OPC, and 0 in FLAGS where the
mask fixes it. -/
theorem and_mask_eq_iff (w : Word) (fm opc : Byte) :
    w &&& (0#16 ++ fm ++ BitVec.allOnes 8) = 0#16 ++ 0#8 ++ opc ↔ opcField w = opc ∧ flagsField w &&& fm = 0 := by
  have hand : w &&& (0#16 ++ fm ++ BitVec.allOnes 8) = 0#16 ++ (flagsField w &&& fm) ++ opcField w :=
    (congrArg (· &&& _) (word_eq_fields w).symm).trans (fields_and_mask _ _ _ fm)
  rw [hand]
  constructor
  · intro h
    obtain ⟨ho, hf, -⟩ := Laws.fields_of_word 0#16 (flagsField w &&& fm) (opcField w)
    obtain ⟨ho', hf', -⟩ := Laws.fields_of_word 0#16 0#8 opc
    exact ⟨ho.symm.trans ((congrArg opcField h).trans ho'), hf.symm.trans ((congrArg flagsField h).trans hf')⟩
  · rintro ⟨ho, hf⟩
    rw [ho, hf]
    rfl

/-- A row fixes its OPC, and no other bit at 1. -/
theorem pattern_eq_opcField : ∀ r ∈ opcodeRows, r.pattern = 0#16 ++ 0#8 ++ opcField r.pattern := by
  simp only [opcodeRows, List.forall_mem_cons]
  decide

/-- A command comes from a row of the table whose fixed bits the word has. -/
theorem row_of_decodeWord {w : Word} {i : Instr} (h : decodeWord w = .ok i) :
    ∃ r ∈ opcodeRows, w &&& r.mask = r.pattern ∧ r.build w = i := by
  simp only [decodeWord] at h
  split at h
  · cases h
  · rename_i r hr
    split at h <;> cases h
    exact ⟨r, List.mem_of_find?_eq_some hr, ‹_›, rfl⟩

/-- A command with an IMM decodes from its word if the row of its opcode fixes no FLAGS bit that the command sets, and
makes the command back from the word's fields. -/
theorem decodeWord_encode_of_row {i : Instr} {r : OpcodeRow} (fm : Byte) (hr : rowOf i.opcode = some r)
    (hmask : r.mask = 0#16 ++ fm ++ BitVec.allOnes 8) (hflags : i.flags &&& fm = 0) (hbuild : r.build (encode i) = i) :
    decodeWord (encode i) = .ok i := by
  obtain ⟨ho, hf, -⟩ := Laws.EncodedFields.of_fields i
  have hopc : opcField r.pattern = i.opcode := by simpa using List.find?_some hr
  have hfix : encode i &&& r.mask = r.pattern := by
    rw [hmask, pattern_eq_opcField r (List.mem_of_find?_eq_some hr), and_mask_eq_iff, ho, hf]
    exact ⟨hopc.symm, hflags⟩
  simp only [decodeWord, ho, hr, if_pos hfix, hbuild]

/-- FLAGS of a standalone pipeline (R69): bit 0 is FCS, bits 7..1 are 0. -/
theorem flags_pipeline (fcs : Bool) :
    (0#7 ++ BitVec.ofBool fcs) &&& 0xFE#8 = 0 ∧ (0#7 ++ BitVec.ofBool fcs).getLsbD 0 = fcs := by
  cases fcs <;> decide

/-- FLAGS of PROCESS_PACKET (R69): bits 3..0 are DEC, HS, RT and FCS, bits 7..4 are 0. -/
theorem flags_processPacket (fcs rt hs dec : Bool) (len : Nat) :
    let f := (Instr.processPacket fcs rt hs dec len).flags
    f &&& 0xF0#8 = 0 ∧ f.getLsbD 0 = fcs ∧ f.getLsbD 1 = rt ∧ f.getLsbD 2 = hs ∧ f.getLsbD 3 = dec := by
  simp only [Instr.flags]
  revert fcs rt hs dec
  decide

/-- Settles O1: the row of each opcode reads the operand back from IMM and the flags from FLAGS. -/
theorem decodeEncodeRoundTrip : Obligations.DecodeEncodeRoundTrip := by
  intro i hi
  have himm := immField_encode hi
  have hbit := flagBit_encode i
  cases i with
  | initStore | destroyStore | cleanKeys | saLookup | saAllocate | pskDerive | ptkDerive => rfl
  | setKeys n => exact decodeWord_encode_of_row 0xFF rfl rfl BitVec.zero_and (congrArg Instr.setKeys himm)
  | getKeys max => exact decodeWord_encode_of_row 0xFF rfl rfl BitVec.zero_and (congrArg Instr.getKeys himm)
  | keyValidate k => exact decodeWord_encode_of_row 0xFF rfl rfl BitVec.zero_and (congrArg Instr.keyValidate himm)
  | saRelease slot => exact decodeWord_encode_of_row 0xFF rfl rfl BitVec.zero_and (congrArg Instr.saRelease himm)
  | saRead slot => exact decodeWord_encode_of_row 0xFF rfl rfl BitVec.zero_and (congrArg Instr.saRead himm)
  | micCheck len => exact decodeWord_encode_of_row 0xFF rfl rfl BitVec.zero_and (congrArg Instr.micCheck himm)
  | wepDecrypt fcs len =>
    obtain ⟨hflags, hfcs⟩ := flags_pipeline fcs
    exact decodeWord_encode_of_row 0xFE rfl rfl hflags (congrArg₂ Instr.wepDecrypt ((hbit 0).trans hfcs) himm)
  | tkipDecrypt fcs len =>
    obtain ⟨hflags, hfcs⟩ := flags_pipeline fcs
    exact decodeWord_encode_of_row 0xFE rfl rfl hflags (congrArg₂ Instr.tkipDecrypt ((hbit 0).trans hfcs) himm)
  | ccmpDecrypt fcs len =>
    obtain ⟨hflags, hfcs⟩ := flags_pipeline fcs
    exact decodeWord_encode_of_row 0xFE rfl rfl hflags (congrArg₂ Instr.ccmpDecrypt ((hbit 0).trans hfcs) himm)
  | processPacket fcs rt hs dec len =>
    obtain ⟨hflags, hfcs, hrt, hhs, hdec⟩ := flags_processPacket fcs rt hs dec len
    refine decodeWord_encode_of_row 0xF0 rfl rfl hflags ?_
    simp only [hbit, himm, hfcs, hrt, hhs, hdec, Instr.imm]

/-- FLAGS whose bits 7..1 are 0 is its bit 0. -/
theorem eq_of_and_FE : ∀ f : Byte, f &&& 0xFE#8 = 0 → 0#7 ++ BitVec.ofBool (f.getLsbD 0) = f := by decide

/-- FLAGS whose bits 7..4 are 0 is its bits 3..0. -/
theorem eq_of_and_F0 : ∀ f : Byte, f &&& 0xF0#8 = 0 →
    0#4 ++ BitVec.ofBool (f.getLsbD 3) ++ BitVec.ofBool (f.getLsbD 2) ++ BitVec.ofBool (f.getLsbD 1) ++
      BitVec.ofBool (f.getLsbD 0) = f := by decide

/-- A row's command carries every bit that the row leaves open: a row that fixes the whole word makes one command, any other
one puts IMM and the FLAGS bits outside its mask into the command. -/
def CarriesFreeBits (r : OpcodeRow) : Prop :=
  (r.mask = BitVec.allOnes 32 ∧ ∀ w, (r.build w).wellFormed = true ∧ encode (r.build w) = r.pattern) ∨
    ∃ fm, r.mask = 0#16 ++ fm ++ BitVec.allOnes 8 ∧
      ∀ w, (r.build w).imm = immField w ∧ (flagsField w &&& fm = 0 → (r.build w).flags = flagsField w)

theorem carriesFreeBits_fixed {p : Word} {i : Instr} (hwf : i.wellFormed = true) (he : encode i = p) :
    CarriesFreeBits ⟨p, 0xFFFFFFFF, fun _ => i⟩ := .inl ⟨rfl, fun _ => ⟨hwf, he⟩⟩

theorem carriesFreeBits_imm {p : Word} {c : Nat → Instr} (himm : ∀ n, (c n).imm = n) (hflags : ∀ n, (c n).flags = 0) :
    CarriesFreeBits ⟨p, 0x0000FFFF, fun w => c (immField w)⟩ :=
  .inr ⟨0xFF, rfl, fun _ => ⟨himm _, fun h => (hflags _).trans (h.symm.trans BitVec.and_allOnes)⟩⟩

theorem carriesFreeBits_pipeline {p : Word} {c : Bool → Nat → Instr} (himm : ∀ fcs n, (c fcs n).imm = n)
    (hflags : ∀ fcs n, (c fcs n).flags = 0#7 ++ BitVec.ofBool fcs) :
    CarriesFreeBits ⟨p, 0x0000FEFF, fun w => c (flagBit w 0) (immField w)⟩ :=
  .inr ⟨0xFE, rfl, fun _ => ⟨himm _ _, fun h => (hflags _ _).trans (eq_of_and_FE _ h)⟩⟩

theorem carriesFreeBits_of_mem : ∀ r ∈ opcodeRows, CarriesFreeBits r := by
  simp only [opcodeRows, List.forall_mem_cons]
  refine ⟨?initStore, ?destroyStore, ?setKeys, ?getKeys, ?cleanKeys, ?keyValidate, ?saLookup, ?saAllocate, ?saRelease,
    ?saRead, ?pskDerive, ?ptkDerive, ?micCheck, ?wepDecrypt, ?tkipDecrypt, ?ccmpDecrypt, ?processPacket, nofun⟩
  case initStore | destroyStore | cleanKeys | saLookup | saAllocate | pskDerive | ptkDerive =>
    exact carriesFreeBits_fixed rfl rfl
  case setKeys | getKeys | keyValidate | saRelease | saRead | micCheck =>
    exact carriesFreeBits_imm (fun _ => rfl) fun _ => rfl
  case wepDecrypt | tkipDecrypt | ccmpDecrypt => exact carriesFreeBits_pipeline (fun _ _ => rfl) fun _ _ => rfl
  case processPacket => exact .inr ⟨0xF0, rfl, fun w => ⟨rfl, eq_of_and_F0 (flagsField w)⟩⟩

/-- Settles O2: the word has the fixed bits of the row that decoded it, and the command carries the other ones. -/
theorem encodeDecodeRoundTrip : Obligations.EncodeDecodeRoundTrip := by
  intro w i h
  have hopc := opcode_of_decodeWord h
  obtain ⟨r, hr, hw, rfl⟩ := row_of_decodeWord h
  rcases carriesFreeBits_of_mem r hr with ⟨hmask, hfixed⟩ | ⟨fm, hmask, hfree⟩
  · obtain ⟨hwf, he⟩ := hfixed w
    exact ⟨hwf, by rw [he, ← hw, hmask, BitVec.and_allOnes]⟩
  · obtain ⟨himm, hflags⟩ := hfree w
    rw [hmask, pattern_eq_opcField r hr, and_mask_eq_iff] at hw
    obtain ⟨-, hzero⟩ := hw
    exact encode_eq_of_fields hopc (hflags hzero) himm

/-- Settles O3: the decoder evaluates each word. -/
theorem specWordsDecode : Obligations.SpecWordsDecode :=
  ⟨rfl, rfl, rfl, rfl, rfl, rfl, rfl, rfl, rfl, rfl, rfl⟩

/-! ### Illegal commands (R70, R72, R199) -/

/-- The OPCs of the table (R68). -/
theorem opcodes_of_rows : opcodeRows.map (fun r => (opcField r.pattern).toNat) =
    [0x01, 0x02, 0x03, 0x04, 0x05, 0x06, 0x10, 0x11, 0x12, 0x13, 0x20, 0x21, 0x22, 0x30, 0x31, 0x32, 0x40] := rfl

theorem rowOf_eq_none_of_notMem {opc : Byte}
    (h : opc.toNat ∉
      [0x01, 0x02, 0x03, 0x04, 0x05, 0x06, 0x10, 0x11, 0x12, 0x13, 0x20, 0x21, 0x22, 0x30, 0x31, 0x32, 0x40]) :
    rowOf opc = none := by
  rw [← opcodes_of_rows] at h
  refine List.find?_eq_none.2 fun r hr he => h (List.mem_map.2 ⟨r, hr, ?_⟩)
  rw [eq_of_beq he]

/-- Settles O4: no row of the table has a reserved OPC, so the word is illegal before anything else is looked at. -/
theorem reservedOpcodesAreIllegal : Obligations.ReservedOpcodesAreIllegal := by
  intro w s n hn
  have hrow : rowOf (opcField w) = none := by
    refine rowOf_eq_none_of_notMem ?_
    simp only [List.mem_cons, List.not_mem_nil, or_false]
    omega
  have hdec : decodeWord w = .error (.badOpcode (opcField w)) := by simp only [decodeWord, hrow]
  exact ⟨s.illegal (opcField w) .badOpcode, by simp only [runCommand, hdec]; rfl, s.illegal_reports _ _,
    s.illegal_sameButResults _ _⟩

/-- A frame that reached its SA is no illegal command. -/
theorem FrameCase.outcome_ne_illegalCommand {keys : List KeyEntry} {replayEn fcs hs dec : Bool} {F : Bytes} {sl : SaSlot}
    {r : FrameResult} (h : FrameCase keys replayEn fcs hs dec F sl r) : r.outcome ≠ .illegalCommand := by
  cases h with
  | plain o r h =>
    have hne : ∀ e ∈ plainPairs, e.1 ≠ .illegalCommand := by decide
    exact hne (o, r) h
  | _ => exact nofun

/-- A command is illegal, and then reports and does nothing else, or reports another OUTCOME. -/
theorem ExecCase.illegal_or_not {i : Instr} {s t : State} (h : ExecCase i s t) :
    (∃ r, t = s.illegal i.opcode r) ∨ ∃ o r, t.status = statusWord i.opcode o r ∧ o ≠ .illegalCommand := by
  cases h with
  | illegal r _ _ _ => exact .inl ⟨r, rfl⟩
  | report o r x _ ho _ _ => exact .inr ⟨o, r, rfl, ho⟩
  | pipeFails o r _ ho _ => exact .inr ⟨o, r, rfl, ho⟩
  | packetStops e he _ =>
    have hne : ∀ e ∈ earlyPairs, e.1 ≠ .illegalCommand := by decide
    exact .inr ⟨e.1, e.2, rfl, hne e he⟩
  | packet fcs rt hs dec len F id k st r _ _ _ hr => exact .inr ⟨r.outcome, r.reason, rfl, hr.outcome_ne_illegalCommand⟩
  | _ => exact .inr ⟨.ok, .none, rfl, nofun⟩

theorem State.illegal_changesNothing (s : State) (opc : Byte) (r : ReasonCode) :
    (s.illegal opc r).res0 = 0 ∧ (s.illegal opc r).res1 = 0 ∧ (s.illegal opc r).outLen = 0 ∧
      statusLastOpc (s.illegal opc r).status = opc ∧ s.SameButResults (s.illegal opc r) :=
  ⟨rfl, rfl, rfl, statusLastOpc_statusWord _ _ _, s.illegal_sameButResults _ _⟩

/-- Settles O19: a word that decodes to nothing, and the one case of `exec_cases` with this OUTCOME, are `State.illegal`. -/
theorem illegalCommandChangesNothing : Obligations.IllegalCommandChangesNothing := by
  intro w s t h hout
  rcases runCommand_cases w s with ⟨e, hd, hr⟩ | ⟨i, t', hd, hr, hc⟩ <;> rw [hr] at h <;> cases h
  · exact decodeReason_of_decodeWord hd ▸ s.illegal_changesNothing _ _
  · rw [← opcode_of_decodeWord hd]
    rcases hc.illegal_or_not with ⟨r, rfl⟩ | ⟨o, r, hst, ho⟩
    · exact s.illegal_changesNothing _ _
    · rw [hst, statusOutcome_statusWord] at hout
      exact absurd (outcomeByte_injective hout) ho

/-! ### The class of an EAPOL-Key body (R90) -/

/-- Settles O42: ACK and MIC choose among the rows of the table; without ACK, SECURE, INSTALL and KDL do in turn. -/
theorem messageClassesFollowTheTable : Obligations.MessageClassesFollowTheTable := by
  intro install ack mic secure kdl
  simp only [classify]
  cases ack with
  | true =>
    cases mic with
    | true => simp
    | false => cases install <;> simp
  | false =>
    cases mic with
    | false => simp
    | true =>
      cases secure with
      | true => simp
      | false =>
        cases install with
        | true => simp
        | false => by_cases h : kdl = 0 <;> simp [h]

/-! ### The addresses of a data frame (R81) -/

theorem frameQos_iff {F : Bytes} :
    frameQos F = true ↔ (byteAt F 0).extractLsb' 2 2 = 2 ∧ (byteAt F 0).getLsbD 7 = true := by
  simp only [frameQos, frameType, Bool.and_eq_true, beq_iff_eq]

/-- Settles O55: DS selects one branch of `frameId`, and DS = 3 with its fourth address is the longer header. -/
theorem addressesSelectTheSa : Obligations.AddressesSelectTheSa := by
  intro F ds
  have hds : frameDs F = ds := rfl
  refine ⟨?ds0, ?ds1, ?ds2, ?ds3, ?hdrLen⟩
  case hdrLen =>
    simp only [hdrLen, hds, frameQos_iff]
    split <;> rfl
  all_goals
    intro h
    simp only [frameId, hds, h]
    rfl

end Sys2Proof.Machine

/-! The SA store's commands (spec/40_sa_store.md R100 to R111) and what PROCESS_PACKET leaves of the store
(spec/45_packet_processor.md R179, R196). -/

namespace Sys2Proof.Machine

/-! ### The end of a command (R9, R76) -/

theorem State.finish_reports (s : State) (opc : Byte) (o : OutcomeCode) (r : ReasonCode) (res0 res1 outLen : Word) :
    (s.finish opc o r res0 res1 outLen).Reports opc o r res0 res1 outLen := ⟨rfl, rfl, rfl, rfl⟩

theorem State.finish_sameButResults (s : State) (opc : Byte) (o : OutcomeCode) (r : ReasonCode)
    (res0 res1 outLen : Word) : s.SameButResults (s.finish opc o r res0 res1 outLen) :=
  ⟨⟨rfl, rfl, rfl, rfl, rfl, rfl⟩, rfl, rfl, fun _ => rfl⟩

/-- Every command leaves the control state alone, whether or not a word decodes to it. -/
theorem exec_sameControl {i : Instr} {s t : State} (h : exec i s = .next t) : s.SameControl t :=
  (ExecCase.of_exec h).reports.2

/-! ### The answers of SA_LOOKUP (R106) -/

theorem exec_saLookup_hit {s : State} {k : Nat} (h : s.store.lookup s.paramId = some k) :
    exec .saLookup s = .next (s.finish (Instr.opcode .saLookup) .ok .none (slotWord k) 0 0) := by
  simp only [exec, execSaLookup, h]

theorem exec_saLookup_miss {s : State} (h : s.store.lookup s.paramId = none) :
    exec .saLookup s = .next (s.finish (Instr.opcode .saLookup) .ok .none noSlot 0 0) := by
  simp only [exec, execSaLookup, h]

/-! ### StoreReset (R100 to R102) -/

/-- With LSI = -1 the scan of `Lookup` is empty. -/
theorem SaStore.lookup_empty (cap : Nat) (id : SaId) : (SaStore.empty cap).lookup id = none := rfl

/-- After a miss `Allocate` takes the slot that `SaStore.saFor` names, and writes no other. -/
theorem SaStore.Sound.allocate_of_saFor {st : SaStore} {cap : Nat} (hs : st.Sound cap) {id : SaId} {k : Nat} {sl : SaSlot}
    (hmiss : st.lookup id = none) (h : st.saFor cap id k sl) :
    ∃ st', st.allocate cap id = some (k, st') ∧ st.Wrote st' k sl := by
  obtain ⟨st', ha, rfl, hw⟩ := SaStore.lookupOrAllocate_of_saFor hs h
  rw [SaStore.lookupOrAllocate_of_miss hmiss] at ha
  have hwrote := hw (st'.slot k)
  rw [SaStore.setSlot_slot] at hwrote
  exact ⟨st', ha, hwrote⟩

/-- In an empty store every id is to go to slot 0. -/
theorem SaStore.saFor_empty {cap : Nat} (hcap : 1 ≤ cap) (id : SaId) : (SaStore.empty cap).saFor cap id 0 (freshSlot id) := by
  refine .inr ⟨fun j hu => ?_, Nat.le_refl 0, hcap, fun j _ hj => absurd hj (Nat.not_lt_zero j), ?_, rfl⟩
  · rw [SaStore.slot_empty] at hu
    cases hu
  · rw [SaStore.slot_empty]
    rfl

/-- Settles O27: the empty store is sound, so `SaStore.Sound.allocate_of_saFor` applies to it with slot 0. -/
theorem storeResetEmptiesTheStore : Obligations.StoreResetEmptiesTheStore := by
  intro s hcap
  refine ⟨SaStore.empty_length _, SaStore.slot_empty _, rfl, rfl, fun id => ⟨SaStore.lookup_empty _ id, ?_⟩⟩
  obtain ⟨st', ha, -⟩ := (SaStore.empty_sound s.params.saCap).allocate_of_saFor (SaStore.lookup_empty _ id)
    (SaStore.saFor_empty hcap id)
  exact ⟨st', ha⟩

/-- Settles O25: INIT_STORE is the store reset, after which every lookup misses. -/
theorem initStoreResult : Obligations.InitStoreResult := by
  refine ⟨rfl, fun _ => ⟨_, rfl, State.finish_reports _ _ _ _ _ _ _, rfl, rfl, exec_sameControl (i := .initStore) rfl,
    fun _ => rfl, ?_⟩⟩
  exact ⟨_, exec_saLookup_miss (SaStore.lookup_empty _ _), rfl⟩

/-- Settles O26: DESTROY_STORE is the store reset with no key left, and GET_KEYS counts the keys it copies. -/
theorem destroyStoreResult : Obligations.DestroyStoreResult :=
  ⟨rfl, fun _ => ⟨_, rfl, State.finish_reports _ _ _ _ _ _ _, rfl, rfl, exec_sameControl (i := .destroyStore) rfl,
    fun _ => rfl, _, rfl, rfl⟩⟩

/-! ### Lookup in a sound store (R103, R106) -/

/-- In a sound store `Lookup` finds the used slot that holds the id, by I1 and I2 (R103). -/
theorem SaStore.Sound.lookup_eq_some {st : SaStore} {cap k : Nat} (hs : st.Sound cap) (hu : (st.slot k).used = true) :
    st.lookup (st.slot k).id = some k := by
  rcases st.lookup_spec (st.slot k).id with ⟨j, hj, -, huj, hid⟩ | ⟨hmiss, -⟩
  · rw [hj, hs.idsDistinct j k huj hu hid]
  · exact absurd rfl (SaStore.lookup_none hs.usedBelowLsi hmiss k hu)

/-- The id in PARAM, field by field (R94). -/
theorem SaSlot.id_eq_paramId_iff {sl : SaSlot} {s : State} :
    sl.id = s.paramId ↔ sl.bssid = s.param 0 6 ∧ sl.sta = s.param 6 6 := by
  simp only [SaSlot.id, State.paramId, SaId.mk.injEq]

/-- `Lookup` of the id in PARAM misses where no used slot holds its two addresses. -/
theorem State.Inv.lookup_paramId_none {s : State} (hs : s.Inv)
    (h : ∀ k, (s.store.slot k).used = true →
      ¬ ((s.store.slot k).bssid = s.param 0 6 ∧ (s.store.slot k).sta = s.param 6 6)) :
    s.store.lookup s.paramId = none :=
  (SaStore.lookup_eq_none_iff hs.store.usedBelowLsi).2 fun k hu hid => h k hu (SaSlot.id_eq_paramId_iff.1 hid)

/-- `Lookup` of the id in PARAM finds the used slot that holds its two addresses. -/
theorem State.Inv.lookup_paramId_some {s : State} (hs : s.Inv) {k : Nat} (hu : (s.store.slot k).used = true)
    (hid : (s.store.slot k).bssid = s.param 0 6 ∧ (s.store.slot k).sta = s.param 6 6) :
    s.store.lookup s.paramId = some k :=
  SaSlot.id_eq_paramId_iff.2 hid ▸ hs.store.lookup_eq_some hu

/-- Settles O28: by I1 and I2 the lookup is a hit on the used slot with the id and on nothing else. -/
theorem saLookupResult : Obligations.SaLookupResult := by
  refine ⟨rfl, fun s hs => ⟨fun k hu hb hsta => ?hit, fun h => ?miss⟩⟩
  case hit =>
    exact ⟨_, exec_saLookup_hit (hs.lookup_paramId_some hu ⟨hb, hsta⟩), s.finish_reports _ _ _ _ _ _,
      s.finish_sameButResults _ _ _ _ _ _⟩
  case miss =>
    exact ⟨_, exec_saLookup_miss (hs.lookup_paramId_none h), s.finish_reports _ _ _ _ _ _,
      s.finish_sameButResults _ _ _ _ _ _⟩

/-! ### SA_ALLOCATE (R104, R107) -/

theorem exec_saAllocate_duplicate {s : State} {k : Nat} (h : s.store.lookup s.paramId = some k) :
    exec .saAllocate s = .next (s.finish (Instr.opcode .saAllocate) .unsuccessful .duplicateId noSlot 0 0) := by
  simp only [exec, execSaAllocate, h]

theorem exec_saAllocate_full {s : State} (h : s.store.lookup s.paramId = none)
    (ha : s.store.allocate s.params.saCap s.paramId = none) :
    exec .saAllocate s = .next (s.finish (Instr.opcode .saAllocate) .storeFull .storeFull noSlot 0 0) := by
  simp only [exec, execSaAllocate, h, ha]

theorem exec_saAllocate_free {s : State} (h : s.store.lookup s.paramId = none) {k : Nat} {st : SaStore}
    (ha : s.store.allocate s.params.saCap s.paramId = some (k, st)) :
    exec .saAllocate s = .next ((s.withStore st).finish (Instr.opcode .saAllocate) .ok .none (slotWord k) 0 0) := by
  simp only [exec, execSaAllocate, h, ha]

/-- `Allocate` finds no slot where every slot is used. -/
theorem SaStore.allocate_eq_none {st : SaStore} {cap : Nat} (h : ∀ k, k < cap → (st.slot k).used = true) (id : SaId) :
    st.allocate cap id = none := by
  rcases st.allocate_spec cap id with ⟨k, -, -, hk, hfree, -⟩ | ⟨e, -⟩
  · exact absurd (h k hk) (by simp [hfree])
  · exact e

/-- By I3 a store is full or has a first free slot from FFI on. -/
theorem SaStore.full_or_first_free {st : SaStore} (h : st.usedBelowFfi) (cap : Nat) :
    (∀ k, k < cap → (st.slot k).used = true) ∨
      ∃ k, st.ffi ≤ k ∧ k < cap ∧ (st.slot k).used = false ∧ ∀ j, st.ffi ≤ j → j < k → (st.slot j).used = true := by
  rcases st.allocate_spec cap ⟨[], []⟩ with ⟨k, -, hk⟩ | ⟨-, hall⟩
  · exact .inr ⟨k, hk⟩
  · refine .inl fun k hk => ?_
    by_cases hf : k < st.ffi
    · exact h k hf
    · exact hall k (Nat.not_lt.1 hf) hk

/-- Settles O29: a used slot with the id is found, a full store gives no slot, and the first free slot from FFI on is the one
that `Allocate` takes. -/
theorem saAllocateResult : Obligations.SaAllocateResult := by
  refine ⟨rfl, fun s hs => ⟨?duplicate, ?full, ?free, SaStore.full_or_first_free hs.store.usedBelowFfi _⟩⟩
  case duplicate =>
    rintro ⟨k, hu, hid⟩
    exact ⟨_, exec_saAllocate_duplicate (hs.lookup_paramId_some hu hid), s.finish_reports _ _ _ _ _ _,
      s.finish_sameButResults _ _ _ _ _ _⟩
  case full =>
    intro hn hall
    exact ⟨_, exec_saAllocate_full (hs.lookup_paramId_none hn) (SaStore.allocate_eq_none hall _),
      s.finish_reports _ _ _ _ _ _, s.finish_sameButResults _ _ _ _ _ _⟩
  case free =>
    intro k hn hf hk hfree hall
    have hmiss : s.store.lookup s.paramId = none := hs.lookup_paramId_none hn
    have hsa : s.store.saFor s.params.saCap s.paramId k (freshSlot s.paramId) :=
      .inr ⟨SaStore.lookup_none hs.store.usedBelowLsi hmiss, hf, hk, hall, hfree, rfl⟩
    obtain ⟨st, ha, hw⟩ := hs.store.allocate_of_saFor hmiss hsa
    have he := exec_saAllocate_free hmiss ha
    exact ⟨_, he, State.finish_reports _ _ _ _ _ _ _, hw, rfl, exec_sameControl he, fun _ => rfl⟩

/-! ### SA_RELEASE (R105, R109) -/

theorem exec_saRelease_badIndex {s : State} {k : Nat} (hk : s.params.saCap ≤ k) :
    exec (.saRelease k) s = .next (s.illegal (Instr.opcode (.saRelease k)) .badIndex) := by
  simp only [exec, execSaRelease, if_pos hk]

/-- Settles O30: `SaStore.release` is the whole effect on the store. -/
theorem saReleaseResult : Obligations.SaReleaseResult := by
  intro s k hs
  refine ⟨fun hk => ?_, fun hk => ?_⟩
  · have hlen : k < s.store.slots.length := hs.store.inRange.1.symm ▸ hk
    exact ⟨_, exec_saRelease hk, State.finish_reports _ _ _ _ _ _ _, SaStore.release_slot_same hlen,
      fun j hj => SaStore.release_slot_other _ hj, SaStore.release_length _ _, SaStore.release_ffi _ _,
      SaStore.release_lsi _ _, rfl, exec_sameControl (exec_saRelease hk), fun _ => rfl⟩
  · exact ⟨_, exec_saRelease_badIndex hk, s.illegal_reports _ _, s.illegal_sameButResults _ _⟩

/-! ### SA_READ and the SA record (R78, R110) -/

theorem slice_append_of_le {A : Bytes} {o n : Nat} (h : o + n ≤ A.length) (B : Bytes) :
    slice (A ++ B) o n = slice A o n := by
  rw [slice, slice, List.drop_append_of_le_length (by omega), List.take_append_of_le_length (by simp; omega)]

theorem slice_append_right {A B : Bytes} {o n : Nat} (ho : A.length = o) (hn : B.length = n) :
    slice (A ++ B) o n = B := by
  subst ho hn
  simp [slice]

/-- A part of what was written is read back. -/
theorem memRead_memWrite_slice (s : State) (b : Buffer) (v : Bytes) {o n : Nat} (h : o + n ≤ v.length) :
    (s.memWrite b 0 v).memRead b o n = slice v o n := by
  apply List.ext_getElem
  · rw [length_memRead, length_slice_of_le h]
  · intro i hi _
    rw [length_memRead] at hi
    simp only [State.memRead, getElem_readBytes, slice, List.getElem_take, List.getElem_drop]
    have hread := readByte_memWrite_same s b 0 v (o + i) (by omega)
    rwa [Nat.add_zero, ← Nat.add_assoc] at hread

theorem SaSlot.widths.length_toRecord {sl : SaSlot} (h : sl.widths) : sl.toRecord.length = 121 := by
  obtain ⟨hb, hsta, ha, hp⟩ := h
  simp [SaSlot.toRecord, hb, hsta, ha, hp]

/-- The places of the fields in the SA record (R78). -/
structure SaSlot.RecordFields (sl : SaSlot) (rec : Bytes) : Prop where
  flags : slice rec 0 6 =
    [bitByte sl.used, stageByte sl.stage, bitByte sl.validKey, sl.keyVer.setWidth 8, bitByte sl.ckValid, sl.ckIndex]
  bssid : slice rec 6 6 = sl.bssid
  sta : slice rec 12 6 = sl.sta
  pn : slice rec 18 6 = le48Bytes sl.pn
  anonce : slice rec 24 32 = sl.anonce
  ptk : slice rec 56 64 = sl.ptk
  pnValid : slice rec 120 1 = [bitByte sl.pnValid]

/-- Each field's place: the fields behind it fall away, and the lengths of those before it add up to its offset. -/
theorem SaSlot.widths.recordFields {sl : SaSlot} (h : sl.widths) : sl.RecordFields sl.toRecord := by
  obtain ⟨hb, hsta, ha, hp⟩ := h
  constructor <;> unfold SaSlot.toRecord
  case pnValid => exact slice_append_right (by simp [hb, hsta, ha, hp]) rfl
  all_goals rw [slice_append_of_le (by simp [hb, hsta, ha, hp])]
  case ptk => exact slice_append_right (by simp [hb, hsta, ha]) hp
  all_goals rw [slice_append_of_le (by simp [hb, hsta, ha])]
  case anonce => exact slice_append_right (by simp [hb, hsta]) ha
  all_goals rw [slice_append_of_le (by simp [hb, hsta])]
  case pn => exact slice_append_right (by simp [hb, hsta]) rfl
  all_goals rw [slice_append_of_le (by simp [hb, hsta])]
  case sta => exact slice_append_right (by simp [hb]) hsta
  all_goals rw [slice_append_of_le (by simp [hb])]
  case bssid => exact slice_append_right rfl hb
  case flags => rfl

theorem getElem_le48Bytes (v : BitVec 48) (k : Nat) (h : k < (le48Bytes v).length) :
    (le48Bytes v)[k] = v.extractLsb' (8 * k) 8 := by
  rw [length_le48Bytes] at h
  interval_cases k <;> rfl

/-- One byte of a read string. -/
theorem readByte_of_memRead {s : State} {b : Buffer} {o n : Nat} {v : Bytes} (h : s.memRead b o n = v) (i : Nat)
    (hi : i < v.length) : s.readByte (b.base + o + i) = v[i] := by
  subst h
  simp [State.memRead]

theorem exec_saRead {s : State} {k : Nat} (hk : k < s.params.saCap) :
    exec (.saRead k) s =
      .next ((s.memWrite .result 0 (s.store.slot k).toRecord).finish (Instr.opcode (.saRead k)) .ok .none 121 0 0) := by
  simp only [exec, execSaRead, if_neg (Nat.not_le.2 hk)]

theorem exec_saRead_badIndex {s : State} {k : Nat} (hk : s.params.saCap ≤ k) :
    exec (.saRead k) s = .next (s.illegal (Instr.opcode (.saRead k)) .badIndex) := by
  simp only [exec, execSaRead, if_pos hk]

/-- Settles O32: the record is written to RESULT whole, so each field is read back from its place in the record. -/
theorem saReadResult : Obligations.SaReadResult := by
  refine ⟨fun _ _ => rfl, fun s k hs => ⟨fun hk => ?_, fun hk => ?_⟩⟩
  · have hw : (s.store.slot k).widths := hs.store.widths k
    have he := exec_saRead hk
    have hrow := commandsWriteOnlyTheirBufferRow _ _ _ hs he
    obtain ⟨hflags, hbssid, hsta, hpn, hanonce, hptk, hpnValid⟩ := hw.recordFields
    have hread {o n : Nat} (h : o + n ≤ 121) := memRead_memWrite_slice s .result (s.store.slot k).toRecord
      (hw.length_toRecord.symm ▸ h : o + n ≤ (s.store.slot k).toRecord.length)
    refine ⟨_, he, State.finish_reports _ _ _ _ _ _ _, (hread (by decide)).trans hflags, (hread (by decide)).trans hbssid,
      (hread (by decide)).trans hsta, fun i hi => ?_, (hread (by decide)).trans hanonce, (hread (by decide)).trans hptk,
      readByte_of_memRead ((hread (by decide)).trans hpnValid) 0 Nat.one_pos, hrow, rfl, rfl, exec_sameControl he⟩
    exact (readByte_of_memRead ((hread (by decide)).trans hpn) i hi).trans (getElem_le48Bytes _ i hi)
  · exact ⟨_, exec_saRead_badIndex hk, s.illegal_reports _ _, s.illegal_sameButResults _ _⟩

/-! ### PROCESS_PACKET and the store (R179, R193, R196) -/

/-- The operands fix the frame and its id. -/
theorem State.DataFrame.unique {s : State} {fcs rt : Bool} {len : Nat} {F F' : Bytes} {id id' : SaId}
    (h : s.DataFrame fcs rt len F id) (h' : s.DataFrame fcs rt len F' id') : F' = F ∧ id' = id := by
  obtain ⟨hv, hc⟩ := h.view
  obtain ⟨hv', hc'⟩ := h'.view
  obtain rfl : F' = F := Option.some.inj (hv'.symm.trans hv)
  exact ⟨rfl, Except.ok.inj (hc'.symm.trans hc)⟩

/-- `LookupOrAllocate` writes no slot but the one it answers, and keeps the table's length (R104, R108). -/
theorem SaStore.lookupOrAllocate_frame {st st' : SaStore} {cap : Nat} {id : SaId} {k : Nat}
    (h : st.lookupOrAllocate cap id = some (k, st')) :
    st'.slots.length = st.slots.length ∧ ∀ j, j ≠ k → st'.slot j = st.slot j := by
  rcases st.lookupOrAllocate_spec cap id with ⟨i, -, e⟩ | ⟨i, -, e, -⟩ | ⟨-, e, -⟩ <;> rw [e] at h <;> cases h
  · exact ⟨rfl, fun _ _ => rfl⟩
  · exact ⟨List.length_set, fun j hj => SaStore.slot_set_other st hj _ _ _⟩

/-- A frame command that stops before an SA writes the result registers and FRAME_OUT. -/
theorem State.finishFrame_stops (s : State) (opc : Byte) (o : OutcomeCode) (r : ReasonCode) (x : Word) (y : Res1)
    (out : Bytes) : s.FrameOnly (s.finishFrame opc o r x y out) ∧ (s.finishFrame opc o r x y out).store = s.store :=
  ⟨finishFrame_frameOnly s s.store opc o r x y out, rfl⟩

/-- PROCESS_PACKET that reaches no SA leaves the store alone (R175 to R179). -/
theorem execProcessPacket_stops {s : State} {fcs rt : Bool} {len : Nat}
    (h : ∀ F id, s.DataFrame fcs rt len F id → s.store.lookupOrAllocate s.params.saCap id = none) (hs dec : Bool) :
    ∃ t, execProcessPacket fcs rt hs dec len s = .next t ∧ s.FrameOnly t ∧ t.store = s.store := by
  by_cases hl : Config.frameBufLen < len
  · obtain ⟨hcontrol, hstore, hkeys, hbuffers⟩ := s.illegal_sameButResults 0x40 .badField
    exact ⟨s.illegal 0x40 .badField, by simp only [execProcessPacket, Instr.opcode, if_pos hl],
      ⟨hcontrol, hkeys, hbuffers.but _ _⟩, hstore⟩
  cases hF : s.frameView fcs rt len with
  | none =>
    exact ⟨_, by simp only [execProcessPacket, Instr.opcode, if_neg hl, hF],
      s.finishFrame_stops 0x40 .unsuccessful .wrongDataSize noSlot Res1.zero []⟩
  | some F =>
    cases hc : classifyFrame s.params.minCtLen F with
    | error e =>
      exact ⟨_, by simp only [execProcessPacket, Instr.opcode, if_neg hl, hF, hc],
        s.finishFrame_stops 0x40 e.1 e.2 noSlot Res1.zero []⟩
    | ok id =>
      have hd : s.DataFrame fcs rt len F id := frameView_data (Nat.not_lt.1 hl) hF hc
      refine ⟨_, execProcessPacket_data hd hs dec, ?_⟩
      rw [State.processData, h F id hd]
      exact s.finishFrame_stops _ _ _ _ _ _

/-- PROCESS_PACKET that reaches slot `k` leaves the store of `LookupOrAllocate` with new contents in that slot (R179, R180). -/
theorem execProcessPacket_reaches {s : State} {fcs rt : Bool} {len : Nat} {F : Bytes} {id : SaId} {k : Nat} {st : SaStore}
    (hd : s.DataFrame fcs rt len F id) (ha : s.store.lookupOrAllocate s.params.saCap id = some (k, st)) (hs dec : Bool) :
    ∃ t sl, execProcessPacket fcs rt hs dec len s = .next t ∧ s.FrameOnly t ∧ t.res0 = slotWord k ∧
      t.store = st.setSlot k sl := by
  refine ⟨_, (dispatchFrame s.keys s.replayEn fcs hs dec F (st.slot k)).slot, execProcessPacket_data hd hs dec, ?_⟩
  rw [State.processData, ha]
  exact ⟨finishFrame_frameOnly s _ _ _ _ _ _ _, rfl, rfl⟩

/-- Settles O60: the operands decide whether an SA is reached, and which; where one is, `LookupOrAllocate` and the write of its
slot are all that happens to the store. -/
theorem packetTouchesOneSlot : Obligations.PacketTouchesOneSlot := by
  intro fcs rt hs dec len s
  by_cases hreach : ∃ F id k st, s.DataFrame fcs rt len F id ∧ s.store.lookupOrAllocate s.params.saCap id = some (k, st)
  · obtain ⟨F, id, k, st, hd, ha⟩ := hreach
    obtain ⟨t, sl, he, hframe, hres, hstore⟩ := execProcessPacket_reaches hd ha hs dec
    obtain ⟨hlen, hothers⟩ := SaStore.lookupOrAllocate_frame ha
    refine ⟨t, he, hframe, by rw [hstore, SaStore.setSlot_length, hlen], fun F' id' k' st' hd' ha' => ?_, fun hnone => ?_⟩
    · obtain ⟨rfl, rfl⟩ := hd.unique hd'
      obtain ⟨rfl, rfl⟩ : k = k' ∧ st = st' := by simpa using ha.symm.trans ha'
      rw [hstore]
      exact ⟨hres, fun j hj => (SaStore.slot_setSlot_other st hj sl).trans (hothers j hj), rfl, rfl,
        fun hinv => SaStore.saFor_of_lookupOrAllocate hinv.store ha⟩
    · exact absurd (ha.symm.trans (hnone F id hd)) (Option.some_ne_none _)
  · have hnone (F : Bytes) (id : SaId) (hd : s.DataFrame fcs rt len F id) :
        s.store.lookupOrAllocate s.params.saCap id = none :=
      Option.eq_none_iff_forall_ne_some.2 fun p hp => hreach ⟨F, id, p.1, p.2, hd, hp⟩
    obtain ⟨t, he, hframe, hstore⟩ := execProcessPacket_stops hnone hs dec
    refine ⟨t, he, hframe, by rw [hstore], fun F id k st hd ha => ?_, fun _ => hstore⟩
    exact absurd (ha.symm.trans (hnone F id hd)) (Option.some_ne_none _)

end Sys2Proof.Machine

/-! The key collection's commands (spec/41_key_collection.md R112 to R121), and the packets whose handshake or decryption
fails (spec/43_handshake.md R138 to R145; spec/45_packet_processor.md R184 to R194). -/

namespace Sys2Proof.Machine

/-! ### CLEAN_KEYS and SET_KEYS (R116, R118, R120) -/

/-- Settles O37: CLEAN_KEYS is the store reset with no key left, so a second one counts none. -/
theorem cleanKeysResult : Obligations.CleanKeysResult :=
  ⟨rfl, fun _ => ⟨_, rfl, State.finish_reports _ _ _ _ _ _ _, rfl, rfl, exec_sameControl (i := .cleanKeys) rfl,
    fun _ => rfl, _, rfl, rfl⟩⟩

theorem exec_setKeys_fits {s : State} {n : Nat} (hn : n ≤ s.params.keysMax) :
    exec (.setKeys n) s = .next ((s.withKeys (s.admittedKeys n)).storeReset.finish (Instr.opcode (.setKeys n)) .ok .none
      (BitVec.ofNat 32 (s.admittedKeys n).length) 0 0) := by
  simp only [exec, execSetKeys, if_neg (Nat.not_lt.2 hn)]

theorem exec_setKeys_tooMany {s : State} {n : Nat} (hn : s.params.keysMax < n) :
    exec (.setKeys n) s = .next (s.finish (Instr.opcode (.setKeys n)) .unsuccessful .wrongDataSize 0 0 0) := by
  simp only [exec, execSetKeys, if_pos hn]

/-- Acceptance replaces the KEY field of a passphrase entry only (R116). -/
theorem KeyEntry.accept_eq (e : KeyEntry) : e.accept =
    if e.kind = .wpaPwd then
      { e with key := passwordToPsk (slice e.pass 0 e.passLen.toNat) (slice e.ssid 0 e.ssidLen.toNat) }
    else e := by
  obtain ⟨kind, keyLen, passLen, ssidLen, key, pass, ssid⟩ := e
  cases kind <;> rfl

/-- SET_KEYS validates the staged records first and then accepts the valid ones. -/
theorem State.admittedKeys_eq (s : State) (n : Nat) :
    s.admittedKeys n = ((List.range n).filterMap fun i => validate (s.stageRec i)).map KeyEntry.accept :=
  List.map_filterMap.symm

/-- Settles O35: the new collection is `State.admittedKeys`, which is the valid records in order, accepted. -/
theorem setKeysResult : Obligations.SetKeysResult := by
  refine ⟨fun _ _ => rfl, KeyEntry.accept_eq, fun s n => ⟨fun hn => ?fits, fun hn => ?tooMany⟩⟩
  case fits =>
    have he := exec_setKeys_fits hn
    exact ⟨_, he, s.admittedKeys_eq n, State.finish_reports _ _ _ _ _ _ _, rfl, exec_sameControl he, fun _ => rfl⟩
  case tooMany =>
    exact ⟨_, exec_setKeys_tooMany hn, s.finish_reports _ _ _ _ _ _, s.finish_sameButResults _ _ _ _ _ _⟩

/-! ### Validation and the key record (R77, R114, R115) -/

/-- The fields of a record, under the type and WEP length that its TAG stands for (R77, R115). -/
def recordEntry (rec : Bytes) (kind : KeyKind) (keyLen : Byte) : KeyEntry where
  kind := kind
  keyLen := keyLen
  passLen := byteAt rec 2
  ssidLen := byteAt rec 3
  key := slice rec 8 32
  pass := slice rec 40 64
  ssid := slice rec 104 32

/-- A record is valid when its TAG is one of the table's and the entry's lengths are legal. -/
theorem validate_eq_some_iff {rec : Bytes} {e : KeyEntry} :
    validate rec = some e ↔ ∃ kind keyLen, tagKind (byteAt rec 0) (byteAt rec 1) = some (kind, keyLen) ∧
      recordEntry rec kind keyLen = e ∧ e.lengthsLegal = true := by
  cases htag : tagKind (byteAt rec 0) (byteAt rec 1) with
  | none => simp [validate, htag]
  | some p =>
    have hv : validate rec =
        if (recordEntry rec p.1 p.2).lengthsLegal then some (recordEntry rec p.1 p.2) else none := by
      rw [validate, htag]
      rfl
    rw [hv, Option.ite_none_right_eq_some]
    constructor
    · rintro ⟨hl, he⟩
      cases he
      exact ⟨p.1, p.2, rfl, rfl, hl⟩
    · rintro ⟨kind, keyLen, hp, rfl, hl⟩
      cases hp
      exact ⟨hl, rfl⟩

/-- The rows of the table of R114, with the rewriting of WEP40 and WEP104 (R115). -/
theorem tagKind_eq_some_iff {tag keyLen l : Byte} {kind : KeyKind} :
    tagKind tag keyLen = some (kind, l) ↔
      (tag = 1 ∧ kind = .wep ∧ l = keyLen) ∨ (tag = 2 ∧ kind = .wep ∧ l = 5) ∨ (tag = 3 ∧ kind = .wep ∧ l = 13) ∨
        (tag = 4 ∧ kind = .wpaPwd ∧ l = keyLen) ∨ (tag = 5 ∧ kind = .wpaPsk ∧ l = keyLen) ∨
        (tag = 6 ∧ kind = .wpaPmk ∧ l = keyLen) := by
  constructor
  · intro h
    simp only [tagKind] at h
    split_ifs at h <;> cases h <;> simp_all
  · rintro (⟨rfl, rfl, rfl⟩ | ⟨rfl, rfl, rfl⟩ | ⟨rfl, rfl, rfl⟩ | ⟨rfl, rfl, rfl⟩ | ⟨rfl, rfl, rfl⟩ | ⟨rfl, rfl, rfl⟩) <;>
      rfl

/-- The length conditions of R114 on the entry of a record, by its type. -/
theorem recordEntry_lengthsLegal_iff {rec : Bytes} {kind : KeyKind} {keyLen : Byte} :
    (recordEntry rec kind keyLen).lengthsLegal = true ↔
      (kind = .wep → 1 ≤ keyLen.toNat ∧ keyLen.toNat ≤ 32) ∧
        (kind = .wpaPwd → 8 ≤ (byteAt rec 2).toNat ∧ (byteAt rec 2).toNat ≤ 63 ∧ (byteAt rec 3).toNat ≤ 32) := by
  cases kind with
  | wep => exact decide_eq_true_iff.trans (by simp [recordEntry])
  | wpaPwd => exact decide_eq_true_iff.trans (by simp [recordEntry])
  | wpaPsk => simp [KeyEntry.lengthsLegal, recordEntry]
  | wpaPmk => simp [KeyEntry.lengthsLegal, recordEntry]

/-- The table of R114. -/
theorem validate_isSome_iff {rec : Bytes} :
    (validate rec).isSome = true ↔
      (byteAt rec 0 = 1 ∧ 1 ≤ (byteAt rec 1).toNat ∧ (byteAt rec 1).toNat ≤ 32) ∨ byteAt rec 0 = 2 ∨ byteAt rec 0 = 3 ∨
        (byteAt rec 0 = 4 ∧ 8 ≤ (byteAt rec 2).toNat ∧ (byteAt rec 2).toNat ≤ 63 ∧ (byteAt rec 3).toNat ≤ 32) ∨
        byteAt rec 0 = 5 ∨ byteAt rec 0 = 6 := by
  have hsome : (validate rec).isSome = true ↔ ∃ kind keyLen,
      tagKind (byteAt rec 0) (byteAt rec 1) = some (kind, keyLen) ∧ (recordEntry rec kind keyLen).lengthsLegal = true := by
    simp only [Option.isSome_iff_exists, validate_eq_some_iff]
    constructor
    · rintro ⟨_, kind, keyLen, ht, rfl, hl⟩
      exact ⟨kind, keyLen, ht, hl⟩
    · rintro ⟨kind, keyLen, ht, hl⟩
      exact ⟨_, kind, keyLen, ht, rfl, hl⟩
  simp only [hsome, tagKind_eq_some_iff, recordEntry_lengthsLegal_iff]
  constructor
  · rintro ⟨kind, keyLen, (⟨h0, rfl, rfl⟩ | ⟨h0, rfl, rfl⟩ | ⟨h0, rfl, rfl⟩ | ⟨h0, rfl, rfl⟩ | ⟨h0, rfl, rfl⟩ |
      ⟨h0, rfl, rfl⟩), hwep, hpwd⟩
    · exact .inl ⟨h0, hwep rfl⟩
    · exact .inr (.inl h0)
    · exact .inr (.inr (.inl h0))
    · exact .inr (.inr (.inr (.inl ⟨h0, hpwd rfl⟩)))
    · exact .inr (.inr (.inr (.inr (.inl h0))))
    · exact .inr (.inr (.inr (.inr (.inr h0))))
  · rintro (⟨h0, hl⟩ | h0 | h0 | ⟨h0, hl⟩ | h0 | h0)
    · exact ⟨.wep, byteAt rec 1, by simp [h0], by simp [hl]⟩
    · exact ⟨.wep, 5, by simp [h0], by simp⟩
    · exact ⟨.wep, 13, by simp [h0], by simp⟩
    · exact ⟨.wpaPwd, byteAt rec 1, by simp [h0], by simp [hl]⟩
    · exact ⟨.wpaPsk, byteAt rec 1, by simp [h0], by simp⟩
    · exact ⟨.wpaPmk, byteAt rec 1, by simp [h0], by simp⟩

theorem slice_append_slice (B : Bytes) (o m n : Nat) : slice B o m ++ slice B (o + m) n = slice B o (m + n) := by
  simp only [slice, List.take_add, List.drop_drop]

theorem slice_two {B : Bytes} {o : Nat} (h : o + 2 ≤ B.length) : slice B o 2 = [byteAt B o, byteAt B (o + 1)] := by
  apply List.ext_getElem
  · simpa using by omega
  · intro i hi _
    have hi2 : i < 2 := lt_of_lt_of_le hi (by simp)
    interval_cases i <;> simp [slice, byteAt, List.getD_eq_getElem?_getD, show o < B.length by omega,
      show o + 1 < B.length by omega]

/-- Behind its first two bytes a normalized record is the record itself, the reserved fields zero (R77, R115). -/
theorem recordEntry_toRecord {rec : Bytes} (h : rec.length = 144) (kind : KeyKind) (keyLen : Byte) :
    (recordEntry rec kind keyLen).toRecord =
      [kindByte kind, keyLen] ++ slice rec 2 2 ++ zeros 4 ++ slice rec 8 128 ++ zeros 8 := by
  have hbody : slice rec 8 128 = slice rec 8 32 ++ slice rec 40 64 ++ slice rec 104 32 := by
    rw [slice_append_slice rec 8 32 64, slice_append_slice rec 8 96 32]
  simp [KeyEntry.toRecord, recordEntry, slice_two (show 2 + 2 ≤ rec.length by omega), hbody]

/-- TAG and KEY_LEN of the normalized record (R115). -/
theorem header_of_tagKind {tag keyLen l : Byte} {kind : KeyKind} (h : tagKind tag keyLen = some (kind, l)) :
    [kindByte kind, l] =
      if tag = 2 then [0x01#8, 0x05#8] else if tag = 3 then [0x01#8, 0x0D#8] else [tag, keyLen] := by
  rcases tagKind_eq_some_iff.1 h with
    ⟨rfl, rfl, rfl⟩ | ⟨rfl, rfl, rfl⟩ | ⟨rfl, rfl, rfl⟩ | ⟨rfl, rfl, rfl⟩ | ⟨rfl, rfl, rfl⟩ | ⟨rfl, rfl, rfl⟩ <;> rfl

/-- Settles O34: a valid record is one whose TAG is in the table and whose lengths are legal, and its entry holds the
record's own fields under the rewritten header. -/
theorem validationFollowsTheTable : Obligations.ValidationFollowsTheTable := by
  refine fun rec hlen => ⟨validate_isSome_iff, fun e he => ?_⟩
  obtain ⟨kind, keyLen, htag, rfl, -⟩ := validate_eq_some_iff.1 he
  rw [recordEntry_toRecord hlen, header_of_tagKind htag, slice_two (show 0 + 2 ≤ rec.length by omega)]

/-! ### KEY_VALIDATE (R117) -/

theorem KeyEntry.sound.length_toRecord {e : KeyEntry} (h : e.sound) : e.toRecord.length = 144 := by
  obtain ⟨hkey, hpass, hssid, -⟩ := h
  simp [KeyEntry.toRecord, hkey, hpass, hssid]

theorem exec_keyValidate_valid {s : State} {k : Nat} {e : KeyEntry} (hk : k < s.params.keysMax)
    (he : validate (s.stageRec k) = some e) :
    exec (.keyValidate k) s =
      .next ((s.memWrite .result 0 e.toRecord).finish (Instr.opcode (.keyValidate k)) .ok .none 1 0 0) := by
  simp only [exec, execKeyValidate, if_neg (Nat.not_le.2 hk), he]

theorem exec_keyValidate_invalid {s : State} {k : Nat} (hk : k < s.params.keysMax)
    (he : validate (s.stageRec k) = none) :
    exec (.keyValidate k) s =
      .next (s.finish (Instr.opcode (.keyValidate k)) .invalidKey .invalidKey 0 0 0) := by
  simp only [exec, execKeyValidate, if_neg (Nat.not_le.2 hk), he]

theorem exec_keyValidate_badIndex {s : State} {k : Nat} (hk : s.params.keysMax ≤ k) :
    exec (.keyValidate k) s = .next (s.illegal (Instr.opcode (.keyValidate k)) .badIndex) := by
  simp only [exec, execKeyValidate, if_pos hk]

theorem State.memWrite_sameBuffersBut (s : State) (b : Buffer) (o : Nat) (v : Bytes) :
    s.SameBuffersBut (s.memWrite b o v) (b.base + o) v.length :=
  readByte_memWrite_other s b o v

/-- Settles O33: a staged record is 144 bytes, so a valid one gives a whole record, which is all that RESULT gets. -/
theorem keyValidateResult : Obligations.KeyValidateResult := by
  refine ⟨fun _ _ => rfl, fun s k => ⟨fun e hk he => ?valid, fun hk he => ?invalid, fun hk => ?badIndex⟩⟩
  case valid =>
    have hexec := exec_keyValidate_valid hk he
    have hlen : e.toRecord.length = 144 := (validate_sound (length_stageRec s k) he).length_toRecord
    have hread := memRead_memWrite s .result 0 e.toRecord
    have hrest := s.memWrite_sameBuffersBut .result 0 e.toRecord
    rw [hlen] at hread hrest
    exact ⟨_, hexec, State.finish_reports _ _ _ _ _ _ _, hread, hrest, rfl, rfl, exec_sameControl hexec⟩
  case invalid =>
    exact ⟨_, exec_keyValidate_invalid hk he, s.finish_reports _ _ _ _ _ _, s.finish_sameButResults _ _ _ _ _ _⟩
  case badIndex =>
    exact ⟨_, exec_keyValidate_badIndex hk, s.illegal_reports _ _, s.illegal_sameButResults _ _⟩

/-! ### GET_KEYS (R119) -/

theorem length_flatMap_toRecord {ks : List KeyEntry} (h : ∀ e ∈ ks, e.sound) :
    (ks.flatMap KeyEntry.toRecord).length = 144 * ks.length := by
  induction ks with
  | nil => rfl
  | cons e ks ih =>
    obtain ⟨he, hks⟩ := List.forall_mem_cons.1 h
    rw [List.flatMap_cons, List.length_append, he.length_toRecord, ih hks, List.length_cons]
    omega

/-- Record `k` of a copied collection is that of key `k`. -/
theorem slice_flatMap_toRecord {ks : List KeyEntry} (h : ∀ e ∈ ks, e.sound) {k : Nat} {e : KeyEntry}
    (hk : ks[k]? = some e) : slice (ks.flatMap KeyEntry.toRecord) (144 * k) 144 = e.toRecord := by
  induction ks generalizing k with
  | nil => cases hk
  | cons d ks ih =>
    obtain ⟨hd, hks⟩ := List.forall_mem_cons.1 h
    rw [List.flatMap_cons]
    cases k with
    | zero =>
      obtain rfl : d = e := by simpa using hk
      rw [slice_append_of_le hd.length_toRecord.ge]
      simp [slice, hd.length_toRecord]
    | succ k =>
      have hdrop : slice (d.toRecord ++ ks.flatMap KeyEntry.toRecord) (144 * (k + 1)) 144 =
          slice (ks.flatMap KeyEntry.toRecord) (144 * k) 144 := by
        have hoff : 144 * (k + 1) = d.toRecord.length + 144 * k := by
          rw [hd.length_toRecord]
          omega
        rw [slice, hoff, ← List.drop_drop, List.drop_left, slice]
      rw [hdrop]
      exact ih hks (by simpa using hk)

/-- Settles O36: KEY_OUT gets the records of the first keys one behind the other, each 144 bytes. -/
theorem getKeysResult : Obligations.GetKeysResult := by
  refine ⟨fun _ _ => rfl, fun s m hs => ?_⟩
  have he : exec (.getKeys m) s = .next _ := rfl
  refine ⟨_, he, State.finish_reports _ _ _ _ _ _ _, fun k e hk hke => ?_,
    commandsWriteOnlyTheirBufferRow _ _ _ hs he, rfl, rfl, exec_sameControl he⟩
  have hsound : ∀ e ∈ s.keys.take m, e.sound := fun e hmem => hs.keys.2 e (List.mem_of_mem_take hmem)
  have htake : (s.keys.take m)[k]? = some e := by rw [List.getElem?_take_of_lt hk, hke]
  have hlt : k < (s.keys.take m).length := (List.getElem?_eq_some_iff.1 htake).1
  have hfits : 144 * k + 144 ≤ ((s.keys.take m).flatMap KeyEntry.toRecord).length := by
    rw [length_flatMap_toRecord hsound]
    omega
  exact (memRead_memWrite_slice s .keyOut _ hfits).trans (slice_flatMap_toRecord hsound htake)

/-! ### Frames that leave their SA as it was (R193, R194) -/

theorem res1Word_zero : res1Word Res1.zero = 0 := by decide

/-- PROCESS_PACKET on a frame that does nothing but report leaves the slot its contents. -/
theorem exec_reaches_plain {s : State} {fcs rt : Bool} {len : Nat} {F : Bytes} {k : Nat} {sl : SaSlot}
    (h : s.Reaches fcs rt len F k sl) {hs dec : Bool} {o : OutcomeCode} {r : ReasonCode}
    (hr : dispatchFrame s.keys s.replayEn fcs hs dec F sl = .plain sl o r) :
    ∃ t, exec (.processPacket fcs rt hs dec len) s = .next t ∧ t.Reports 0x40 o r (BitVec.ofNat 32 k) 0 0 ∧
      s.store.Wrote t.store k sl ∧ s.FrameOnly t := by
  obtain ⟨t, ht, ⟨hstatus, hres0, hres1, hout⟩, hwrote, honly, -⟩ := exec_reaches h hs dec hr
  exact ⟨t, ht, ⟨hstatus, hres0, hres1.trans res1Word_zero, hout⟩, hwrote, honly⟩

/-! ### Rejected EAPOL-Key frames (R138, R142, R143, R145) -/

/-- A cleartext EAPOL-Key frame with HS = 1 goes to the handshake with the body it carries (R182, R183). -/
theorem dispatchFrame_eapolKey {F E K : Bytes} (hclear : frameProtected F = false) (hE : EapolKey F E K)
    (keys : List KeyEntry) (replayEn fcs dec : Bool) (sl : SaSlot) :
    dispatchFrame keys replayEn fcs true dec F sl = handshake keys sl E K.length ∧ keyBody E K.length = K := by
  obtain ⟨hsig, rfl, hhead, htype, hfits, hbody⟩ := hE
  have hlen : K.length = eapolBodyLen (F.drop (hdrLen F + 8)) := hbody ▸ length_slice_of_le hfits
  have hF : (F.drop (hdrLen F + 8)).length = F.length - (hdrLen F + 8) := List.length_drop
  have hshape : eapolKeyShape F (hdrLen F) = true := by
    simp only [eapolKeyShape, Bool.and_eq_true, decide_eq_true_eq, beq_iff_eq]
    refine ⟨⟨⟨⟨by omega, hsig⟩, by omega⟩, htype⟩, ?_⟩
    simp only [eapolBodyLen]
    omega
  constructor
  · simp [dispatchFrame, hclear, cleartextPath, hshape, hlen]
  · rw [hlen]
    exact hbody.symm

section
variable {keys : List KeyEntry} {sl : SaSlot} {E K : Bytes}

/-- The first check of R138. -/
theorem handshake_badDescriptor (hbody : keyBody E K.length = K)
    (h : K.length < 95 ∨ (byteAt K 0 ≠ 2 ∧ byteAt K 0 ≠ 254)) :
    handshake keys sl E K.length = .plain sl .noValidHandshake .badDescriptor := by
  by_cases hlong : K.length < 95
  · simp only [handshake, if_pos hlong]
  · have hdesc : descriptorAccepted K = false := by
      simpa [descriptorAccepted, descriptorType] using h.resolve_left hlong
    simp [handshake, hbody, hdesc]

theorem descriptorAccepted_of (h : byteAt K 0 = 2 ∨ byteAt K 0 = 254) : descriptorAccepted K = true := by
  simpa [descriptorAccepted, descriptorType] using h

/-- The second check of R138. -/
theorem handshake_notPairwise (hbody : keyBody E K.length = K) (hlong : 95 ≤ K.length)
    (hdesc : byteAt K 0 = 2 ∨ byteAt K 0 = 254) (hpair : kiPairwise (keyInfo K) = false) :
    handshake keys sl E K.length = .plain sl .noValidHandshake .notPairwise := by
  simp [handshake, hbody, Nat.not_lt.2 hlong, descriptorAccepted_of hdesc, hpair]

/-- A body that passes the checks is handled by its class (R139). -/
theorem handshake_pairwise (hbody : keyBody E K.length = K) (hK : PairwiseBody K) :
    handshake keys sl E K.length = hsMessage keys sl E K.length := by
  obtain ⟨hlong, hdesc, hpair⟩ := hK
  simp [handshake, hbody, Nat.not_lt.2 hlong, descriptorAccepted_of hdesc, hpair]

/-- The bodies in no row of the table of R90. -/
theorem bodyClass_notShape
    (h : (kiInstall (keyInfo K) = true ∧ kiAck (keyInfo K) = true ∧ kiMic (keyInfo K) = false) ∨
      (kiAck (keyInfo K) = false ∧ kiMic (keyInfo K) = false) ∨
      (kiInstall (keyInfo K) = true ∧ kiAck (keyInfo K) = false ∧ kiMic (keyInfo K) = true ∧
        kiSecure (keyInfo K) = false)) : bodyClass K = .notShape := by
  rcases h with ⟨hinstall, hack, hmic⟩ | ⟨hack, hmic⟩ | ⟨hinstall, hack, hmic, hsecure⟩
  · simp [bodyClass, classify, hinstall, hack, hmic]
  · simp [bodyClass, classify, hack, hmic]
  · simp [bodyClass, classify, hinstall, hack, hmic, hsecure]

/-- A message 2 with no candidate key (R141). -/
theorem hsMessage2_noCandidate (h : wpaCandidates keys sl = []) (blen : Nat) :
    hsMessage2 keys sl E blen = .plain sl .noValidHandshake .noKey := by
  simp [hsMessage2, h]

/-- A message 2 that no candidate verifies (R142, R143). -/
theorem hsMessage2_noneVerifies (hbody : keyBody E K.length = K) (h : wpaCandidates keys sl ≠ [])
    (hmic : ∀ j ∈ wpaCandidates keys sl, micCompute (slice (candidatePtk keys sl (keyNonce K) j) 0 16)
      (micData E K.length) (kiVersion (keyInfo K)) ≠ keyMic K) :
    hsMessage2 keys sl E K.length = .plain sl .noValidHandshake .micMismatch := by
  have hsearch : msg2Search keys sl (keyNonce K) (micData E K.length) (keyMic K) (kiVersion (keyInfo K))
      (wpaCandidates keys sl) = none := by
    rcases msg2Search_spec keys sl (keyNonce K) (micData E K.length) (keyMic K) (kiVersion (keyInfo K))
      (wpaCandidates keys sl) with ⟨pre, k, post, hL, -, hk, -⟩ | ⟨hnone, -⟩
    · exact absurd (of_decide_eq_true hk) (hmic k (by simp [hL]))
    · exact hnone
  simp [hsMessage2, hbody, h, hsearch]

end

/-- Settles O46: the frame reaches the handshake, which makes the checks of R138 in their order and then goes by the class of
the body. -/
theorem handshakeRejections : Obligations.HandshakeRejections := by
  intro s fcs rt dec len F E K k sl hreach hclear hE rejects wpa candidates pmk ptk mic
  obtain ⟨hdispatch, hbody⟩ := dispatchFrame_eapolKey hclear hE s.keys s.replayEn fcs dec sl
  have reject {o : OutcomeCode} {r : ReasonCode} (h : handshake s.keys sl E K.length = .plain sl o r) : rejects o r :=
    exec_reaches_plain hreach (hdispatch.trans h)
  have reject_class {o : OutcomeCode} {r : ReasonCode} (hK : PairwiseBody K)
      (h : hsMessage s.keys sl E K.length = .plain sl o r) : rejects o r := reject ((handshake_pairwise hbody hK).trans h)
  refine ⟨fun h => reject (handshake_badDescriptor hbody h),
    fun hlong hdesc hpair => reject (handshake_notPairwise hbody hlong hdesc hpair), fun hK hshape => ?notShape,
    fun hK hinstall hack hmic hsecure hkdl => ?msg2⟩
  case notShape =>
    refine reject_class hK ?_
    simp only [hsMessage, hbody, bodyClass_notShape hshape]
  case msg2 =>
    have hclass : bodyClass K = .msg2 := by
      simp [bodyClass, classify, hinstall, hack, hmic, hsecure, keyDataLen, hkdl]
    have hmsg : hsMessage s.keys sl E K.length = hsMessage2 s.keys sl E K.length := by
      simp only [hsMessage, hbody, hclass]
    have hL : wpaCandidates s.keys sl = candidates := by
      rw [wpaCandidates, candidates_eq, isWpa_eq]
    exact ⟨fun hnil => reject_class hK (hmsg.trans (hsMessage2_noCandidate (hL.trans hnil) _)), fun hne hall =>
      reject_class hK (hmsg.trans (hsMessage2_noneVerifies hbody (hL ▸ hne) (hL ▸ hall)))⟩

/-! ### Protected packets that are not decrypted (R184 to R192) -/

/-- A loop in which every candidate fails answers the failure of the last one (R187). -/
theorem wepLoop_last {keys : List KeyEntry} {W : Bytes} {h c : Nat} {e : PipeFail} {tried : List Nat}
    (ht : ∀ j ∈ tried, ∃ e, wepTry W h (wepKeyOf keys j) = .error e) (hc : wepTry W h (wepKeyOf keys c) = .error e)
    (last : PipeFail) : wepLoop keys W h last (tried ++ [c]) = .error e := by
  induction tried generalizing last with
  | nil => simp only [List.nil_append, wepLoop, hc]
  | cons j tried ih =>
    obtain ⟨⟨e', hj⟩, ht⟩ := List.forall_mem_cons.1 ht
    simpa only [List.cons_append, wepLoop, hj] using ih ht e'

section
variable {keys : List KeyEntry} {replayEn fcs : Bool} {F : Bytes} {h : Nat} {sl : SaSlot}

theorem protectedPath_rsna (hlong : h + 4 ≤ F.length) (hext : extIv F h = true) :
    protectedPath keys replayEn fcs true F h sl = rsnaPath replayEn fcs F h sl := by
  simp [protectedPath, Nat.not_lt.2 hlong, hext]

theorem protectedPath_wep (hlong : h + 4 ≤ F.length) (hext : extIv F h = false) :
    protectedPath keys replayEn fcs true F h sl = wepPath keys fcs F h sl := by
  simp [protectedPath, Nat.not_lt.2 hlong, hext]

theorem wepPath_noCandidate (hL : wepCandidates keys sl = []) :
    wepPath keys fcs F h sl = .plain sl .unsuccessful .noKey := by
  simp [wepPath, hL]

theorem wepPath_allFail {tried : List Nat} {c : Nat} {e : PipeFail} (hL : wepCandidates keys sl = tried ++ [c])
    (ht : ∀ j ∈ tried, ∃ e, wepTry F h (wepKeyOf keys j) = .error e) (hc : wepTry F h (wepKeyOf keys c) = .error e) :
    wepPath keys fcs F h sl = .plain sl .unsuccessful (pipeReason e) := by
  simp [wepPath, hL, wepLoop_last ht hc]

/-- The pipeline of the RSNA path is TKIP for KEY_VER = 1 (R188, R189). -/
theorem rsnaPath_tkipFails (hck : sl.ckValid = true) (hvk : sl.validKey = true) (hver : sl.keyVer = 1) {e : PipeFail}
    (he : tkipTry F h sl.tk = .error e) : rsnaPath replayEn fcs F h sl = .plain sl .unsuccessful (pipeReason e) := by
  simp [rsnaPath, hck, hvk, hver, he]

/-- It is CCMP for any other KEY_VER (R188, R190). -/
theorem rsnaPath_ccmpFails (hck : sl.ckValid = true) (hvk : sl.validKey = true) (hver : sl.keyVer ≠ 1) {e : PipeFail}
    (he : ccmpTry F h sl.tk = .error e) : rsnaPath replayEn fcs F h sl = .plain sl .unsuccessful (pipeReason e) := by
  simp only [rsnaPath, hck, hvk, Bool.not_true, Bool.false_eq_true, if_false, if_neg hver, he]

/-- The replay check comes after the MIC (R165, R190). -/
theorem rsnaPath_replay (hck : sl.ckValid = true) (hvk : sl.validKey = true) (hver : sl.keyVer ≠ 1) {P : Bytes}
    (hP : ccmpTry F h sl.tk = .ok P) (hr : replayRejects replayEn (ccmpPn F h) sl = true) :
    rsnaPath replayEn fcs F h sl = .plain sl .unsuccessful .replay := by
  simp only [rsnaPath, hck, hvk, Bool.not_true, Bool.false_eq_true, if_false, if_neg hver, hP, hr, if_true]

end

/-- Settles O59: the protected path and the two paths behind it, each failure in its place. -/
theorem protectedPacketFailures : Obligations.ProtectedPacketFailures := by
  intro s fcs rt hs len F k sl hreach hprot fails kinds wep candidates wepKey
  have fail {dec : Bool} {r : ReasonCode}
      (h : protectedPath s.keys s.replayEn fcs dec F (hdrLen F) sl = .plain sl .unsuccessful r) : fails dec r :=
    exec_reaches_plain hreach (by simpa only [dispatchFrame, hprot, if_true] using h)
  have hkinds : ∀ x ∈ kinds, x.2 = pipeReason x.1 := by
    simp [kinds, pipeReason]
  have hL : wepCandidates s.keys sl = candidates := by
    rw [wepCandidates, candidates_eq, isWep_eq]
  refine ⟨fail (by simp [protectedPath]), fun hshort => fail (by simp [protectedPath, hshort]),
    fun hlong hext => ⟨fun hnil => ?noKey, fun tried c hcand ht x hx hc => ?wepFails⟩, fun hlong hext => ?rsna⟩
  case noKey =>
    exact fail ((protectedPath_wep hlong hext).trans (wepPath_noCandidate (hL.trans hnil)))
  case wepFails =>
    rw [hkinds x hx]
    exact fail ((protectedPath_wep hlong hext).trans (wepPath_allFail (hL.trans hcand) ht hc))
  case rsna =>
    have fail_rsna {r : ReasonCode} (h : rsnaPath s.replayEn fcs F (hdrLen F) sl = .plain sl .unsuccessful r) :
        fails true r := fail ((protectedPath_rsna hlong hext).trans h)
    refine ⟨fun hck => fail_rsna (by simp [rsnaPath, hck]), fun hck hvk => fail_rsna (by simp [rsnaPath, hck, hvk]),
      fun hck hvk => ⟨fun hver x hx he => ?tkip, fun hver => ⟨fun x hx he => ?ccmp, fun P hP hre hpv hpn => ?replay⟩⟩⟩
    case tkip =>
      rw [hkinds x hx]
      exact fail_rsna (rsnaPath_tkipFails hck hvk hver he)
    case ccmp =>
      rw [hkinds x hx]
      exact fail_rsna (rsnaPath_ccmpFails hck hvk hver he)
    case replay =>
      refine fail_rsna (rsnaPath_replay hck hvk hver hP ?_)
      simpa [replayRejects, hre, hpv, BitVec.ule_eq_decide] using hpn

end Sys2Proof.Machine

/-! The key derivation commands and the algebra of DerivePtk (spec/42_key_derivation.md R125 to R133). -/

namespace Sys2Proof.Machine

/-! ### The lexicographic order (R8) -/

/-- On byte strings of one length, the order decides every pair of different strings. -/
theorem eq_or_lexLt_swap {A B : Bytes} (h : A.length = B.length) : A = B ∨ lexLt B A = !lexLt A B := by
  induction A generalizing B with
  | nil => exact .inl (List.length_eq_zero_iff.1 h.symm).symm
  | cons a A ih =>
    cases B with
    | nil => cases h
    | cons b B =>
      by_cases hab : a = b
      case pos =>
        subst hab
        simpa [lexLt] using ih (by simpa using h)
      case neg =>
        have hult : b.ult a = !a.ult b := by
          simp only [BitVec.ult, Bool.eq_not_iff, ne_eq, decide_eq_decide]
          bv_omega
        exact .inr (by simp [lexLt, hab, Ne.symm hab, hult])

theorem minLex_comm {A B : Bytes} (h : A.length = B.length) : minLex B A = minLex A B := by
  rcases eq_or_lexLt_swap h with rfl | hswap
  · rfl
  · cases hlt : lexLt A B <;> simp [minLex, hswap, hlt]

theorem maxLex_comm {A B : Bytes} (h : A.length = B.length) : maxLex B A = maxLex A B := by
  rcases eq_or_lexLt_swap h with rfl | hswap
  · rfl
  · cases hlt : lexLt A B <;> simp [maxLex, hswap, hlt]

/-! ### DerivePtk (R127 to R130) -/

theorem derivePtk_swap_addresses {aa spa : Bytes} (h : aa.length = spa.length) (pmk an sn : Bytes) (nbits : Nat) :
    derivePtk pmk spa aa an sn nbits = derivePtk pmk aa spa an sn nbits := by
  simp only [derivePtk, ptkContext, minLex_comm h, maxLex_comm h]

theorem derivePtk_swap_nonces {an sn : Bytes} (h : an.length = sn.length) (pmk aa spa : Bytes) (nbits : Nat) :
    derivePtk pmk aa spa sn an nbits = derivePtk pmk aa spa an sn nbits := by
  simp only [derivePtk, ptkContext, minLex_comm h, maxLex_comm h]

theorem slice_zero_eq_of_prefix {A B : Bytes} (hp : A <+: B) {n : Nat} (hn : n ≤ A.length) :
    slice A 0 n = slice B 0 n := by
  obtain ⟨C, rfl⟩ := hp
  exact (slice_append_of_le (by omega) C).symm

theorem slice_slice_zero (B : Bytes) {n m : Nat} (h : n ≤ m) : slice (slice B 0 m) 0 n = slice B 0 n := by
  simp only [slice, List.drop_zero, List.take_take, Nat.min_eq_left h]

/-- A longer PRF runs the iterations of the shorter one first (R127), so its output begins with the shorter output. -/
theorem prf_eq_slice_prf (K A B : Bytes) {n m : Nat} (h : n ≤ m) : prf K A B n = slice (prf K A B m) 0 (n / 8) := by
  have hiter : List.range ((n + 159) / 160) <+: List.range ((m + 159) / 160) := by
    have htake := List.take_prefix ((n + 159) / 160) (List.range ((m + 159) / 160))
    rwa [List.take_range, Nat.min_eq_left (by omega)] at htake
  have hcover : n / 8 ≤ ((List.range ((n + 159) / 160)).flatMap (prfBlock K A B)).length := by
    simp only [List.length_flatMap, length_prfBlock, List.map_const', List.length_range, List.sum_replicate,
      smul_eq_mul]
    omega
  calc prf K A B n
      = slice ((List.range ((m + 159) / 160)).flatMap (prfBlock K A B)) 0 (n / 8) :=
        slice_zero_eq_of_prefix (hiter.flatMap _) hcover
    _ = slice (prf K A B m) 0 (n / 8) := (slice_slice_zero _ (by omega)).symm

/-- Settles O40: the PRF input orders each pair itself, and a longer PRF output begins with the shorter one. -/
theorem ptkSymmetryAndPrefix : Obligations.PtkSymmetryAndPrefix :=
  fun pmk _ _ _ _ =>
    ⟨fun nbits haa hspa => derivePtk_swap_addresses (haa.trans hspa.symm) pmk _ _ nbits,
      fun nbits han hsn => derivePtk_swap_nonces (han.trans hsn.symm) pmk _ _ nbits,
      fun n _ _ _ hle => ⟨length_derivePtk _ _ _ _ _ n, prf_eq_slice_prf _ _ _ hle⟩⟩

/-! ### PSK_DERIVE (R132) -/

theorem passLengthsLegal_iff {passLen ssidLen : Nat} :
    passLengthsLegal passLen ssidLen = true ↔ 8 ≤ passLen ∧ passLen ≤ 63 ∧ ssidLen ≤ 32 := decide_eq_true_iff

theorem exec_pskDerive_legal {s : State} (h : passLengthsLegal (s.paramLength 0) (s.paramLength 1) = true) :
    exec .pskDerive s =
      .next ((s.memWrite .result 0
        (passwordToPsk (s.param 2 (s.paramLength 0)) (s.param 66 (s.paramLength 1)))).finish
          (Instr.opcode .pskDerive) .ok .none 32 0 0) := by
  simp only [exec, execPskDerive, if_pos h]

theorem exec_pskDerive_badField {s : State} (h : ¬ passLengthsLegal (s.paramLength 0) (s.paramLength 1) = true) :
    exec .pskDerive s = .next (s.illegal (Instr.opcode .pskDerive) .badField) := by
  simp only [exec, execPskDerive, if_neg h]

/-- Settles O38: the derived key is 32 bytes whatever the lengths, so RESULT gets exactly these. -/
theorem pskDeriveResult : Obligations.PskDeriveResult := by
  refine ⟨rfl, fun s => ⟨fun hlegal => ?legal, fun hbad => ?badField⟩⟩
  case legal =>
    have hexec := exec_pskDerive_legal (passLengthsLegal_iff.2 hlegal)
    have hread := memRead_memWrite s .result 0
      (passwordToPsk (s.param 2 (s.paramLength 0)) (s.param 66 (s.paramLength 1)))
    have hrest := s.memWrite_sameBuffersBut .result 0
      (passwordToPsk (s.param 2 (s.paramLength 0)) (s.param 66 (s.paramLength 1)))
    rw [length_passwordToPsk] at hread hrest
    exact ⟨_, hexec, State.finish_reports _ _ _ _ _ _ _, hread, hrest, rfl, rfl, exec_sameControl hexec⟩
  case badField =>
    exact ⟨_, exec_pskDerive_badField (mt passLengthsLegal_iff.1 hbad), s.illegal_reports _ _,
      s.illegal_sameButResults _ _⟩

/-! ### PTK_DERIVE (R133) -/

theorem nbitsLegal_iff {nbits : Nat} : nbitsLegal nbits = true ↔ nbits ≠ 0 ∧ nbits ≤ 512 ∧ nbits % 8 = 0 :=
  decide_eq_true_iff

theorem exec_ptkDerive_legal {s : State} (hres : s.nbitsReservedZero = true) (h : nbitsLegal s.nbits = true) :
    exec .ptkDerive s =
      .next ((s.memWrite .result 0 (s.paramPtk s.nbits)).finish (Instr.opcode .ptkDerive) .ok .none
        (BitVec.ofNat 32 (s.nbits / 8)) 0 0) := by
  simp only [exec, execPtkDerive, hres, h, Bool.and_self, if_true]

theorem exec_ptkDerive_badField {s : State} (h : ¬ nbitsLegal s.nbits = true) :
    exec .ptkDerive s = .next (s.illegal (Instr.opcode .ptkDerive) .badField) := by
  simp only [exec, execPtkDerive, h, Bool.and_false, Bool.false_eq_true, if_false]

/-- Settles O39: `State.paramPtk` is the named DerivePtk, and its length is what RES0 counts and RESULT gets. -/
theorem ptkDeriveResult : Obligations.PtkDeriveResult := by
  refine ⟨rfl, fun s hres => ⟨fun hlegal => ?legal, fun hbad => ?badField⟩⟩
  case legal =>
    have hexec := exec_ptkDerive_legal (beq_iff_eq.2 hres) (nbitsLegal_iff.2 hlegal)
    have hread := memRead_memWrite s .result 0 (s.paramPtk s.nbits)
    have hrest := s.memWrite_sameBuffersBut .result 0 (s.paramPtk s.nbits)
    rw [length_paramPtk] at hread hrest
    exact ⟨_, hexec, State.finish_reports _ _ _ _ _ _ _, hread, hrest, rfl, rfl, exec_sameControl hexec⟩
  case badField =>
    exact ⟨_, exec_ptkDerive_badField (mt nbitsLegal_iff.1 hbad), s.illegal_reports _ _, s.illegal_sameButResults _ _⟩

end Sys2Proof.Machine

/-! MIC_CHECK and the handshake messages that need no candidate key (spec/43_handshake.md R134 to R147). -/

namespace Sys2Proof.Machine

/-! ### MIC_CHECK (R134, R136) -/

theorem micMatches_iff {d claimed kck : Bytes} {ver : BitVec 3} :
    micMatches d claimed kck ver = true ↔ micCompute kck d ver = claimed := decide_eq_true_iff

theorem exec_micCheck_tooLong {s : State} {len : Nat} (h : Config.frameBufLen < len) :
    exec (.micCheck len) s = .next (s.illegal (Instr.opcode (.micCheck len)) .badField) := by
  simp [exec, execMicCheck, h]

section
variable {s : State} {len : Nat} (hres : s.verReservedZero = true) (hlen : len ≤ Config.frameBufLen)
include hres hlen

theorem exec_micCheck_matches
    (h : micCompute (s.param 0 16) (s.frameIn 0 len) s.verOperand = s.param 16 16) :
    exec (.micCheck len) s = .next (s.finish (Instr.opcode (.micCheck len)) .ok .none 1 0 0) := by
  simp [exec, execMicCheck, hres, Nat.not_lt.2 hlen, micMatches_iff.2 h]

theorem exec_micCheck_differs
    (h : micCompute (s.param 0 16) (s.frameIn 0 len) s.verOperand ≠ s.param 16 16) :
    exec (.micCheck len) s =
      .next (s.finish (Instr.opcode (.micCheck len)) .micMismatch .micMismatch 0 0 0) := by
  simp [exec, execMicCheck, hres, Nat.not_lt.2 hlen, mt micMatches_iff.1 h]

end

/-- Settles O41: the named MIC is `micCompute` of the operands, and the command compares it with the claimed one. -/
theorem micCheckResult : Obligations.MicCheckResult := by
  refine ⟨fun _ _ => rfl, fun s len hres => ?_⟩
  have hzero : s.verReservedZero = true := beq_iff_eq.2 hres
  exact ⟨fun hlen h => ⟨_, exec_micCheck_matches hzero hlen h, s.finish_reports _ _ _ _ _ _,
      s.finish_sameButResults _ _ _ _ _ _⟩,
    fun hlen h => ⟨_, exec_micCheck_differs hzero hlen h, s.finish_reports _ _ _ _ _ _,
      s.finish_sameButResults _ _ _ _ _ _⟩,
    fun hlen => ⟨_, exec_micCheck_tooLong hlen, s.illegal_reports _ _, s.illegal_sameButResults _ _⟩⟩

/-! ### The class of a pairwise body and its message (R90, R139) -/

section
variable {K : Bytes}

theorem bodyClass_eq_msg1_iff :
    bodyClass K = .msg1 ↔ kiInstall (keyInfo K) = false ∧ kiAck (keyInfo K) = true ∧ kiMic (keyInfo K) = false := by
  obtain ⟨hmsg1, -⟩ := messageClassesFollowTheTable (kiInstall (keyInfo K)) (kiAck (keyInfo K)) (kiMic (keyInfo K))
    (kiSecure (keyInfo K)) (keyDataLen K)
  exact hmsg1

theorem bodyClass_eq_msg3_iff : bodyClass K = .msg3 ↔ kiAck (keyInfo K) = true ∧ kiMic (keyInfo K) = true := by
  obtain ⟨-, -, -, hmsg3, -⟩ := messageClassesFollowTheTable (kiInstall (keyInfo K)) (kiAck (keyInfo K))
    (kiMic (keyInfo K)) (kiSecure (keyInfo K)) (keyDataLen K)
  exact hmsg3

/-- The two forms of message 4 in one: without ACK and with MIC, SECURE decides, or else INSTALL and KDL. -/
theorem bodyClass_eq_msg4_iff :
    bodyClass K = .msg4 ↔ kiAck (keyInfo K) = false ∧ kiMic (keyInfo K) = true ∧
      (kiSecure (keyInfo K) = true ∨
        (kiInstall (keyInfo K) = false ∧ kiSecure (keyInfo K) = false ∧ keyDataLen K = 0)) := by
  obtain ⟨-, -, hmsg4, -⟩ := messageClassesFollowTheTable (kiInstall (keyInfo K)) (kiAck (keyInfo K))
    (kiMic (keyInfo K)) (kiSecure (keyInfo K)) (keyDataLen K)
  refine Iff.trans hmsg4 ⟨?_, ?_⟩
  · rintro (⟨hinstall, hack, hmic, hsecure, hkdl⟩ | ⟨hack, hmic, hsecure⟩)
    · exact ⟨hack, hmic, .inr ⟨hinstall, hsecure, hkdl⟩⟩
    · exact ⟨hack, hmic, .inl hsecure⟩
  · rintro ⟨hack, hmic, hsecure | ⟨hinstall, hsecure, hkdl⟩⟩
    · exact .inr ⟨hack, hmic, hsecure⟩
    · exact .inl ⟨hinstall, hack, hmic, hsecure, hkdl⟩

variable {keys : List KeyEntry} {sl : SaSlot} {E : Bytes} (hbody : keyBody E K.length = K)
include hbody

theorem hsMessage_msg1 (h : bodyClass K = .msg1) : hsMessage keys sl E K.length = hsMessage1 sl K := by
  simp only [hsMessage, hbody, h]

theorem hsMessage_msg3 (h : bodyClass K = .msg3) : hsMessage keys sl E K.length = .step sl 3 := by
  simp only [hsMessage, hbody, h]

theorem hsMessage_msg4 (h : bodyClass K = .msg4) : hsMessage keys sl E K.length = hsMessage4 sl := by
  simp only [hsMessage, hbody, h]

end

/-! ### A handshake step that is taken (R146, R193) -/

/-- RES1 of a step without a key holds the message number alone (R21). -/
theorem res1Word_step (msg : BitVec 4) : res1Word { Res1.zero with hsMsg := msg } = 0#16 ++ msg ++ 0#12 := by
  revert msg
  decide

/-- PROCESS_PACKET on a pairwise body whose message is a step reports the message number and writes the step's slot. -/
theorem exec_reaches_step {s : State} {fcs rt : Bool} {len : Nat} {F E K : Bytes} {k : Nat} {sl sl' : SaSlot}
    {msg : BitVec 4} (hreach : s.Reaches fcs rt len F k sl) (hclear : frameProtected F = false) (hE : EapolKey F E K)
    (hK : PairwiseBody K) (dec : Bool)
    (hmsg : keyBody E K.length = K → hsMessage s.keys sl E K.length = .step sl' msg) :
    ∃ t, exec (.processPacket fcs rt true dec len) s = .next t ∧
      t.Reports 0x40 .handshakeStepOk .none (BitVec.ofNat 32 k) (0#16 ++ msg ++ 0#12) 0 ∧
      s.store.Wrote t.store k sl' ∧ s.FrameOnly t := by
  obtain ⟨hdispatch, hbody⟩ := dispatchFrame_pairwise hclear hE hK s.keys s.replayEn fcs dec sl
  obtain ⟨t, ht, ⟨hstatus, hres0, hres1, hout⟩, hwrote, honly, -⟩ :=
    exec_reaches hreach true dec (hdispatch.trans (hmsg hbody))
  exact ⟨t, ht, ⟨hstatus, hres0, hres1.trans (res1Word_step msg), hout⟩, hwrote, honly⟩

/-- Settles O43: the three bits make the body a message 1, whose step writes ANONCE, KEY_VER and STAGE. -/
theorem handshakeMessage1 : Obligations.HandshakeMessage1 := by
  intro s fcs rt dec len F E K k sl hreach hclear hE hK hinstall hack hmic
  have hclass : bodyClass K = .msg1 := bodyClass_eq_msg1_iff.2 ⟨hinstall, hack, hmic⟩
  exact exec_reaches_step hreach hclear hE hK dec fun hbody => hsMessage_msg1 hbody hclass

/-- Settles O45: the bits make the body a message 3 or 4, and neither step looks at the MIC or the stage. -/
theorem handshakeMessages3And4 : Obligations.HandshakeMessages3And4 := by
  intro s fcs rt dec len F E K k sl hreach hclear hE hK
  refine ⟨fun hack hmic => ?msg3, fun hbits => ?msg4⟩
  case msg3 =>
    have hclass : bodyClass K = .msg3 := bodyClass_eq_msg3_iff.2 ⟨hack, hmic⟩
    exact exec_reaches_step hreach hclear hE hK dec fun hbody => hsMessage_msg3 hbody hclass
  case msg4 =>
    have hclass : bodyClass K = .msg4 := bodyClass_eq_msg4_iff.2 hbits
    exact exec_reaches_step hreach hclear hE hK dec fun hbody => hsMessage_msg4 hbody hclass

end Sys2Proof.Machine

/-! Byte strings behind a cipher header, and the round trips of WEP, TKIP and CCMP
(spec/44_cipher_pipelines.md R153 to R166). -/

namespace Sys2Proof.Machine

/-! ### Reading and changing a part of a byte string (R7) -/

theorem byteAt_append_of_lt {A : Bytes} {i : Nat} (h : i < A.length) (B : Bytes) : byteAt (A ++ B) i = byteAt A i := by
  rw [byteAt, byteAt, List.getD_append _ _ _ _ h]

theorem byteAt_eq_getElem {B : Bytes} {i : Nat} (h : i < B.length) : byteAt B i = B[i] :=
  List.getD_eq_getElem B 0#8 h

/-- The middle part of a string in three parts. -/
theorem slice_append_append {A B C : Bytes} {o n : Nat} (ho : A.length = o) (hn : B.length = n) :
    slice (A ++ B ++ C) o n = B := by
  rw [slice_append_of_le (by rw [List.length_append]; omega), slice_append_right ho hn]

theorem slice_zero_append {A B : Bytes} {n : Nat} (hn : A.length = n) : slice (A ++ B) 0 n = A := by
  subst hn
  simp [slice]

/-- `⊕` keeps a change of one byte of its first operand in its place. -/
theorem xorBytes_set (A B : Bytes) (j : Nat) (b : Byte) :
    xorBytes (A.set j b) B = (xorBytes A B).set j (b ^^^ byteAt B j) := by
  induction A generalizing B j with
  | nil => rfl
  | cons a A ih =>
    cases B with
    | nil => simp [xorBytes]
    | cons k B =>
      cases j with
      | zero => rfl
      | succ j => simpa [xorBytes, byteAt] using ih B j

/-! ### RC4 and WepCore (R152, R153) -/

/-- RC4 is its own inverse. -/
theorem rc4_rc4 (K d : Bytes) : rc4 K (rc4 K d) = d := by
  have hlen : (rc4 K d).length = d.length := length_rc4 K d
  rw [rc4, hlen, rc4, xorBytes_xorBytes_cancel _ _ (by simp)]

/-- A changed byte of the ciphertext changes the same byte of the plaintext, to another value. -/
theorem rc4_rc4_set {K d : Bytes} {j : Nat} {b : Byte} (hj : j < d.length) (hb : byteAt (rc4 K d) j ≠ b) :
    ∃ v, rc4 K ((rc4 K d).set j b) = d.set j v ∧ d[j] ≠ v := by
  have hset : rc4 K ((rc4 K d).set j b) = d.set j (b ^^^ byteAt (rc4Keystream K d.length) j) := by
    have hinv := rc4_rc4 K d
    rw [rc4, length_rc4] at hinv
    rw [rc4, List.length_set, length_rc4, xorBytes_set, hinv]
  refine ⟨_, hset, fun heq => hb ?_⟩
  rw [byteAt_eq_getElem (by simpa using hj)]
  have hbyte : (rc4 K d)[j]'(by simpa using hj) = d[j] ^^^ byteAt (rc4Keystream K d.length) j := by
    rw [byteAt_eq_getElem (by simpa using hj)]
    simp [rc4, xorBytes]
  rw [hbyte, heq, BitVec.xor_assoc, BitVec.xor_self, BitVec.xor_zero]

/-- What `WepCore` makes of a ciphertext whose plaintext is `D` and four bytes behind it. -/
theorem wepCore_of_rc4 {seed C D icv : Bytes} (hQ : rc4 seed C = D ++ icv) (hicv : icv.length = 4) :
    wepCore seed C = if le32Bytes (crc32 D) = icv then .ok D else .error .icvMismatch := by
  have hC : C.length - 4 = D.length := by
    have hlen := congrArg List.length hQ
    rw [length_rc4, List.length_append] at hlen
    omega
  simp only [wepCore, hQ, hC, slice_zero_append, slice_append_right rfl hicv]

theorem wepCore_rc4 (seed D : Bytes) : wepCore seed (rc4 seed (D ++ le32Bytes (crc32 D))) = .ok D := by
  rw [wepCore_of_rc4 (rc4_rc4 _ _) rfl, if_pos rfl]

/-! ### WEP (R154) -/

/-- `WepTry` on a frame in parts, at least four bytes behind its cipher header. -/
theorem wepTry_append {hdr iv C : Bytes} (hiv : iv.length = 3) (hC : 4 ≤ C.length) (keyId : Byte) (wkey : Bytes) :
    wepTry (hdr ++ iv ++ keyId :: C) hdr.length wkey = wepCore (iv ++ wkey) C := by
  have hlong : ¬ (hdr ++ iv ++ keyId :: C).length < hdr.length + 8 := by
    simp only [List.length_append, List.length_cons]
    omega
  have hdrop : (hdr ++ iv ++ keyId :: C).drop (hdr.length + 4) = C := by
    rw [List.append_cons]
    exact List.drop_left' (by simp only [List.length_append, List.length_singleton]; omega)
  rw [wepTry, if_neg hlong, slice_append_append rfl hiv, hdrop]

/-! ### TKIP (R160) -/

theorem addr2_append {A : Bytes} (h : 16 ≤ A.length) (B : Bytes) : addr2 (A ++ B) = addr2 A :=
  slice_append_of_le h B

/-- The TKIP seed reads the MAC header and the TKIP header only. -/
theorem tkipSeed_append {A : Bytes} {h : Nat} (hh : 24 ≤ h) (hA : h + 8 ≤ A.length) (B tk : Bytes) :
    tkipSeed (A ++ B) h tk = tkipSeed A h tk := by
  have hbyte (i : Nat) (hi : i < h + 8) : byteAt (A ++ B) i = byteAt A i := byteAt_append_of_lt (by omega) B
  have hiv32 : tkipIv32 (A ++ B) h = tkipIv32 A h := by
    simp only [tkipIv32, le32]
    rw [hbyte _ (by omega), hbyte _ (by omega), hbyte _ (by omega), hbyte _ (by omega)]
  have hiv16 : tkipIv16 (A ++ B) h = tkipIv16 A h := by
    simp only [tkipIv16]
    rw [hbyte _ (by omega), hbyte _ (by omega)]
  rw [tkipSeed, tkipSeed, hiv32, hiv16, addr2_append (by omega)]

theorem tkipTry_tkipEncrypt {hdr ch mic : Bytes} (hhdr : 24 ≤ hdr.length) (hch : ch.length = 8) (hmic : mic.length = 8)
    (tk D : Bytes) : tkipTry (tkipEncrypt hdr ch tk D mic) hdr.length tk = .ok D := by
  have hA : hdr.length + 8 = (hdr ++ ch).length := by rw [List.length_append, hch]
  have hlong : ¬ (tkipEncrypt hdr ch tk D mic).length < hdr.length + 20 := by
    simp only [tkipEncrypt, List.length_append, length_rc4, length_le32Bytes]
    omega
  have hdata : slice (D ++ mic) 0 ((D ++ mic).length - 8) = D :=
    slice_zero_append (by rw [List.length_append]; omega)
  rw [tkipTry, if_neg hlong, tkipEncrypt, tkipSeed_append hhdr hA.le, hA, List.drop_left, wepCore_rc4]
  exact congrArg Except.ok hdata

/-- Settles O48: RC4 is its own inverse, and both seeds read only bytes in front of the ciphertext. -/
theorem wepAndTkipRoundTrip : Obligations.WepAndTkipRoundTrip := by
  refine ⟨fun hdr iv wkey D keyId hiv _ _ => ?wep, fun hdr ch tk D mic hhdr hch _ hmic => ?tkip⟩
  case wep => rw [wepEncrypt, wepTry_append hiv (by simp), wepCore_rc4]
  case tkip => exact tkipTry_tkipEncrypt hhdr hch hmic tk D

/-! ### CCM (R163) -/

@[simp] theorem length_ccmMacStep (tk x d : Bytes) : (ccmMacStep tk x d).length = 16 := length_aes128 _ _

theorem length_ccmTag (tk nonce : Bytes) {x : Bytes} (h : x.length = 16) : (ccmTag tk nonce x).length = 8 := by
  simp [ccmTag, ccmKeystream, h]

theorem length_ccmEncryptBlocks_snd (tk nonce : Bytes) (n i : Nat) (D : Bytes) {x : Bytes} (hx : x.length = 16) :
    (ccmEncryptBlocks tk nonce n i D x).2.length = 16 := by
  induction n generalizing i D x with
  | zero => exact hx
  | succ n ih => exact ih _ _ (length_ccmMacStep _ _ _)

/-- A string cut behind its first block: a whole block, or a shorter last one. -/
theorem take_drop_block {A B : Bytes} (h : A.length = 16 ∨ (A.length ≤ 16 ∧ B.length = 0)) :
    (A ++ B).take 16 = A ∧ (A ++ B).drop 16 = B := by
  rcases h with hfull | ⟨hshort, hnil⟩
  · exact ⟨List.take_left' hfull, List.drop_left' hfull⟩
  · obtain rfl := List.length_eq_zero_iff.1 hnil
    rw [List.append_nil]
    exact ⟨List.take_of_length_le hshort, List.drop_of_length_le hshort⟩

/-- The payload loop of CCM decryption undoes that of encryption, block by block, and its MAC takes the same blocks. -/
theorem ccmBlocks_ccmEncryptBlocks (tk nonce : Bytes) (n i : Nat) (D x : Bytes) (hn : D.length ≤ 16 * n) :
    (ccmEncryptBlocks tk nonce n i D x).1.length = D.length ∧
      ccmBlocks tk nonce n i (ccmEncryptBlocks tk nonce n i D x).1 x = (D, (ccmEncryptBlocks tk nonce n i D x).2) := by
  induction n generalizing i D x with
  | zero =>
    obtain rfl : D = [] := List.length_eq_zero_iff.1 (by omega)
    exact ⟨rfl, rfl⟩
  | succ n ih =>
    obtain ⟨hlen, hrun⟩ := ih (i + 1) (D.drop 16) (ccmMacStep tk x (D.take 16)) (by rw [List.length_drop]; omega)
    rw [List.length_drop] at hlen
    have hblock : (xorBytes (D.take 16) (ccmKeystream tk nonce i)).length = min 16 D.length := by
      simp [ccmKeystream]
    have hplain : xorBytes (xorBytes (D.take 16) (ccmKeystream tk nonce i)) (ccmKeystream tk nonce i) = D.take 16 :=
      xorBytes_xorBytes_cancel _ _ (by simp [ccmKeystream])
    obtain ⟨htake, hdrop⟩ := take_drop_block
      (A := xorBytes (D.take 16) (ccmKeystream tk nonce i))
      (B := (ccmEncryptBlocks tk nonce n (i + 1) (D.drop 16) (ccmMacStep tk x (D.take 16))).1) (by omega)
    constructor
    · simp only [ccmEncryptBlocks, List.length_append]
      omega
    · simp only [ccmEncryptBlocks, ccmBlocks, htake, hdrop, hplain, hrun, List.take_append_drop]

/-- What CCM encryption answers: a ciphertext as long as the data, and the 8-byte MIC that decryption recomputes. -/
theorem ccmEncrypt_spec (tk nonce aad D : Bytes) :
    ∃ C M, ccmEncrypt tk nonce aad D = C ++ M ∧ C.length = D.length ∧ M.length = 8 ∧
      ccmDecrypt tk nonce aad C M = .ok D := by
  obtain ⟨hlen, hrun⟩ := ccmBlocks_ccmEncryptBlocks tk nonce ((D.length + 15) / 16) 1 D
    (ccmMacStart tk nonce aad D.length) (by omega)
  have htag := length_ccmTag tk nonce (length_ccmEncryptBlocks_snd tk nonce ((D.length + 15) / 16) 1 D
    (x := ccmMacStart tk nonce aad D.length) (length_aes128 _ _))
  refine ⟨_, _, rfl, hlen, htag, ?_⟩
  simp only [ccmDecrypt, hlen, hrun, if_true]

/-! ### CCMP (R161, R162, R164) -/

section
variable {A : Bytes} (hA : 24 ≤ A.length) (B : Bytes)
include hA

theorem frameDs_append : frameDs (A ++ B) = frameDs A := by
  rw [frameDs, frameDs, byteAt_append_of_lt (by omega)]

theorem frameQos_append : frameQos (A ++ B) = frameQos A := by
  simp only [frameQos, frameType, byteAt_append_of_lt (show 0 < A.length by omega)]

theorem hdrLen_append : hdrLen (A ++ B) = hdrLen A := by
  simp only [hdrLen, frameDs_append hA, frameQos_append hA]

end

section
variable {A : Bytes} (hA : hdrLen A ≤ A.length) (B : Bytes)
include hA

theorem qosByte_append (hq : frameQos A = true) : qosByte (A ++ B) = qosByte A := by
  have h24 := Nat.le_trans (hdrLen_ge A) hA
  simp only [qosByte, frameDs_append h24]
  simp only [hdrLen, hq, if_true] at hA
  split at hA
  · next hds => rw [if_pos hds, if_pos hds, byteAt_append_of_lt (by omega)]
  · next hds => rw [if_neg hds, if_neg hds, byteAt_append_of_lt (by omega)]

/-- The CCMP nonce reads the MAC header only. -/
theorem ccmpNonce_append (pn : BitVec 48) : ccmpNonce (A ++ B) pn = ccmpNonce A pn := by
  have h24 := Nat.le_trans (hdrLen_ge A) hA
  simp only [ccmpNonce, frameQos_append h24, addr2_append (show 16 ≤ A.length by omega)]
  split
  · next hq => rw [qosByte_append hA B hq]
  · rfl

theorem aadTail_append : aadTail (A ++ B) = aadTail A := by
  have h24 := Nat.le_trans (hdrLen_ge A) hA
  simp only [aadTail, frameDs_append h24, frameQos_append h24]
  simp only [hdrLen] at hA
  by_cases hds : frameDs A = 3
  · rw [if_pos hds] at hA
    have haddr4 : addr4 (A ++ B) = addr4 A := slice_append_of_le (by omega) B
    by_cases hq : frameQos A = true
    · rw [if_pos hq] at hA
      simp only [if_pos hds, haddr4, byteAt_append_of_lt (show 30 < A.length by omega)]
    · simp only [if_pos hds, if_neg hq, haddr4]
  · by_cases hq : frameQos A = true
    · rw [if_pos hq] at hA
      simp only [if_neg hds, byteAt_append_of_lt (show 24 < A.length by omega)]
    · simp only [if_neg hds, if_neg hq]

/-- The CCMP AAD reads the MAC header only. -/
theorem ccmpAad_append : ccmpAad (A ++ B) = ccmpAad A := by
  have h24 := Nat.le_trans (hdrLen_ge A) hA
  have hbyte (i : Nat) (hi : i < 24) : byteAt (A ++ B) i = byteAt A i := byteAt_append_of_lt (by omega) B
  rw [ccmpAad, ccmpAad, aadTail_append hA, hbyte 0 (by omega), hbyte 1 (by omega), hbyte 22 (by omega),
    slice_append_of_le (by omega)]

end

theorem ccmpPn_append {A : Bytes} {h : Nat} (hA : h + 8 ≤ A.length) (B : Bytes) : ccmpPn (A ++ B) h = ccmpPn A h := by
  have hbyte (i : Nat) (hi : i < h + 8) : byteAt (A ++ B) i = byteAt A i := byteAt_append_of_lt (by omega) B
  simp only [ccmpPn, le48]
  rw [hbyte _ (by omega), hbyte _ (by omega), hbyte _ (by omega), hbyte _ (by omega), hbyte _ (by omega),
    hbyte _ (by omega)]

/-- `CcmpTry` on a frame in parts: the headers `A`, the ciphertext and the MIC. -/
theorem ccmpTry_append {A C M : Bytes} {h : Nat} (hhdr : hdrLen A ≤ A.length) (hA : A.length = h + 8)
    (hM : M.length = 8) (tk : Bytes) :
    ccmpTry (A ++ (C ++ M)) h tk = ccmDecrypt tk (ccmpNonce A (ccmpPn A h)) (ccmpAad A) C M := by
  have hlen : (A ++ (C ++ M)).length = h + C.length + 16 := by
    simp only [List.length_append]
    omega
  have hC : slice (A ++ (C ++ M)) (h + 8) ((A ++ (C ++ M)).length - h - 16) = C := by
    rw [← List.append_assoc]
    exact slice_append_append hA (by rw [List.append_assoc]; omega)
  have hMIC : slice (A ++ (C ++ M)) ((A ++ (C ++ M)).length - 8) 8 = M := by
    rw [← List.append_assoc]
    exact slice_append_right (by simp only [List.length_append]; omega) hM
  rw [ccmpTry, if_neg (by omega), hC, hMIC, ccmpNonce_append hhdr, ccmpPn_append hA.ge, ccmpAad_append hhdr]

/-- Settles O49: decryption undoes the CCM blocks, under a nonce and an AAD that read only the headers. -/
theorem ccmpRoundTrip : Obligations.CcmpRoundTrip := by
  intro hdr ch tk D hhdr hch _
  have hA : (hdr ++ ch).length = hdr.length + 8 := by rw [List.length_append, hch]
  have h24 := Nat.le_trans (hdrLen_ge hdr) hhdr
  have hreach : hdrLen (hdr ++ ch) ≤ (hdr ++ ch).length := by
    rw [hdrLen_append h24]
    omega
  obtain ⟨C, M, henc, -, hM, hdec⟩ := ccmEncrypt_spec tk (ccmpNonce (hdr ++ ch) (ccmpPn (hdr ++ ch) hdr.length))
    (ccmpAad (hdr ++ ch)) D
  rw [ccmpEncrypt, henc, ccmpTry_append hreach hA hM, hdec]

end Sys2Proof.Machine

/-! The CRC-32 tells byte strings that differ in one byte apart, so that WEP's ICV finds one changed byte
(spec/44_cipher_pipelines.md R151, R153, R166). -/

namespace Sys2Proof.Machine

/-! ### The CRC register (R151) -/

theorem getLsbD_crcBit (c : Word) (i : Nat) :
    (crcBit c).getLsbD i = (c.getLsbD (i + 1) ^^ (c.getLsbD 0 && crcPoly.getLsbD i)) := by
  rw [crcBit]
  split
  · next h => rw [BitVec.getLsbD_xor, BitVec.getLsbD_ushiftRight, h, Bool.true_and, Nat.add_comm]
  · next h =>
    rw [BitVec.getLsbD_ushiftRight, Bool.eq_false_iff.2 h, Bool.false_and, Bool.xor_false, Nat.add_comm]

/-- A bit step loses nothing: the polynomial's top bit keeps the bit that is shifted out. -/
theorem crcBit_injective : Function.Injective crcBit := by
  intro c d h
  have hlow : c.getLsbD 0 = d.getLsbD 0 := by
    have htop := congrArg (fun w => w.getLsbD 31) h
    rwa [getLsbD_crcBit, getLsbD_crcBit, BitVec.getLsbD_of_ge c 32 (by omega), BitVec.getLsbD_of_ge d 32 (by omega),
      show crcPoly.getLsbD 31 = true by decide, Bool.false_xor, Bool.and_true, Bool.false_xor, Bool.and_true] at htop
  apply BitVec.eq_of_getLsbD_eq
  intro i hi
  cases i with
  | zero => exact hlow
  | succ i =>
    have hbit := congrArg (fun w => w.getLsbD i) h
    rw [getLsbD_crcBit, getLsbD_crcBit, hlow] at hbit
    exact Bool.xor_left_inj.1 hbit

theorem crcByte_eq_iff {c d : Word} {a b : Byte} :
    crcByte c a = crcByte d b ↔ c ^^^ a.setWidth 32 = d ^^^ b.setWidth 32 := by
  simp only [crcByte, crcBit_injective.eq_iff]

/-- Different registers stay different whatever bytes follow. -/
theorem crcRun_injective (d : Bytes) : Function.Injective fun c => crcRun c d := by
  induction d with
  | nil => exact fun _ _ h => h
  | cons b d ih => exact fun _ _ h => (BitVec.xor_left_inj _).1 (crcByte_eq_iff.1 (ih h))

/-- Different bytes take one register to different registers. -/
theorem crcByte_injective (c : Word) : Function.Injective (crcByte c) := by
  intro a b h
  have hwide := congrArg (BitVec.setWidth 8) ((BitVec.xor_right_inj _).1 (crcByte_eq_iff.1 h))
  rwa [BitVec.setWidth_setWidth_of_le _ (by decide), BitVec.setWidth_setWidth_of_le _ (by decide),
    BitVec.setWidth_eq, BitVec.setWidth_eq] at hwide

theorem crc32_append_cons (A B : Bytes) (b : Byte) :
    crc32 (A ++ b :: B) = crcRun (crcByte (crcRun 0xFFFFFFFF A) b) B ^^^ 0xFFFFFFFF := by
  simp only [crc32, crcRun, List.foldl_append, List.foldl_cons]

/-- One changed byte changes the CRC-32. -/
theorem crc32_set_ne {D : Bytes} {j : Nat} {v : Byte} (hj : j < D.length) (hv : D[j] ≠ v) :
    crc32 (D.set j v) ≠ crc32 D := by
  intro h
  have hsplit : D = D.take j ++ D[j] :: D.drop (j + 1) := by simp
  have hset : D.set j v = D.take j ++ v :: D.drop (j + 1) := by rw [List.set_eq_take_append_cons_drop, if_pos hj]
  rw [hset, crc32_append_cons, (congrArg crc32 hsplit).trans (crc32_append_cons _ _ _)] at h
  exact hv (crcByte_injective _ (crcRun_injective _ ((BitVec.xor_left_inj _).1 h))).symm

/-! ### One changed byte of a WEP frame (R166) -/

theorem byteAt_append_add (A B : Bytes) (j : Nat) : byteAt (A ++ B) (A.length + j) = byteAt B j := by
  rw [byteAt, byteAt, List.getD_append_right _ _ _ _ (Nat.le_add_right _ _), Nat.add_sub_cancel_left]

/-- `WepCore` on an encryption with one byte changed: in the data the CRC-32 changes and the ICV does not, in the ICV it
is the other way round. -/
theorem wepCore_rc4_set {seed D : Bytes} {j : Nat} {b : Byte} (hj : j < (D ++ le32Bytes (crc32 D)).length)
    (hb : byteAt (rc4 seed (D ++ le32Bytes (crc32 D))) j ≠ b) :
    wepCore seed ((rc4 seed (D ++ le32Bytes (crc32 D))).set j b) = .error .icvMismatch := by
  obtain ⟨v, hQ, hv⟩ := rc4_rc4_set hj hb
  rcases Nat.lt_or_ge j D.length with hdata | hicv
  · rw [List.set_append_left _ _ hdata] at hQ
    rw [List.getElem_append_left hdata] at hv
    rw [wepCore_of_rc4 hQ rfl, if_neg fun h => crc32_set_ne hdata hv (le32Bytes_injective h)]
  · rw [List.set_append_right _ _ hicv] at hQ
    rw [List.getElem_append_right hicv] at hv
    have hne : le32Bytes (crc32 D) ≠ (le32Bytes (crc32 D)).set (j - D.length) v :=
      fun h => hv ((List.getElem_of_eq h _).trans (List.getElem_set_self _))
    rw [wepCore_of_rc4 hQ (by simp), if_neg hne]

/-- Settles O50: the byte lies in the ciphertext, where it changes one byte of the data or of the ICV and no other. -/
theorem wepChangedByteFails : Obligations.WepChangedByteFails := by
  intro hdr iv wkey D keyId b i hiv _ _ hlo hhi hb
  obtain ⟨j, rfl⟩ := Nat.exists_eq_add_of_le hlo
  have hfront : hdr.length + 4 = (hdr ++ iv ++ [keyId]).length := by
    simp only [List.length_append, List.length_singleton]
    omega
  rw [wepEncrypt, List.append_cons, hfront] at hhi hb ⊢
  rw [byteAt_append_add] at hb
  rw [List.length_append (bs := rc4 _ _), length_rc4] at hhi
  rw [List.set_append_right _ _ (by omega), Nat.add_sub_cancel_left, List.append_assoc, List.singleton_append,
    wepTry_append hiv (by simp), wepCore_rc4_set (by omega) hb]

end Sys2Proof.Machine

/-! The output frame, the commands WEP_DECRYPT, TKIP_DECRYPT and CCMP_DECRYPT, and the RSNA packets that are decrypted
(spec/44_cipher_pipelines.md R149 to R171; spec/45_packet_processor.md R188 to R193). -/

namespace Sys2Proof.Machine

/-! ### The output frame (R150) -/

theorem byteAt_slice_zero {B : Bytes} {i n : Nat} (hi : i < n) : byteAt (slice B 0 n) i = byteAt B i := by
  simp [byteAt, slice, List.getD_eq_getElem?_getD, hi]

theorem byteAt_clearProtected_one {O : Bytes} (h : 1 < O.length) :
    byteAt (clearProtected O) 1 = byteAt O 1 &&& 0xBF#8 := by
  rw [byteAt_eq_getElem (by simpa using h)]
  exact List.getElem_set_self _

theorem byteAt_clearProtected_of_ne {O : Bytes} {i : Nat} (h : i ≠ 1) : byteAt (clearProtected O) i = byteAt O i := by
  simp [byteAt, clearProtected, List.getD_eq_getElem?_getD, List.getElem?_set_ne h.symm]

/-- The Protected bit lies in the header, so clearing it leaves the payload alone. -/
theorem plainFrame_eq {W : Bytes} {h : Nat} (h2 : 2 ≤ h) (hW : h ≤ W.length) (P : Bytes) :
    plainFrame W h P = clearProtected (slice W 0 h) ++ P := by
  have hone : 1 < (slice W 0 h).length := by
    rw [length_slice]
    omega
  rw [plainFrame, clearProtected, List.set_append_left _ _ hone, byteAt_append_of_lt hone]
  rfl

/-- Settles O51: the output frame is the cleared header, the payload and the FCS, one after the other. -/
theorem outputFrameContents : Obligations.OutputFrameContents := by
  intro W P h fcs h2 hW O
  have hhdr : (clearProtected (slice W 0 h)).length = h := by
    rw [length_clearProtected, length_slice]
    omega
  have hplain : (plainFrame W h P).length = h + P.length := by rw [plainFrame_eq h2 hW, List.length_append, hhdr]
  have hO : O = clearProtected (slice W 0 h) ++ P ++ if fcs then le32Bytes (crc32 (plainFrame W h P)) else [] := by
    rw [← plainFrame_eq h2 hW]
    rfl
  have hbyte (j : Nat) (hj : j < h) : byteAt O j = byteAt (clearProtected (slice W 0 h)) j := by
    rw [hO, List.append_assoc, byteAt_append_of_lt (by omega)]
  refine ⟨?length, ?byteOne, fun j hj hne => ?header, ?payload, fun hfcs => ?fcs⟩
  case length =>
    rw [length_outputFrame, Nat.min_eq_left hW]
    rfl
  case byteOne =>
    rw [hbyte 1 h2, byteAt_clearProtected_one (by simp; omega), byteAt_slice_zero h2]
  case header => rw [hbyte j hj, byteAt_clearProtected_of_ne hne, byteAt_slice_zero hj]
  case payload => rw [hO, slice_append_append hhdr rfl]
  case fcs =>
    have hOfcs : O = plainFrame W h P ++ le32Bytes (crc32 (plainFrame W h P)) := by
      subst hfcs
      rfl
    rw [hOfcs, slice_append_right hplain (length_le32Bytes _), slice_zero_append hplain]

/-! ### The common frame rule of the standalone pipelines (R168), one equation per case -/

section
variable {s : State} {opc : Byte} {cipher : Cipher} {fcs : Bool} {len : Nat} {operandOk : Bool}
  {frameOk : Bytes → Nat → Bool} {run : Bytes → Nat → Except PipeFail Bytes}

theorem pipelineCommand_badOperand (h : (Config.frameBufLen < len ∨ s.hdrLenOperand < 24) ∨ operandOk = false) :
    s.pipelineCommand opc cipher fcs len operandOk frameOk run = s.illegal opc .badField := by
  rw [State.pipelineCommand]
  refine if_pos ?_
  rcases h with (h | h) | h <;> simp [h]

variable (hres : s.arg0.extractLsb' 8 24 = 0) (hlen : len ≤ Config.frameBufLen) (hhdr : 24 ≤ s.hdrLenOperand)
  (hop : operandOk = true)
include hres hlen hhdr hop

/-- With good operands the length check decides next, then the check on the frame itself. -/
theorem pipelineCommand_eq :
    s.pipelineCommand opc cipher fcs len operandOk frameOk run =
      if len < s.hdrLenOperand + fcsLen fcs then s.finishFrame opc .tooShort .wrongDataSize 0 Res1.zero []
      else if frameOk (s.frameIn 0 (len - fcsLen fcs)) s.hdrLenOperand = false then s.illegal opc .badField
      else s.finishPipeline opc cipher fcs (s.frameIn 0 (len - fcsLen fcs)) s.hdrLenOperand
        (run (s.frameIn 0 (len - fcsLen fcs)) s.hdrLenOperand) := by
  have hz : s.hdrLenReservedZero = true := beq_iff_eq.2 hres
  simp [State.pipelineCommand, hz, hop, Nat.not_lt.2 hlen, Nat.not_lt.2 hhdr, Nat.add_comm]

theorem pipelineCommand_tooShort (h : len < s.hdrLenOperand + fcsLen fcs) :
    s.pipelineCommand opc cipher fcs len operandOk frameOk run =
      s.finishFrame opc .tooShort .wrongDataSize 0 Res1.zero [] := by
  rw [pipelineCommand_eq hres hlen hhdr hop, if_pos h]

variable (hfit : s.hdrLenOperand + fcsLen fcs ≤ len)
include hfit

theorem pipelineCommand_badFrame (h : frameOk (s.frameIn 0 (len - fcsLen fcs)) s.hdrLenOperand = false) :
    s.pipelineCommand opc cipher fcs len operandOk frameOk run = s.illegal opc .badField := by
  rw [pipelineCommand_eq hres hlen hhdr hop, if_neg (Nat.not_lt.2 hfit), if_pos h]

theorem pipelineCommand_runs (h : frameOk (s.frameIn 0 (len - fcsLen fcs)) s.hdrLenOperand = true)
    {x : Except PipeFail Bytes} (hx : run (s.frameIn 0 (len - fcsLen fcs)) s.hdrLenOperand = x) :
    s.pipelineCommand opc cipher fcs len operandOk frameOk run =
      s.finishPipeline opc cipher fcs (s.frameIn 0 (len - fcsLen fcs)) s.hdrLenOperand x := by
  rw [pipelineCommand_eq hres hlen hhdr hop, if_neg (Nat.not_lt.2 hfit), if_neg (by simp [h]), hx]

theorem pipelineCommand_fails (h : frameOk (s.frameIn 0 (len - fcsLen fcs)) s.hdrLenOperand = true) {e : PipeFail}
    (he : run (s.frameIn 0 (len - fcsLen fcs)) s.hdrLenOperand = .error e) :
    s.pipelineCommand opc cipher fcs len operandOk frameOk run =
      s.finishFrame opc (pipeOutcome e) (pipeReason e) 0 Res1.zero [] :=
  pipelineCommand_runs hres hlen hhdr hop hfit h he

end

/-- A pipeline that succeeds: the report, and FRAME_OUT with the output frame where it fits. -/
theorem State.finishPipeline_ok (s : State) (opc : Byte) (cipher : Cipher) {fcs : Bool} {W P : Bytes} {h : Nat}
    (hfit : (outputFrame W h P fcs).length ≤ Config.frameBufLen) :
    ∃ t, s.finishPipeline opc cipher fcs W h (.ok P) = t ∧
      t.Reports opc .ok .none (BitVec.ofNat 32 P.length) (res1Word { Res1.zero with cipher := cipher })
        (BitVec.ofNat 32 (outputFrame W h P fcs).length) ∧
      t.FrameOutHolds (outputFrame W h P fcs) ∧ t.store = s.store ∧ s.FrameOnly t := by
  obtain ⟨honly, hstore⟩ := s.finishFrame_stops opc .ok .none (BitVec.ofNat 32 P.length)
    { Res1.zero with cipher := cipher } (outputFrame W h P fcs)
  exact ⟨_, rfl, ⟨rfl, rfl, rfl, rfl⟩, memRead_putFrameOut _ _ hfit, hstore, honly⟩

/-- A frame command that ends with an empty output. -/
theorem State.finishFrame_nil (s : State) (opc : Byte) (o : OutcomeCode) (r : ReasonCode) :
    ∃ t, s.finishFrame opc o r 0 Res1.zero [] = t ∧ t.Reports opc o r 0 0 0 ∧ t.store = s.store ∧ s.FrameOnly t := by
  obtain ⟨honly, hstore⟩ := s.finishFrame_stops opc o r 0 Res1.zero []
  exact ⟨_, rfl, ⟨rfl, rfl, res1Word_zero, rfl⟩, hstore, honly⟩

/-! ### A payload is shorter than its frame (R149) -/

theorem length_of_wepTry {W wkey P : Bytes} {h : Nat} (he : wepTry W h wkey = .ok P) : h + P.length ≤ W.length := by
  rcases wepTry_spec W h wkey with ⟨he', -⟩ | ⟨he', -⟩ | ⟨Q, he', hQ⟩ <;> rw [he] at he' <;> cases he'
  omega

theorem length_of_tkipTry {W tk P : Bytes} {h : Nat} (he : tkipTry W h tk = .ok P) : h + P.length ≤ W.length := by
  rcases tkipTry_spec W h tk with ⟨he', -⟩ | ⟨he', -⟩ | ⟨Q, he', hQ⟩ <;> rw [he] at he' <;> cases he'
  omega

theorem length_of_ccmpTry {W tk P : Bytes} {h : Nat} (he : ccmpTry W h tk = .ok P) : h + P.length ≤ W.length := by
  rcases ccmpTry_spec W h tk with ⟨he', -⟩ | ⟨he', -⟩ | ⟨Q, he', hQ⟩ <;> rw [he] at he' <;> cases he'
  omega

/-! ### WEP_DECRYPT, TKIP_DECRYPT and CCMP_DECRYPT (R169 to R171) -/

theorem klenLegal_iff {klen : Nat} : klenLegal klen = true ↔ 1 ≤ klen ∧ klen ≤ 32 := decide_eq_true_iff

section
variable (s : State) (fcs : Bool) (len : Nat)

theorem exec_wepDecrypt : exec (.wepDecrypt fcs len) s =
    .next (s.pipelineCommand (Instr.opcode (.wepDecrypt fcs len)) .wep fcs len (klenLegal (s.readByte 0x9000).toNat)
      (fun _ _ => true) fun W h => wepTry W h (s.memRead .param 1 (s.readByte 0x9000).toNat)) := rfl

theorem exec_tkipDecrypt : exec (.tkipDecrypt fcs len) s =
    .next (s.pipelineCommand (Instr.opcode (.tkipDecrypt fcs len)) .tkip fcs len true
      (fun _ _ => true) fun W h => tkipTry W h (s.memRead .param 0 16)) := rfl

theorem exec_ccmpDecrypt : exec (.ccmpDecrypt fcs len) s =
    .next (s.pipelineCommand (Instr.opcode (.ccmpDecrypt fcs len)) .ccmp fcs len true
      (fun W h => decide (hdrLen W ≤ h)) fun W h => ccmpTry W h (s.memRead .param 0 16)) := rfl

end

/-- Settles O52: the three commands are one rule with three pipelines, and no output frame is longer than its input. -/
theorem decryptCommandsSucceed : Obligations.DecryptCommandsSucceed := by
  intro s fcs len hres h W klen hlen hhdr hfit succeeds
  have succeed {i : Instr} {cipher : Cipher} {operandOk : Bool} {frameOk : Bytes → Nat → Bool}
      {run : Bytes → Nat → Except PipeFail Bytes} {P : Bytes}
      (hexec : exec i s = .next (s.pipelineCommand i.opcode cipher fcs len operandOk frameOk run))
      (hop : operandOk = true) (hframe : frameOk W h = true) (hrun : run W h = .ok P)
      (hP : h + P.length ≤ W.length) : succeeds i (res1Word { Res1.zero with cipher := cipher }) P := by
    have hW : W.length = len - fcsLen fcs := length_frameIn s 0 _
    have hout : (outputFrame W h P fcs).length ≤ Config.frameBufLen := by
      rw [length_outputFrame, Config.frameBufLen]
      simp only [fcsLen] at hW ⊢
      omega
    have hcommand := pipelineCommand_runs (opc := i.opcode) (cipher := cipher) hres hlen hhdr hop hfit hframe hrun
    obtain ⟨t, ht, hend⟩ := s.finishPipeline_ok i.opcode cipher hout
    exact ⟨t, hexec.trans (congrArg _ (hcommand.trans ht)), hend⟩
  refine ⟨fun hlo hhi P he => ?wep, fun P he => ?tkip, fun hreach P he => ?ccmp⟩
  case wep =>
    exact succeed (exec_wepDecrypt s fcs len) (klenLegal_iff.2 ⟨hlo, hhi⟩) rfl he (length_of_wepTry he)
  case tkip => exact succeed (exec_tkipDecrypt s fcs len) rfl rfl he (length_of_tkipTry he)
  case ccmp => exact succeed (exec_ccmpDecrypt s fcs len) rfl (decide_eq_true hreach) he (length_of_ccmpTry he)

/-- Settles O53: each command is the common rule, whose checks stop it one after the other. -/
theorem decryptCommandsFail : Obligations.DecryptCommandsFail := by
  intro s fcs len hres h W klen illegal stops kinds
  have refuse {i : Instr} {t : State} (hexec : exec i s = .next t) (ht : t = s.illegal i.opcode .badField) :
      illegal i := ⟨_, hexec.trans (congrArg _ ht), s.illegal_reports _ _, s.illegal_sameButResults _ _⟩
  have stop {i : Instr} {t : State} {o : OutcomeCode} {r : ReasonCode} (hexec : exec i s = .next t)
      (ht : t = s.finishFrame i.opcode o r 0 Res1.zero []) : stops i o r := by
    obtain ⟨t', ht', hend⟩ := s.finishFrame_nil i.opcode o r
    exact ⟨t', hexec.trans (congrArg _ (ht.trans ht')), hend⟩
  have hkinds : ∀ x ∈ kinds, x.2.1 = pipeOutcome x.1 ∧ x.2.2 = pipeReason x.1 := by
    simp [kinds, pipeOutcome, pipeReason]
  have fail {i : Instr} {t : State} {x : PipeFail × OutcomeCode × ReasonCode} (hx : x ∈ kinds)
      (hexec : exec i s = .next t)
      (ht : t = s.finishFrame i.opcode (pipeOutcome x.1) (pipeReason x.1) 0 Res1.zero []) : stops i x.2.1 x.2.2 := by
    obtain ⟨ho, hr⟩ := hkinds x hx
    rw [ho, hr]
    exact stop hexec ht
  have hwep := exec_wepDecrypt s fcs len
  have htkip := exec_tkipDecrypt s fcs len
  have hccmp := exec_ccmpDecrypt s fcs len
  refine ⟨fun hbad => ?badFrameOperands, fun hklen => ?badKlen, fun hlen hhdr hshort => ?tooShort,
    fun hlen hhdr hfit => ⟨fun hlo hhi x hx he => ?wepFails, fun x hx he => ?tkipFails, fun hreach => ?badFrame,
      fun hreach x hx he => ?ccmpFails⟩⟩
  case badFrameOperands =>
    exact ⟨refuse hwep (pipelineCommand_badOperand (.inl hbad)), refuse htkip (pipelineCommand_badOperand (.inl hbad)),
      refuse hccmp (pipelineCommand_badOperand (.inl hbad))⟩
  case badKlen =>
    have hop : klenLegal klen = false := by
      rw [← Bool.not_eq_true, klenLegal_iff]
      omega
    exact refuse hwep (pipelineCommand_badOperand (.inr hop))
  case tooShort =>
    exact ⟨fun hlo hhi => stop hwep (pipelineCommand_tooShort hres hlen hhdr (klenLegal_iff.2 ⟨hlo, hhi⟩) hshort),
      stop htkip (pipelineCommand_tooShort hres hlen hhdr rfl hshort),
      stop hccmp (pipelineCommand_tooShort hres hlen hhdr rfl hshort)⟩
  case wepFails =>
    exact fail hx hwep (pipelineCommand_fails hres hlen hhdr (klenLegal_iff.2 ⟨hlo, hhi⟩) hfit rfl he)
  case tkipFails =>
    exact fail hx htkip (pipelineCommand_fails hres hlen hhdr rfl hfit rfl he)
  case badFrame =>
    exact refuse hccmp (pipelineCommand_badFrame hres hlen hhdr rfl hfit (decide_eq_false (Nat.not_le.2 hreach)))
  case ccmpFails =>
    exact fail hx hccmp (pipelineCommand_fails hres hlen hhdr rfl hfit (decide_eq_true hreach) he)

/-! ### RSNA packets (R188 to R191) -/

/-- The RES1 word that reports a decryption with the cached key: its bits 11:8 are CIPHER and KEY_VALID (R21, R191). -/
theorem res1Word_decrypted (cipher : Cipher) (ck : Byte) :
    res1Word ⟨ck, true, cipher, 0⟩ = 0x00000#20 ++ (cipherBits cipher ++ 1#1 : BitVec 4) ++ ck :=
  congrArg (fun x : BitVec 24 => x ++ ck)
    (show 0#16 ++ 0#4 ++ cipherBits cipher ++ BitVec.ofBool true =
      (0x00000#20 ++ (cipherBits cipher ++ 1#1 : BitVec 4) : BitVec 24) by cases cipher <;> decide)

section
variable {replayEn fcs : Bool} {F P : Bytes} {h : Nat} {sl : SaSlot}
  (hck : sl.ckValid = true) (hvk : sl.validKey = true)
include hck hvk

theorem rsnaPath_tkip (hver : sl.keyVer = 1) (hP : tkipTry F h sl.tk = .ok P) :
    rsnaPath replayEn fcs F h sl = rsnaOk sl sl .tkip (outputFrame F h P fcs) := by
  simp [rsnaPath, hck, hvk, hver, hP]

theorem rsnaPath_ccmp (hver : sl.keyVer ≠ 1) (hP : ccmpTry F h sl.tk = .ok P)
    (hfresh : replayRejects replayEn (ccmpPn F h) sl = false) :
    rsnaPath replayEn fcs F h sl =
      rsnaOk sl (acceptPn replayEn (ccmpPn F h) sl) .ccmp (outputFrame F h P fcs) := by
  simp only [rsnaPath, hck, hvk, Bool.not_true, Bool.false_eq_true, if_false, if_neg hver, hP, hfresh]

end

/-- What PROCESS_PACKET puts out for a frame fits FRAME_OUT. -/
theorem State.Reaches.out_fits {s : State} {fcs rt : Bool} {len : Nat} {F : Bytes} {k : Nat} {sl : SaSlot}
    (hreach : s.Reaches fcs rt len F k sl) (hs dec : Bool) :
    (dispatchFrame s.keys s.replayEn fcs hs dec F sl).out.length ≤ Config.frameBufLen := by
  obtain ⟨id, hd, -⟩ := hreach.frame
  rcases (dispatchFrame_cases s.keys s.replayEn fcs hs dec F sl).out_nil_or_ok with hnil | ⟨-, hlt⟩
  · exact (congrArg List.length hnil).trans_le (Nat.zero_le _)
  · exact Nat.le_of_lt (Nat.lt_of_lt_of_le hlt hd.views.length_add_fcs)

/-- A packet that the RSNA path decrypts: its slot, its report and its output frame. -/
theorem exec_reaches_rsnaOk {s : State} {fcs rt hs : Bool} {len : Nat} {F : Bytes} {k : Nat} {sl sl' : SaSlot}
    {cipher : Cipher} {code : BitVec 4} {out : Bytes} (hcode : cipherBits cipher ++ 1#1 = code)
    (hreach : s.Reaches fcs rt len F k sl) (hprot : frameProtected F = true) (hlong : hdrLen F + 4 ≤ F.length)
    (hext : extIv F (hdrLen F) = true)
    (hrsna : rsnaPath s.replayEn fcs F (hdrLen F) sl = rsnaOk sl sl' cipher out) :
    ∃ t, exec (.processPacket fcs rt hs true len) s = .next t ∧
      t.Reports 0x40 .ok .none (BitVec.ofNat 32 k) (0x00000#20 ++ code ++ sl.ckIndex)
        (BitVec.ofNat 32 out.length) ∧
      t.FrameOutHolds out ∧ s.store.Wrote t.store k sl' ∧ s.FrameOnly t := by
  have hdispatch : dispatchFrame s.keys s.replayEn fcs hs true F sl = rsnaOk sl sl' cipher out := by
    rw [dispatchFrame, if_pos hprot, protectedPath_rsna hlong hext, hrsna]
  have hfit := hreach.out_fits hs true
  rw [hdispatch] at hfit
  obtain ⟨t, ht, hrep, hwrote, honly, hout⟩ := exec_reaches hreach hs true hdispatch
  rw [← hcode, ← res1Word_decrypted]
  exact ⟨t, ht, hrep, hout hfit, hwrote, honly⟩

/-- Settles O58: KEY_VER chooses the pipeline, and the replay check the slot that a CCMP success leaves. -/
theorem rsnaPacketDecrypts : Obligations.RsnaPacketDecrypts := by
  intro s fcs rt hs len F k sl hreach hprot hlong hext hck hvk decrypts pn P
  refine ⟨fun hver hP => ?tkip, fun hver hP => ⟨fun hoff => ?replayOff, fun hon hfresh => ?replayOn⟩⟩
  case tkip =>
    exact exec_reaches_rsnaOk (cipher := .tkip) (by decide) hreach hprot hlong hext (rsnaPath_tkip hck hvk hver hP)
  case replayOff =>
    have haccept : replayRejects s.replayEn pn sl = false := by simp [replayRejects, hoff]
    have hslot : acceptPn s.replayEn pn sl = sl := by simp [acceptPn, hoff]
    have hpath := rsnaPath_ccmp (fcs := fcs) hck hvk hver hP haccept
    rw [hslot] at hpath
    exact exec_reaches_rsnaOk (by decide) hreach hprot hlong hext hpath
  case replayOn =>
    have haccept : replayRejects s.replayEn pn sl = false := by
      rcases hfresh with hfirst | hlater
      · simp [replayRejects, hfirst]
      · simp [replayRejects, BitVec.ule_eq_decide, hlater]
    have hslot : acceptPn s.replayEn pn sl = { sl with pn := pn, pnValid := true } := by simp [acceptPn, hon]
    have hpath := rsnaPath_ccmp (fcs := fcs) hck hvk hver hP haccept
    rw [hslot] at hpath
    exact exec_reaches_rsnaOk (by decide) hreach hprot hlong hext hpath

end Sys2Proof.Machine

/-! The outcomes that each command can report, and the packets that stop before an SA or carry no handshake
(spec/45_packet_processor.md R173 to R182, R193, R194; spec/60_exceptions.md R198). -/

namespace Sys2Proof.Machine

/-! ### OUTCOME and REASON (R173, R198) -/

theorem plainPairs_subset : plainPairs ⊆ processPairs := by decide

theorem earlyPairs_subset : earlyPairs ⊆ processPairs := by decide

/-- Whatever a frame does to its slot, it reports an outcome of R173. -/
theorem FrameCase.pair_mem {keys : List KeyEntry} {replayEn fcs hs dec : Bool} {F : Bytes} {sl : SaSlot} {r : FrameResult}
    (h : FrameCase keys replayEn fcs hs dec F sl r) : (r.outcome, r.reason) ∈ processPairs := by
  have hok : (OutcomeCode.ok, ReasonCode.none) ∈ processPairs := by decide
  have hstep : (OutcomeCode.handshakeStepOk, ReasonCode.none) ∈ processPairs := by decide
  cases h with
  | plain o r hp => exact plainPairs_subset hp
  | msg1 | msg2 | msg3 | msg4 => exact hstep
  | wep | tkip | ccmp => exact hok

/-- Every way a command can end reports a pair of the command's list. -/
theorem ExecCase.pair_mem {i : Instr} {s t : State} (h : ExecCase i s t) :
    ∃ p ∈ outcomePairs i, t.status = statusWord i.opcode p.1 p.2 := by
  have ok_mem : (OutcomeCode.ok, ReasonCode.none) ∈ outcomePairs i →
      ∃ p ∈ outcomePairs i, statusWord i.opcode .ok .none = statusWord i.opcode p.1 p.2 := fun hp => ⟨_, hp, rfl⟩
  cases h with
  | illegal r hp => exact ⟨_, hp, rfl⟩
  | report o r x hp => exact ⟨_, hp, rfl⟩
  | result b v x hp => exact ok_mem hp
  | resets ks x hr =>
    rcases hr with ⟨rfl, -⟩ | ⟨rfl, -⟩ | ⟨rfl, -⟩ | ⟨n, rfl, -⟩ <;> exact ok_mem List.mem_cons_self
  | allocates k st hi => exact ok_mem (hi ▸ List.mem_cons_self)
  | releases k hi => exact ok_mem (hi ▸ List.mem_cons_self)
  | pipeFails o r hp => exact ⟨_, hp, rfl⟩
  | pipeRuns x c out _ hi =>
    obtain ⟨fcs, len, rfl | rfl | rfl⟩ := hi <;> exact ok_mem List.mem_cons_self
  | packetStops e he hi =>
    obtain ⟨fcs, rt, hs, dec, len, rfl⟩ := hi
    exact ⟨e, earlyPairs_subset he, rfl⟩
  | packet fcs rt hs dec len F id k st r hi _ _ hr =>
    subst hi
    exact ⟨_, hr.pair_mem, rfl⟩

/-- Settles O20, by the cases of `exec_cases`. -/
theorem outcomePairsOfEveryCommand : Obligations.OutcomePairsOfEveryCommand :=
  fun _ _ _ h => (ExecCase.of_exec h).pair_mem

/-! ### Classification (R174 to R178), one equation per stop -/

theorem classifyFrame_notData {F : Bytes} (h : frameType F ≠ 2) (minCtLen : Nat) :
    classifyFrame minCtLen F = .error (.notData, .none) := by
  simp only [classifyFrame, if_pos h]

section
variable {F : Bytes} {minCtLen : Nat} (hdata : frameType F = 2)
include hdata

theorem classifyFrame_tooShort (h : F.length < 2 ∨ F.length < hdrLen F ∨ F.length < hdrLen F + minCtLen) :
    classifyFrame minCtLen F = .error (.tooShort, .wrongDataSize) := by
  simp only [classifyFrame, hdata, ne_eq, not_true_eq_false, if_false]
  by_cases htwo : F.length < 2
  · rw [if_pos htwo]
  · rw [if_neg htwo, if_pos (h.resolve_left htwo)]

/-- With DS = 3 there is no SA id (R81). -/
theorem classifyFrame_noId (htwo : 2 ≤ F.length) (hlong : hdrLen F + minCtLen ≤ F.length) (hds : frameDs F = 3) :
    classifyFrame minCtLen F = .error (.requiredDataMissing, .none) := by
  have hid : frameId F = none := by simp [frameId, hds]
  simp only [classifyFrame, hdata, hid, ne_eq, not_true_eq_false, if_false]
  rw [if_neg (by omega), if_neg (by omega)]

end

/-! ### PROCESS_PACKET up to the SA (R174 to R179, R193) -/

section
variable {s : State} {fcs rt : Bool} {len : Nat}

theorem exec_processPacket_tooLong (hlen : Config.frameBufLen < len) (hs dec : Bool) :
    exec (.processPacket fcs rt hs dec len) s = .next (s.illegal 0x40 .badField) := by
  simp only [exec, execProcessPacket, if_pos hlen, Instr.opcode]

theorem State.frameView_none (h : len - fcsLen fcs ≤ if rt then Config.preambleLen else 0) :
    s.frameView fcs rt len = none := if_pos h

theorem State.frameView_some (h : (if rt then Config.preambleLen else 0) < len - fcsLen fcs) :
    s.frameView fcs rt len = some (s.memRead .frameIn (if rt then Config.preambleLen else 0)
      (len - fcsLen fcs - if rt then Config.preambleLen else 0)) := if_neg (Nat.not_le.2 h)

theorem exec_processPacket_empty (hlen : len ≤ Config.frameBufLen) (hview : s.frameView fcs rt len = none) (hs dec : Bool) :
    exec (.processPacket fcs rt hs dec len) s =
      .next (s.finishFrame 0x40 .unsuccessful .wrongDataSize noSlot Res1.zero []) := by
  simp only [exec, execProcessPacket, if_neg (Nat.not_lt.2 hlen), hview, Instr.opcode]

theorem exec_processPacket_rejected (hlen : len ≤ Config.frameBufLen) {F : Bytes} (hview : s.frameView fcs rt len = some F)
    {o : OutcomeCode} {r : ReasonCode} (hclass : classifyFrame s.params.minCtLen F = .error (o, r)) (hs dec : Bool) :
    exec (.processPacket fcs rt hs dec len) s = .next (s.finishFrame 0x40 o r noSlot Res1.zero []) := by
  simp only [exec, execProcessPacket, if_neg (Nat.not_lt.2 hlen), hview, hclass, Instr.opcode]

theorem exec_processPacket_storeFull {F : Bytes} {id : SaId} (hd : s.DataFrame fcs rt len F id)
    (hfull : s.store.lookupOrAllocate s.params.saCap id = none) (hs dec : Bool) :
    exec (.processPacket fcs rt hs dec len) s =
      .next (s.finishFrame 0x40 .unsuccessful .storeFull noSlot Res1.zero []) := by
  have hexec : exec (.processPacket fcs rt hs dec len) s = .next (s.processData 0x40 fcs hs dec F id) :=
    execProcessPacket_data hd hs dec
  rw [hexec, State.processData, hfull]

end

/-- `LookupOrAllocate` is full where every slot is used and none of them holds the id (R104, R108). -/
theorem SaStore.lookupOrAllocate_eq_none {st : SaStore} (hb : st.usedBelowLsi) {cap : Nat} {id : SaId}
    (hid : ∀ k, (st.slot k).used = true → (st.slot k).id ≠ id) (hall : ∀ k, k < cap → (st.slot k).used = true) :
    st.lookupOrAllocate cap id = none :=
  (SaStore.lookupOrAllocate_of_miss ((SaStore.lookup_eq_none_iff hb).2 hid) cap).trans (SaStore.allocate_eq_none hall id)

/-- What a packet that reaches no SA reports and leaves alone (R193). -/
theorem exec_finishFrame_noSlot {s : State} {i : Instr} {o : OutcomeCode} {r : ReasonCode}
    (h : exec i s = .next (s.finishFrame 0x40 o r noSlot Res1.zero [])) :
    ∃ t, exec i s = .next t ∧ t.Reports 0x40 o r 0xFFFFFFFF 0 0 ∧ t.store = s.store ∧ s.FrameOnly t := by
  obtain ⟨honly, hstore⟩ := s.finishFrame_stops 0x40 o r noSlot Res1.zero []
  exact ⟨_, h, ⟨rfl, rfl, res1Word_zero, rfl⟩, hstore, honly⟩

/-- Settles O54: the view, the classification and `LookupOrAllocate`, each with the outcome that ends the command there. -/
theorem packetsStoppedBeforeTheSa : Obligations.PacketsStoppedBeforeTheSa := by
  intro s fcs rt hs dec len base stop stops
  have hstop : stop = len - fcsLen fcs := by cases fcs <;> rfl
  refine ⟨fun hlen => ?tooLong, fun hlen hempty => ?empty, fun hlen hne => ?classified,
    fun F id hinv hd hid hall => ?full⟩
  case tooLong =>
    exact ⟨_, exec_processPacket_tooLong hlen hs dec, s.illegal_reports _ _, s.illegal_sameButResults _ _⟩
  case empty =>
    exact exec_finishFrame_noSlot (exec_processPacket_empty hlen (State.frameView_none (hstop ▸ hempty)) hs dec)
  case classified =>
    intro F
    have hview : s.frameView fcs rt len = some F := (State.frameView_some (hstop ▸ hne)).trans (by rw [← hstop])
    have reject {o : OutcomeCode} {r : ReasonCode} (hclass : classifyFrame s.params.minCtLen F = .error (o, r)) :
        stops o r := exec_finishFrame_noSlot (exec_processPacket_rejected hlen hview hclass hs dec)
    exact ⟨fun htype => reject (classifyFrame_notData htype _),
      fun hdata hshort => reject (classifyFrame_tooShort hdata hshort),
      fun hdata htwo hlong hds => reject (classifyFrame_noId hdata htwo hlong hds)⟩
  case full =>
    exact exec_finishFrame_noSlot (exec_processPacket_storeFull hd
      (SaStore.lookupOrAllocate_eq_none hinv.store.usedBelowLsi hid hall) hs dec)

/-! ### Cleartext packets without a handshake (R180 to R182) -/

/-- A frame that passes the shape check carries an EAPOL-Key body (R85, R86, R182). -/
theorem exists_eapolKey_of_shape {F : Bytes} (h : eapolKeyShape F (hdrLen F) = true) : ∃ E K, EapolKey F E K := by
  simp only [eapolKeyShape, Bool.and_eq_true, decide_eq_true_eq, beq_iff_eq] at h
  obtain ⟨⟨⟨⟨-, hsig⟩, hhead⟩, htype⟩, hfits⟩ := h
  have hbody : (be16 (F.drop (hdrLen F + 8)) 2).toNat ≤ F.length - (hdrLen F + 12) := hfits
  have hE : (F.drop (hdrLen F + 8)).length = F.length - (hdrLen F + 8) := List.length_drop
  exact ⟨_, _, hsig, rfl, by omega, htype, by omega, rfl⟩

/-- A cleartext frame without HS, or with no EAPOL-Key body, gets no further than the cleartext path. -/
theorem dispatchFrame_noHandshake {hs : Bool} {F : Bytes} (hclear : frameProtected F = false)
    (h : hs = false ∨ ¬ ∃ E K, EapolKey F E K) (keys : List KeyEntry) (replayEn fcs dec : Bool) (sl : SaSlot) :
    dispatchFrame keys replayEn fcs hs dec F sl = .plain sl .noDataEncrypted .none := by
  rcases h with rfl | hno
  · simp [dispatchFrame, hclear, cleartextPath]
  · have hshape : eapolKeyShape F (hdrLen F) = false := Bool.eq_false_iff.2 fun hk => hno (exists_eapolKey_of_shape hk)
    simp [dispatchFrame, hclear, cleartextPath, hshape]

/-- Settles O56: the frame does nothing but report, and its slot keeps the contents it was reached with. -/
theorem cleartextPacketsWithoutHandshake : Obligations.CleartextPacketsWithoutHandshake := by
  intro s fcs rt hs dec len F k sl hreach hclear h
  exact exec_reaches_plain hreach (dispatchFrame_noHandshake hclear h s.keys s.replayEn fcs dec sl)

end Sys2Proof.Machine

/-! The platform's reset at run time (spec/70_reset_and_hazards.md R211, R212, R214). -/

namespace Sys2Proof.Machine

@[simp] theorem State.platformReset_keysNr (s : State) : s.platformReset.keysNr = 0 := by
  rw [State.keysNr, State.platformReset_keys, List.length_nil]

/-- The platform's reset is never refused: it has no width, offset or place (R211). -/
theorem accessRefusal_reset (p : Params) : accessRefusal p .reset = none := rfl

/-- A step with the platform's reset pending is the reset sequence (R214) on the state whose queue no longer holds it. -/
theorem step_reset {s : State} {rest : List HostAccess} (h : s.host = .reset :: rest) :
    step s = .next (State.platformReset { s with host := rest }) :=
  step_access h (accessRefusal_reset s.params)

/-- Settles O16: the step is `State.platformReset`, whose laws give each field; it takes from the state only the parameters,
the rest of the queue and the last read value, and the draws of the unspecified bytes count on (log 5). -/
theorem platformResetFromAnyState : Obligations.PlatformResetFromAnyState := by
  intro s rest h
  refine ⟨_, step_reset h, ?_⟩
  simp only [State.platformReset_cmd, State.platformReset_arg0, State.platformReset_status, State.platformReset_res0,
    State.platformReset_res1, State.platformReset_outLen, State.platformReset_ctrl, State.platformReset_store,
    State.platformReset_keysNr, State.platformReset_mem, State.platformReset_params, State.platformReset_host, and_self]

end Sys2Proof.Machine
